-- ==== Sys2Proof/Word.lean ====
section
/-! DEFINITION. The word types of PCFR: what the spec treats as bits, and nothing else (00_scope.md R12, R14: indices and addresses are natural numbers that never wrap). -/

namespace Sys2Proof

/-- A byte `b[7:0]` (R12): a packet byte, a frame-buffer byte. -/
abbrev Byte := BitVec 8

/-- A 4-bit field of byte 0 of a packet (R102). -/
abbrev Nibble := BitVec 4

/-- A 16-bit value: a reader's reply (R111), a sample (R73), the header word (R106). -/
abbrev Half := BitVec 16

/-- A 32-bit diagnostic register (R42). Its addition wraps modulo 2^32 (R15). -/
abbrev Word32 := BitVec 32

/-- `{hi, lo}` (R12): the first byte in the more significant position. -/
abbrev Half.ofBytes (hi lo : Byte) : Half := hi ++ lo

end Sys2Proof
end

