-- ==== Sys2Proof/Config.lean ====
section
/-! DEFINITION. The configuration parameters of 00_scope.md R9, well-formedness (R10), the reference values, the derived quantities, and the one free value of the model. -/

namespace Sys2Proof

/-- Which 4 bits of byte 0 are the status field: bits 7:4 or bits 3:0 (R9, R102; OPEN, D3). -/
inductive NibblePos where
  | high
  | low
  deriving DecidableEq, Repr

/-- How the two bytes of a sample form its 16-bit value (R9, R73; OPEN, D4). -/
inductive SampleByteOrder where
  | big
  | little
  deriving DecidableEq, Repr

/-- The parameters of R9, fixed when the block is built (R11). `fbInit` is the power-up draw `FB_INIT`:
the byte at index `a` is `FB_INIT[a]`, and 0x00 past the end of the list, so that every drawing of
FB_SIZE bytes is such a list. -/
structure Config where
  p : Nat
  hdrLen : Nat
  rows : Nat
  cols : Nat
  sampleBytes : Nat
  discardValue : Nat
  nibblePos : NibblePos
  sampleByteOrder : SampleByteOrder
  hasDiag : Bool
  nReaders : Nat
  fbInit : List Byte
  deriving DecidableEq, Repr

namespace Config

/-- R10: the clauses of a well-formed configuration, in the spec's order. -/
abbrev wf (c : Config) : Prop :=
  c.p = c.hdrLen + c.cols * c.sampleBytes ∧ 2 ≤ c.hdrLen ∧ c.sampleBytes = 2 ∧
    (1 ≤ c.rows ∧ c.rows ≤ 256) ∧ 1 ≤ c.cols ∧ c.discardValue ≤ 15

/-- ROW_BYTES (R9). -/
def rowBytes (c : Config) : Nat := c.cols * c.sampleBytes

/-- FB_SIZE (R9). -/
def fbSize (c : Config) : Nat := c.rows * c.cols * c.sampleBytes

/-- The least `k` with `n ≤ 2 ^ k`. -/
def ceilLog2 (n : Nat) : Nat := if n ≤ 1 then 0 else Nat.log2 (n - 1) + 1

/-- FB_ADDR_W = ceil(log2(FB_SIZE)) (R9). -/
def fbAddrW (c : Config) : Nat := ceilLog2 c.fbSize

/-- The reference values of R9. DESIGN CHOICE (log entry 2, unsafe): the OPEN parameters are set to
NIBBLE_POS = HIGH (the spec's default reading), SAMPLE_BYTE_ORDER = BIG and N_READERS = 1; FB_INIT is
all 0x00 (log entry 3). Statements hold for every configuration, not for this one. -/
def reference : Config where
  p := 164
  hdrLen := 4
  rows := 60
  cols := 80
  sampleBytes := 2
  discardValue := 15
  nibblePos := .high
  sampleByteOrder := .big
  hasDiag := false
  nReaders := 1
  fbInit := []

/-- FREE VALUE (log entry 5): the outcome of the n-th free draw of a run. It has no body, so no proof
can know it: a reader's byte is some member of SEEN[a] and nothing says which (R79). -/
opaque freeDraw : Nat → Nat

end Config
end Sys2Proof
end

