-- ==== Sys2Proof/Syntax.lean ====
section
/-! DEFINITION. The command language of PCFR: the raw port values of a command (30_encoding.md R100, R124), and the decoded instruction, one constructor for each row of opcode_table.json. -/

namespace Sys2Proof

/-- What arrives at a port (R100, R124). The port itself is the constructor: "A decoder tells a command's
kind by the port it arrives on, not by its bits" (R120). -/
inductive Command where
  /-- F_PKT: the packet bytes `pkt[0] .. pkt[P-1]` in order (R101). -/
  | pkt (bytes : List Byte)
  /-- F_FLUSH: one flush request (R110). -/
  | flush
  /-- F_RD: reader port `agent`, an FB byte address, and `size` (false = 0 = RD8, true = 1 = RD16) (R111). -/
  | rd (agent addr : Nat) (size : Bool)
  /-- F_DIAG: one value of `diag_idx` (R112). -/
  | diag (idx : BitVec 3)
  /-- F_FATAL: one strobe with `cause` (R113). -/
  | fatal (cause : BitVec 2)
  deriving DecidableEq, Repr

/-- A packet pulled apart into its fields (R101 to R105). Where `status` stands in byte 0 depends on
NIBBLE_POS and is the decoder's and the encoder's concern alone. -/
structure Packet where
  /-- the status field `s` (R102) -/
  status : Nibble
  /-- the four ignored bits of byte 0 (R103) -/
  spare : Nibble
  /-- the row index `r`, byte 1 (R104) -/
  row : Byte
  /-- header bytes `pkt[2] .. pkt[HDR_LEN-1]`, ignored (R103) -/
  hdr : List Byte
  /-- `pkt[HDR_LEN .. P-1]` (R105) -/
  payload : List Byte
  deriving DecidableEq, Repr

/-- The packet classes of R107. -/
inductive PktClass where
  | discard
  | oor
  | last
  | row
  deriving DecidableEq, Repr

/-- The instructions: one constructor for each row of opcode_table.json. -/
inductive Instr where
  /-- PKT.DISCARD (R170) -/
  | pktDiscard (p : Packet)
  /-- PKT.OOR (R173) -/
  | pktOor (p : Packet)
  /-- PKT.LAST (R172) -/
  | pktLast (p : Packet)
  /-- PKT.ROW (R171) -/
  | pktRow (p : Packet)
  /-- FLUSH (R220) -/
  | flush
  /-- RD8 by reader `agent` (R221) -/
  | rd8 (agent addr : Nat)
  /-- RD16 by reader `agent` (R222) -/
  | rd16 (agent addr : Nat)
  /-- DIAGRD (R223) -/
  | diagrd (idx : BitVec 3)
  /-- FATAL (R242) -/
  | fatal (cause : BitVec 2)
  deriving DecidableEq, Repr

end Sys2Proof
end

