-- ==== Sys2Proof/WellFormed.lean ====
section
/-! DEFINITION. Which terms of the language are instructions a port can carry, under a configuration: the operand widths of 30_encoding.md and the class conditions of R107, stated for each class on its own (41_reassembler.md R170 to R173), not in decode order. -/

namespace Sys2Proof

/-- The field lengths of a packet of P bytes with an HDR_LEN-byte header (R101, R105). -/
def Packet.lengthOk (c : Config) (p : Packet) : Bool :=
  p.hdr.length + 2 == c.hdrLen && p.payload.length + c.hdrLen == c.p

/-- The status field marks a discard (R132). -/
def Packet.isDiscard (c : Config) (p : Packet) : Bool := p.status.toNat == c.discardValue

/-- Well-formed instructions. PKT classes: R170 to R173. Reads: the reader exists (R254) and the address
has FB_ADDR_W bits (R111). FATAL: cause 0 is reserved (R113). FLUSH and DIAGRD have no ill-formed operand. -/
def Instr.wf (c : Config) : Instr → Bool
  | .pktDiscard p => p.lengthOk c && p.isDiscard c
  | .pktOor p => p.lengthOk c && !p.isDiscard c && decide (c.rows ≤ p.row.toNat)
  | .pktLast p => p.lengthOk c && !p.isDiscard c && p.row.toNat + 1 == c.rows
  | .pktRow p => p.lengthOk c && !p.isDiscard c && decide (p.row.toNat + 1 < c.rows)
  | .flush => true
  | .rd8 agent addr => decide (agent < c.nReaders) && decide (addr < 2 ^ c.fbAddrW)
  | .rd16 agent addr => decide (agent < c.nReaders) && decide (addr < 2 ^ c.fbAddrW)
  | .diagrd _ => true
  | .fatal cause => cause != 0#2

end Sys2Proof
end

