-- ==== Sys2Proof/Decode.lean ====
section
/-! DEFINITION. The fixed-format packet decoder (40_classifier.md R130, R136; 30_encoding.md R101 to R113), total on every port value and rejecting by name; then the encoder written from the same tables (R124); then the host's numbering of opcode-table words. -/

namespace Sys2Proof

/-! ### Fields of byte 0 -/

/-- R102: `s = if NIBBLE_POS = HIGH then pkt[0][7:4] else pkt[0][3:0]`. -/
def statusField (c : Config) (b0 : Byte) : Nibble :=
  match c.nibblePos with
  | .high => b0.extractLsb' 4 4
  | .low => b0.extractLsb' 0 4

/-- R103: the four bits of `pkt[0]` that are not the status field. -/
def spareField (c : Config) (b0 : Byte) : Nibble :=
  match c.nibblePos with
  | .high => b0.extractLsb' 0 4
  | .low => b0.extractLsb' 4 4

/-- Byte 0 with the status field where NIBBLE_POS says it is (R102, R103). -/
def byteZero (c : Config) (status spare : Nibble) : Byte :=
  match c.nibblePos with
  | .high => status ++ spare
  | .low => spare ++ status

/-! ### The classification function on packet bytes -/

/-- The verdict of the classifier (R130). -/
inductive Classification where
  | discard
  | valid (row : Byte) (payload : List Byte)
  deriving DecidableEq, Repr

/-- `pkt[i]` (R13). Every use below is inside a packet of P bytes. -/
def pktByte (bytes : List Byte) (i : Nat) : Byte := bytes.getD i 0#8

/-- R130: the status test comes first, then the row index is byte 1 and the payload the ROW_BYTES bytes
after the header. -/
def classify (c : Config) (bytes : List Byte) : Classification :=
  if (statusField c (pktByte bytes 0)).toNat = c.discardValue then .discard
  else .valid (pktByte bytes 1) ((bytes.drop c.hdrLen).take (2 * c.cols))

/-- R161: the row-index validator. -/
def inRange (c : Config) (r : Byte) : Bool := decide (r.toNat < c.rows)

/-- R136: the class of a packet, from its classification. -/
def pktClass (c : Config) (bytes : List Byte) : PktClass :=
  match classify c bytes with
  | .discard => .discard
  | .valid r _ =>
    if inRange c r = false then .oor
    else if r.toNat + 1 = c.rows then .last
    else .row

/-- R106: the header word `{pkt[0], pkt[1]}` of the opcode table, a notation. -/
def headerWord (bytes : List Byte) : Half := Half.ofBytes (pktByte bytes 0) (pktByte bytes 1)

/-- A row of opcode_table.json that has a match and a mask over the header word. -/
structure TableRow where
  cls : PktClass
  value : Half
  mask : Half
  deriving DecidableEq, Repr

/-- The rows with a match and a mask, for the reference values: PKT.DISCARD at both nibble positions
(`alt_nibble_low`) and PKT.LAST. -/
def tableRows : NibblePos → List TableRow
  | .high => [⟨.discard, 0xF000#16, 0xF000#16⟩, ⟨.last, 0x003B#16, 0x00FF#16⟩]
  | .low => [⟨.discard, 0x0F00#16, 0x0F00#16⟩, ⟨.last, 0x003B#16, 0x00FF#16⟩]

/-- A header word matches a row. -/
def TableRow.hits (t : TableRow) (hw : Half) : Bool := hw &&& t.mask == t.value

/-! ### The decoder -/

/-- Why a port value is no instruction. -/
inductive DecodeError where
  /-- a packet of a length other than P (R120): the spec refuses it, BadLength -/
  | badLength
  /-- FATAL with cause 0 (R113): the spec refuses it, ReservedCause -/
  | reservedCause
  /-- a read by a reader number not below N_READERS (R254): no port carries it -/
  | noSuchReader
  /-- a read address of more than FB_ADDR_W bits (R111): no port carries it -/
  | addrTooWide
  deriving DecidableEq, Repr

/-- R101 to R105: the fields of a packet. -/
def parsePacket (c : Config) : List Byte → Option Packet
  | b0 :: b1 :: rest =>
    some { status := statusField c b0, spare := spareField c b0, row := b1,
           hdr := rest.take (c.hdrLen - 2), payload := rest.drop (c.hdrLen - 2) }
  | _ => none

/-- R107: the class of a packet, its conditions tested in the table's order. -/
def Packet.cls (c : Config) (p : Packet) : PktClass :=
  if p.status.toNat = c.discardValue then .discard
  else if c.rows ≤ p.row.toNat then .oor
  else if p.row.toNat = c.rows - 1 then .last
  else .row

/-- The instruction of a class. -/
def Instr.ofClass (p : Packet) : PktClass → Instr
  | .discard => .pktDiscard p
  | .oor => .pktOor p
  | .last => .pktLast p
  | .row => .pktRow p

/-- The packet port: every sequence of P bytes is a packet of exactly one class (R108); another length
is refused (R120). -/
def decodePacket (c : Config) (bytes : List Byte) : Except DecodeError Instr :=
  if bytes.length = c.p then
    match parsePacket c bytes with
    | some p => .ok (Instr.ofClass p (p.cls c))
    | none => .error .badLength
  else .error .badLength

/-- A reader port (R111, R254). -/
def decodeRead (c : Config) (agent addr : Nat) (size : Bool) : Except DecodeError Instr :=
  if c.nReaders ≤ agent then .error .noSuchReader
  else if 2 ^ c.fbAddrW ≤ addr then .error .addrTooWide
  else .ok (if size then .rd16 agent addr else .rd8 agent addr)

/-- The decoder, by port (R100). -/
def decode (c : Config) : Command → Except DecodeError Instr
  | .pkt bytes => decodePacket c bytes
  | .flush => .ok .flush
  | .rd agent addr size => decodeRead c agent addr size
  | .diag idx => .ok (.diagrd idx)
  | .fatal cause => if cause = 0#2 then .error .reservedCause else .ok (.fatal cause)

/-! ### The encoder -/

/-- R124: the packet's bytes in order `pkt[0] .. pkt[P-1]`. -/
def Packet.bytes (c : Config) (p : Packet) : List Byte :=
  byteZero c p.status p.spare :: p.row :: (p.hdr ++ p.payload)

/-- R124: the encoding of an instruction as port values. -/
def encode (c : Config) : Instr → Command
  | .pktDiscard p => .pkt (p.bytes c)
  | .pktOor p => .pkt (p.bytes c)
  | .pktLast p => .pkt (p.bytes c)
  | .pktRow p => .pkt (p.bytes c)
  | .flush => .flush
  | .rd8 agent addr => .rd agent addr false
  | .rd16 agent addr => .rd agent addr true
  | .diagrd idx => .diag idx
  | .fatal cause => .fatal cause

/-! ### Words as opcode_table.json numbers them -/

/-- Byte `i` of a packet whose bits are `w` in the table's numbering: the first 16-bit word is the header
word of R106, `pkt[0]` in its bits 15:8 and `pkt[1]` in its bits 7:0, and the words that follow count on
from bit 16 in the same way. -/
def tableByte (w i : Nat) : Byte :=
  BitVec.ofNat 8 (w >>> (16 * (i / 2) + if i % 2 = 0 then 8 else 0))

/-- The P bytes of a packet whose low `nbits` bits are `w`'s and whose other bits are 0. -/
def tableBytes (c : Config) (nbits w : Nat) : List Byte :=
  (List.range c.p).map (tableByte (w % 2 ^ nbits))

/-- The instruction the decoder reads from a table word, for the reference values. Only the packet rows
of opcode_table.json have bits, a 16-bit header word (log entry 9): a word shorter than that is no
packet, and a command of another port has no binary encoding (R124). -/
def decodeTableWord (nbits w : Nat) : Option Instr :=
  if nbits < 16 then none
  else
    match decode .reference (.pkt (tableBytes .reference nbits w)) with
    | .ok i => some i
    | .error _ => none

end Sys2Proof
end

