-- ==== Sys2Proof/Machine/State.lean ====
section
/-! DEFINITION. The state of the modelled system (10_state.md R32, with the ports and cycle-level registers of R50, R51 and 30_encoding.md R114 and the host's control state of 42_capture_loop_host.md R201 and R206), the inputs of the environment, the ways a step can stop, and the state after reset. -/

namespace Sys2Proof.Machine

/-- Why a step stops without a next state. Both are safe: no further behaviour is claimed. -/
inductive Fault where
  /-- Raised by PKT and FLUSH while FATAL = 1: "stuck", no step is enabled (R16, R160, R220, R243). Safe: the
  environment may take any other step in the same state instead, and the input lists that do so are states too. -/
  | stuckFatal
  /-- Raised by `step` for a transaction-level PKT, FLUSH, FATAL or reset-during-packet input while a cycle-level
  packet step or FLUSH is in progress: the command is accepted only at its end (R115, R117, R207, R246). Safe: as above. -/
  | busy
  /-- Raised by `step` for a setup failure once the setup is over (`hostUp`): setup errors happen before the host
  enters AWAITING_ROWS, and with them no packet is ever presented (R206). Safe: as above. -/
  | setupOver
  deriving DecidableEq, Repr

/-- Why an input has no meaning. The refusals of R257 are not here: they set the mark REFUSED and go on (log entry 6). -/
inductive Refusal where
  /-- An instruction that has no meaning in this model yet, by its mnemonic. No arm raises it. -/
  | notModelled (mnemonic : String)
  /-- Raised by RD8 and RD16 of a reader number not below N_READERS (R254: readers are 0 .. N_READERS-1), and by
  `step` for such a command: no such port exists. Safe: no machine can receive it. -/
  | noSuchReader
  /-- Raised by `step` for a read address of more than FB_ADDR_W bits (R111): the port cannot carry it. Safe. -/
  | addrTooWide
  /-- Raised by a PKT meaning given a packet of another class, a term that `Instr.wf` rejects and the decoder never
  gives (R107). Safe: no step raises it. -/
  | wrongClass
  deriving DecidableEq, Repr

/-- The response of a packet step (R36). `kind`: false = 0 = DISCARD, true = 1 = VALID. -/
structure Resp where
  kind : Bool
  row : Byte
  wrote : Bool
  done : Bool
  allRows : Bool
  deriving DecidableEq, Repr

/-- The events of the history (R37). -/
inductive Event where
  | resp (r : Resp)
  | flushDone
  | read (agent addr : Nat) (v : Byte)
  | diagRead (idx : BitVec 3) (v : Word32)
  | fatal (cause : BitVec 2)
  | reset
  deriving DecidableEq, Repr

/-- The diagnostic state (R40, R41): six 32-bit counters that wrap, and ROWS bits, bit `r` at index `r`. -/
structure Diag where
  pktCnt : Word32
  discardCnt : Word32
  oorCnt : Word32
  rowWrCnt : Word32
  frameCnt : Word32
  incompleteCnt : Word32
  rowsSeen : List Bool
  deriving DecidableEq, Repr

/-- DIAG after reset: every counter 0, every bit of ROWS_SEEN 0 (R50). -/
def Diag.zero (rows : Nat) : Diag := ⟨0, 0, 0, 0, 0, 0, List.replicate rows false⟩

/-- The reply registers of one reader port (R111): `rdJ_err`, `rdJ_data`. -/
structure RdReply where
  err : Bool
  data : Half
  deriving DecidableEq, Repr

/-- A request on a reader port (R111, R118). -/
structure RdReq where
  agent : Nat
  addr : Nat
  size : Bool
  deriving DecidableEq, Repr

/-- What the packet and flush side of the cycle-level block is doing (R51, R115, R117). -/
inductive Phase where
  | idle
  | packet (bytes : List Byte)
  | flush
  deriving DecidableEq, Repr

/-- The cycle-level registers (R51): the step in progress, the pending-flush indication, the fatal strobes
held during it (R119), the reader-port request registers, and the one-cycle pulses of R114. -/
structure Cycle where
  phase : Phase
  flushPend : Bool
  fatalPend : List (BitVec 2)
  rdPend : List RdReq
  rspValid : Bool
  flushAck : Bool
  rdAck : List Nat
  deriving DecidableEq, Repr

/-- Every cycle-level register at its idle value (R51). -/
def Cycle.reset : Cycle := ⟨.idle, false, [], [], false, false, []⟩

/-- The host's control states (R201). -/
inductive HostCtl where
  | awaitingRows
  | frameComplete
  | aborted
  deriving DecidableEq, Repr

/-- What one transfer yields (R202, R204). -/
inductive Transfer where
  | bytes (b : List Byte)
  | error
  deriving DecidableEq, Repr

/-- The setup failures of R206. -/
inductive SetupFailure where
  | bus
  | sink
  deriving DecidableEq, Repr

/-- Host-side events that coincide, at transaction level (R248). -/
structure Together where
  rst : Bool
  fatal : Option (BitVec 2)
  pkt : Option (List Byte)
  flush : Bool
  deriving DecidableEq, Repr

/-- One rising clock edge: the input ports as sampled (R114), and what the implementation leaves open, how far
the step in progress gets in the cycle that ends with this edge (log entry 13): `mask` marks the row bytes of the packet
in progress written in it (R273, R280), `finish` whether the packet step or FLUSH completes, `serve` the reader ports
that acknowledge, in the order in which they are answered (R248: the order of different agents is free; R282: any
latency of at least one cycle). -/
structure Edge where
  rst : Bool
  pkt : Option (List Byte)
  flushReq : Bool
  fatalReq : Option (BitVec 2)
  rd : List RdReq
  diag : Option (BitVec 3)
  mask : List Bool
  finish : Bool
  serve : List Nat
  deriving DecidableEq, Repr

/-- What the environment does next. -/
inductive Input where
  /-- an agent presents a command and PCFR steps (R7); no duty of the host is assumed (R208) -/
  | cmd (c : Command)
  /-- `step_reset` (R271) -/
  | reset
  /-- `step_reset_during_pkt(pkt, mask)` (R273) -/
  | resetDuringPkt (bytes : List Byte) (mask : List Bool)
  /-- the host makes the next move of its loop (R202, R203); `t` is what its transfer yields -/
  | host (t : Transfer)
  /-- the host finds a setup failure (R206) -/
  | hostSetup (f : SetupFailure)
  /-- the host pauses (R210) -/
  | pause
  /-- host-side events presented together (R248) -/
  | together (t : Together)
  /-- one rising edge of `clk` (R114 to R119) -/
  | clk (e : Edge)
  deriving DecidableEq, Repr

/-- The state. `diagIdx` is the value on the `diag_idx` port (R114): the one presented last. `hostUp` says that the
host's setup is over: a packet was presented or the host entered its loop (R206). `fb` is FB; `stale` holds the pairs `(a, v)` with `v ∈ SEEN[a]` and `v ≠ FB[a]`, so that
`SEEN[a]` is FB[a] together with the values listed at `a` (R34, log entry 4). -/
structure State where
  cfg : Config
  fb : List Host.Cell
  stale : List (Nat × Byte)
  fatal : Bool
  cause : BitVec 2
  diag : Diag
  refused : Bool
  hist : List Event
  rsp : Resp
  rdOut : List RdReply
  diagIdx : BitVec 3
  cyc : Cycle
  host : HostCtl
  hostUp : Bool
  inputs : List Input
  draws : Nat
  deriving DecidableEq, Repr

/-- The response outputs after reset (R50): all 0. -/
def Resp.zero : Resp := ⟨false, 0, false, false, false⟩

/-- The machine right after reset: the power-up state of R274 for the reference configuration, followed by one
reset (R50: `Reset` appended to HIST). FB holds `Config.reference.fbInit`, all 0x00 (log entry 3), so nothing is
listed; the reply registers, the draw counter and the `diag_idx` port are 0 (log entries 10, 5 and 28); the host's setup
is not over (R206); nothing is presented (log entry 8). -/
def State.reset : State where
  cfg := .reference
  fb := []
  stale := []
  fatal := false
  cause := 0
  diag := Diag.zero Config.reference.rows
  refused := false
  hist := [.reset]
  rsp := .zero
  rdOut := List.replicate Config.reference.nReaders ⟨false, 0⟩
  diagIdx := 0
  cyc := .reset
  host := .awaitingRows
  hostUp := false
  inputs := []
  draws := 0

end Sys2Proof.Machine
end

