-- ==== Sys2Proof/Machine/Ops.lean ====
section
/-! DEFINITION. The shared operations of the meanings: the frame buffer and the SEEN sets, free draws, events, refusals, entering the fatal state and leaving it by reset, and power-up. -/

namespace Sys2Proof.Machine

/-- One outcome after another: the second step runs only where the first gives a next state. -/
def andThen (o : Host.Outcome State Fault Refusal) (k : State → Host.Outcome State Fault Refusal) :
    Host.Outcome State Fault Refusal :=
  match o with
  | .next s => k s
  | .fault r => .fault r
  | .refused r => .refused r

/-! ### Frame-buffer memory: a sorted list of cells, an unlisted address reads as 0x00 -/

/-- Frame-buffer contents. -/
abbrev Mem := List Host.Cell

namespace Mem

/-- `FB[a]`. An unlisted address reads as 0x00. -/
def read : Mem → Nat → Byte
  | [], _ => 0#8
  | (k, v) :: m, a => if k = a then v else read m a

/-- `MemRead` of the current contents: the `n` bytes from `a`. -/
def readBytes (m : Mem) (a : Nat) : Nat → List Byte
  | 0 => []
  | n + 1 => m.read a :: readBytes m (a + 1) n

/-- The cells of the bytes `bs` from address `a` on, zero bytes left out. -/
def cells (a : Nat) : List Byte → Mem
  | [] => []
  | b :: bs => if b = 0#8 then cells (a + 1) bs else (a, b) :: cells (a + 1) bs

/-- `MemWrite(a, n, bs)` on FB (R14, R164): the cells outside `a .. a+n-1` stay, the bytes go in verbatim. -/
def write (m : Mem) (a : Nat) (bs : List Byte) : Mem :=
  m.filter (fun c => c.1 < a) ++ cells a bs ++ m.filter (fun c => a + bs.length ≤ c.1)

/-- The canonical form: addresses strictly rising and below `size`, no cell holding 0x00. -/
abbrev wf (size : Nat) (m : Mem) : Prop :=
  m.Pairwise (fun c d => c.1 < d.1) ∧ ∀ c ∈ m, c.1 < size ∧ c.2 ≠ 0#8

end Mem

/-! ### The SEEN sets -/

/-- The pairs `(a, v)` with `v ∈ SEEN[a]`, `v ≠ FB[a]`. -/
abbrev Stale := List (Nat × Byte)

/-- Set insertion into a strictly rising list of bytes. -/
def insertByte (v : Byte) : List Byte → List Byte
  | [] => [v]
  | w :: l => if v.toNat < w.toNat then v :: w :: l else if v = w then w :: l else w :: insertByte v l

namespace Stale

/-- The values listed at `a`. -/
def valuesAt (st : Stale) (a : Nat) : List Byte := (st.filter (fun e => e.1 = a)).map (fun e => e.2)

/-- `SEEN[a]` as a strictly rising list: the current byte and the values listed at `a` (R34). -/
def seen (fb : Mem) (st : Stale) (a : Nat) : List Byte := insertByte (fb.read a) (st.valuesAt a)

/-- The pairs at `a, a+1, …` after the bytes `bs` are written there: `SEEN[b] ∪ {v}` without the new
current byte `v` (R78). -/
def cells (fb : Mem) (st : Stale) (a : Nat) : List Byte → Stale
  | [] => []
  | v :: bs => ((seen fb st a).filter (fun w => w ≠ v)).map (fun w => (a, w)) ++ cells fb st (a + 1) bs

/-- The effect on SEEN of writing `bs` at `a` over the contents `fb` (R78). The parts of `fb` and `st`
inside the written range are cut out first, for speed; nothing outside it is read. -/
def write (fb : Mem) (st : Stale) (a : Nat) (bs : List Byte) : Stale :=
  st.filter (fun e => e.1 < a) ++
    cells (fb.filter (fun c => a ≤ c.1 && decide (c.1 < a + bs.length)))
      (st.filter (fun e => a ≤ e.1 && decide (e.1 < a + bs.length))) a bs ++
    st.filter (fun e => a + bs.length ≤ e.1)

/-- The order of the canonical form: by address, then by value. -/
abbrev before (e f : Nat × Byte) : Prop := e.1 < f.1 ∨ e.1 = f.1 ∧ e.2.toNat < f.2.toNat

/-- The canonical form: strictly rising, addresses below `size`, no pair naming the current byte. -/
abbrev wf (size : Nat) (fb : Mem) (st : Stale) : Prop :=
  st.Pairwise before ∧ ∀ e ∈ st, e.1 < size ∧ e.2 ≠ fb.read e.1

end Stale

namespace State

/-- `FB[a]`. -/
def fbAt (s : State) (a : Nat) : Byte := Mem.read s.fb a

/-- `SEEN[a]` (R34), as a strictly rising list. -/
def seenAt (s : State) (a : Nat) : List Byte := Stale.seen s.fb s.stale a

/-- `MemWrite(a, n, bs)` (R14) with its visibility effect (R78): for every i, `FB[a+i] <- bs[i]` and
`SEEN[a+i] <- SEEN[a+i] ∪ {bs[i]}`. -/
def memWrite (a : Nat) (bs : List Byte) (s : State) : State :=
  { s with fb := Mem.write s.fb a bs, stale := Stale.write s.fb s.stale a bs }

/-- R220: `SEEN[a] <- {FB[a]}` for every a. -/
def clearSeen (s : State) : State := { s with stale := [] }

/-- `emit e` (R37). -/
def emit (e : Event) (s : State) : State := { s with hist := s.hist ++ [e] }

/-- `refuse(reason)` (R16, R49, R257): the mark is set and nothing else changes. -/
def refuse (s : State) : State := { s with refused := true }

/-! ### Free draws -/

/-- Some member of a list, chosen by the n-th free draw (0x00 of an empty list, which no SEEN set is). -/
def pick (n : Nat) : List Byte → Byte
  | [] => 0#8
  | [v] => v
  | v :: w :: l => (v :: w :: l).getD (Config.freeDraw n % (l.length + 2)) v

/-- The byte a reader is given at `a`: `choose v in SEEN[a]` (R79). -/
def drawAt (s : State) (a : Nat) : Byte := pick s.draws (s.seenAt a)

/-- The rest of a reader's read of one byte: the event, and the draw used up (R79). -/
def recordRead (agent a : Nat) (v : Byte) (s : State) : State :=
  emit (.read agent a v) { s with draws := s.draws + 1 }

/-- The reply on reader port `agent` (R111). -/
def reply (agent : Nat) (r : RdReply) (s : State) : State := { s with rdOut := s.rdOut.set agent r }

/-! ### Responses and counters -/

/-- `emit Resp{...}`, which also drives the held response outputs (R36, R116). -/
def respond (r : Resp) (s : State) : State := emit (.resp r) { s with rsp := r }

/-- An update of DIAG, made only when HAS_DIAG = true (R39, R174). -/
def count (f : Diag → Diag) (s : State) : State := if s.cfg.hasDiag then { s with diag := f s.diag } else s

/-! ### Entering the fatal state, and the only way out of it -/

/-- `raise Fatal(cause)` for a cause of 1 to 3 (R242): FATAL and CAUSE are set unless already FATAL, so the
first cause is kept (R245); the event is recorded either way. No mode, vector or saved state exists (R249). -/
def raiseFatal (cause : BitVec 2) (s : State) : State :=
  emit (.fatal cause) (if s.fatal then s else { s with fatal := true, cause := cause })

/-- `step_reset` (R271): FATAL, CAUSE and DIAG are cleared, the response outputs and the cycle-level registers go
to their reset values (R50, R51, R225); FB, SEEN and REFUSED are unchanged (R272). The reply registers are left as
they are (log entry 10). -/
def stepReset (s : State) : State :=
  emit .reset
    { s with fatal := false, cause := 0, diag := if s.cfg.hasDiag then Diag.zero s.cfg.rows else s.diag,
             rsp := .zero, cyc := .reset }

/-! ### A row partly written -/

/-- Old and new bytes, the new one where the mask has a bit; a mask that ends early leaves the old ones. -/
def mixBytes : List Byte → List Byte → List Bool → List Byte
  | o :: os, n :: ns, m :: ms => (if m then n else o) :: mixBytes os ns ms
  | os, _, _ => os

/-- The row bytes of a packet that the mask marks are written, and no other (R273): "SEEN[a] gains the new value
whenever FB[a] took it". A byte written with the value it holds changes neither FB nor SEEN. -/
def partialRow (bytes : List Byte) (mask : List Bool) (s : State) : State :=
  match classify s.cfg bytes with
  | .discard => s
  | .valid r payload =>
    if inRange s.cfg r then
      memWrite (r.toNat * s.cfg.rowBytes)
        (mixBytes (Mem.readBytes s.fb (r.toNat * s.cfg.rowBytes) payload.length) payload mask) s
    else s

/-- R274: the first state of a run, `FB = FB_INIT` and `SEEN[a] = {FB_INIT[a]}`, everything else at its reset
value, HIST empty. -/
def powerUp (c : Config) : State where
  cfg := c
  fb := Mem.cells 0 (c.fbInit.take c.fbSize)
  stale := []
  fatal := false
  cause := 0
  diag := Diag.zero c.rows
  refused := false
  hist := []
  rsp := .zero
  rdOut := List.replicate c.nReaders ⟨false, 0⟩
  diagIdx := 0
  cyc := .reset
  host := .awaitingRows
  hostUp := false
  inputs := []
  draws := 0

end State
end Sys2Proof.Machine
end

