-- ==== Sys2Proof/Machine/Operands.lean ====
section
/-! DEFINITION. The operand forms: the packet operand and its guards, frame-buffer addresses, and the reader's address forms. -/

namespace Sys2Proof.Machine

/-- The operand of a PKT instruction (R160): a packet of a length other than P is refused, then a packet while
FATAL = 1 is stuck; a packet of another class is no operand of this instruction (R107). -/
def onPacket (cls : PktClass) (p : Packet) (s : State) (k : State → State) : Host.Outcome State Fault Refusal :=
  if p.lengthOk s.cfg = false then .next s.refuse
  else if s.fatal then .fault .stuckFatal
  else if p.cls s.cfg ≠ cls then .refused .wrongClass
  else .next (k s)

/-- R71: the byte address of byte `b` of sample `k` of row `r`. -/
def fbAddr (c : Config) (r k b : Nat) : Nat := (r * c.cols + k) * 2 + b

/-- R163: `row_base(r) = r * ROW_BYTES`. -/
def rowBase (c : Config) (r : Nat) : Nat := r * c.rowBytes

/-- An RD8 address that gets a byte (R221, R226). -/
def rd8Ok (c : Config) (addr : Nat) : Bool := decide (addr < c.fbSize)

/-- An RD16 address that gets two bytes: even, and both in FB (R222, R226). -/
def rd16Ok (c : Config) (addr : Nat) : Bool := addr % 2 == 0 && decide (addr + 1 < c.fbSize)

/-- A reader's request: the port must exist (R254). -/
def onReader (agent : Nat) (s : State) (k : State → State) : Host.Outcome State Fault Refusal :=
  if agent < s.cfg.nReaders then .next (k s) else .refused .noSuchReader

/-- R226: a request that is out of range or misaligned gets `rd_err = 1`, `rd_data = 0`, and nothing else. -/
def rdError : RdReply := ⟨true, 0⟩

/-- R73: the 16-bit value of sample `k` of row `r`. -/
def State.sampleValue (s : State) (r k : Nat) : Half :=
  match s.cfg.sampleByteOrder with
  | .big => Half.ofBytes (s.fbAt (fbAddr s.cfg r k 0)) (s.fbAt (fbAddr s.cfg r k 1))
  | .little => Half.ofBytes (s.fbAt (fbAddr s.cfg r k 1)) (s.fbAt (fbAddr s.cfg r k 0))

/-- R179: the value two packet bytes denote under the same byte order. -/
def samplePair (c : Config) (b0 b1 : Byte) : Half :=
  match c.sampleByteOrder with
  | .big => Half.ofBytes b0 b1
  | .little => Half.ofBytes b1 b0

end Sys2Proof.Machine
end

