-- ==== Sys2Proof/Machine/Flags.lean ====
section
/-! DEFINITION. The flag-like values: the response fields of each packet class (R38, R169), the DIAG updates of each class (R174, R175), the STATUS register, the diagnostic register space (R42 to R45) and the `diag_rdata` port (R114). -/

namespace Sys2Proof.Machine

/-! ### Responses, by class (R169) -/

def Resp.ofDiscard : Resp := ⟨false, 0, false, false, false⟩
def Resp.ofOor (r : Byte) : Resp := ⟨true, r, false, false, false⟩
def Resp.ofRow (r : Byte) : Resp := ⟨true, r, true, false, false⟩
def Resp.ofLast (r : Byte) (all : Bool) : Resp := ⟨true, r, true, true, all⟩

/-! ### DIAG, by class (R174, R175) -/

/-- ROWS_SEEN with bit `r` set (R41). -/
def Diag.see (r : Nat) (d : Diag) : Diag := { d with rowsSeen := d.rowsSeen.set r true }

/-- ROWS_SEEN is all ones (R175). -/
def Diag.full (d : Diag) : Bool := d.rowsSeen.all id

def Diag.countDiscard (d : Diag) : Diag := { d with pktCnt := d.pktCnt + 1, discardCnt := d.discardCnt + 1 }

def Diag.countOor (d : Diag) : Diag := { d with pktCnt := d.pktCnt + 1, oorCnt := d.oorCnt + 1 }

def Diag.countRow (r : Nat) (d : Diag) : Diag :=
  { d.see r with pktCnt := d.pktCnt + 1, rowWrCnt := d.rowWrCnt + 1 }

/-- R172: the last row is marked, the frame counted, an incomplete one too, and ROWS_SEEN cleared. -/
def Diag.countLast (r rows : Nat) (d : Diag) : Diag :=
  { d with pktCnt := d.pktCnt + 1, rowWrCnt := d.rowWrCnt + 1, frameCnt := d.frameCnt + 1,
           incompleteCnt := if (d.see r).full then d.incompleteCnt else d.incompleteCnt + 1,
           rowsSeen := List.replicate rows false }

/-- R175: `all_rows` of a LAST packet with row `r`: HAS_DIAG, and every bit set once bit `r` is. -/
def State.allRows (s : State) (r : Nat) : Bool := s.cfg.hasDiag && (s.diag.see r).full

/-! ### The diagnostic register space (R42) -/

/-- R43: `STATUS = zext_32({DIAG_PRESENT, CAUSE[1:0], FATAL})`. -/
def State.status (s : State) : Word32 :=
  (BitVec.ofBool s.cfg.hasDiag ++ s.cause ++ BitVec.ofBool s.fatal).setWidth 32

/-- R45: the number of set bits of ROWS_SEEN, zero-extended. -/
def Diag.rowsSeenPop (d : Diag) : Word32 := BitVec.ofNat 32 (d.rowsSeen.count true)

/-- R42, R223: the register selected by `idx`. Indices 0 to 6 read 0 when HAS_DIAG = false (R39). -/
def State.diagReg (s : State) (idx : BitVec 3) : Word32 :=
  if idx = 7#3 then s.status
  else if s.cfg.hasDiag = false then 0
  else if idx = 0#3 then s.diag.pktCnt
  else if idx = 1#3 then s.diag.discardCnt
  else if idx = 2#3 then s.diag.oorCnt
  else if idx = 3#3 then s.diag.rowWrCnt
  else if idx = 4#3 then s.diag.frameCnt
  else if idx = 5#3 then s.diag.incompleteCnt
  else s.diag.rowsSeenPop

/-- `diag_rdata` (R114, R119): the register that `diag_idx` selects, as it is in the current cycle, with no handshake.
DESIGN CHOICE (log entry 32, unsafe): in a cycle with `rst = 1`, in which the port is not served (R225), it shows the register too. -/
def State.diagRdata (s : State) : Word32 := s.diagReg s.diagIdx

end Sys2Proof.Machine
end

