-- ==== Sys2Proof/Machine/Fatal.lean ====
section
/-! DEFINITION. The FATAL command (60_exceptions.md R242). -/

namespace Sys2Proof.Machine

/-- FATAL (R242): cause 0 is refused (ReservedCause); otherwise the fatal state is entered. -/
def execFatal (cause : BitVec 2) (s : State) : Host.Outcome State Fault Refusal :=
  if cause = 0#2 then .next s.refuse else .next (s.raiseFatal cause)

end Sys2Proof.Machine
end

