-- ==== Sys2Proof/Machine/Packet.lean ====
section
/-! DEFINITION. The PKT instructions, one meaning for each packet class (41_reassembler.md R170 to R173), and the packet step of R160 as the spec writes it, over the bytes, to which they are to be proved equal. -/

namespace Sys2Proof.Machine

/-- PKT.DISCARD (R170). -/
def execPktDiscard (p : Packet) (s : State) : Host.Outcome State Fault Refusal :=
  onPacket .discard p s fun s => (s.count Diag.countDiscard).respond .ofDiscard

/-- PKT.OOR (R173). -/
def execPktOor (p : Packet) (s : State) : Host.Outcome State Fault Refusal :=
  onPacket .oor p s fun s => (s.count Diag.countOor).respond (.ofOor p.row)

/-- PKT.LAST (R172). `all_rows` is read from ROWS_SEEN before it is cleared. -/
def execPktLast (p : Packet) (s : State) : Host.Outcome State Fault Refusal :=
  onPacket .last p s fun s =>
    ((s.memWrite (rowBase s.cfg p.row.toNat) p.payload).count (Diag.countLast p.row.toNat s.cfg.rows)).respond
      (.ofLast p.row (s.allRows p.row.toNat))

/-- PKT.ROW (R171). -/
def execPktRow (p : Packet) (s : State) : Host.Outcome State Fault Refusal :=
  onPacket .row p s fun s =>
    ((s.count (Diag.countRow p.row.toNat)).memWrite (rowBase s.cfg p.row.toNat) p.payload).respond (.ofRow p.row)

/-- `step_pkt(pkt)`, R160, line by line. -/
def stepPkt (bytes : List Byte) (s : State) : Host.Outcome State Fault Refusal :=
  if bytes.length ≠ s.cfg.p then .next s.refuse
  else if s.fatal then .fault .stuckFatal
  else
    let s := s.count fun d => { d with pktCnt := d.pktCnt + 1 }
    match classify s.cfg bytes with
    | .discard =>
      .next ((s.count fun d => { d with discardCnt := d.discardCnt + 1 }).respond ⟨false, 0, false, false, false⟩)
    | .valid r payload =>
      if inRange s.cfg r then
        let s := s.memWrite (rowBase s.cfg r.toNat) payload
        let done := r.toNat + 1 == s.cfg.rows
        let s := s.count fun d => { d with rowWrCnt := d.rowWrCnt + 1 }
        let s := s.count (Diag.see r.toNat)
        let all := s.cfg.hasDiag && (done && s.diag.full)
        let s := s.count fun d =>
          if done then
            { d with frameCnt := d.frameCnt + 1,
                     incompleteCnt := if all then d.incompleteCnt else d.incompleteCnt + 1,
                     rowsSeen := List.replicate s.cfg.rows false }
          else d
        .next (s.respond ⟨true, r, true, done, all⟩)
      else
        .next ((s.count fun d => { d with oorCnt := d.oorCnt + 1 }).respond ⟨true, r, false, false, false⟩)

end Sys2Proof.Machine
end

