-- ==== Sys2Proof/Machine/Sink.lean ====
section
/-! DEFINITION. The sink ports (43_sink_ports.md): FLUSH, RD8, RD16 and DIAGRD. -/

namespace Sys2Proof.Machine

/-- FLUSH (R220): stuck while FATAL = 1; otherwise every SEEN[a] becomes {FB[a]} and FlushDone is recorded. -/
def execFlush (s : State) : Host.Outcome State Fault Refusal :=
  if s.fatal then .fault .stuckFatal else .next (s.clearSeen.emit .flushDone)

/-- RD8 (R221): one drawn byte, zero-extended. -/
def execRd8 (agent addr : Nat) (s : State) : Host.Outcome State Fault Refusal :=
  onReader agent s fun s =>
    if rd8Ok s.cfg addr then
      (s.recordRead agent addr (s.drawAt addr)).reply agent ⟨false, (s.drawAt addr).setWidth 16⟩
    else s.reply agent rdError

/-- RD16 (R222): two independent draws, `rd_data = {v1, v0}`. -/
def execRd16 (agent addr : Nat) (s : State) : Host.Outcome State Fault Refusal :=
  onReader agent s fun s =>
    if rd16Ok s.cfg addr then
      let v0 := s.drawAt addr
      let s1 := s.recordRead agent addr v0
      let v1 := s1.drawAt (addr + 1)
      (s1.recordRead agent (addr + 1) v1).reply agent ⟨false, Half.ofBytes v1 v0⟩
    else s.reply agent rdError

/-- DIAGRD (R223): every index, in every state, no side effect (R47) but the event. The index is presented on
`diag_idx`, so `diag_rdata` shows the register from then on (R119; `State.diagRdata`). -/
def execDiagrd (idx : BitVec 3) (s : State) : Host.Outcome State Fault Refusal :=
  .next ({ s with diagIdx := idx }.emit (.diagRead idx (s.diagReg idx)))

end Sys2Proof.Machine
end

