-- ==== Sys2Proof/Machine/Dispatch.lean ====
section
/-! DEFINITION. One arm per instruction of opcode_table.json. -/

namespace Sys2Proof.Machine

def exec (i : Instr) (s : State) : Host.Outcome State Fault Refusal :=
  match i with
  | .pktDiscard p => Sys2Proof.Machine.execPktDiscard p s
  | .pktOor p => Sys2Proof.Machine.execPktOor p s
  | .pktLast p => Sys2Proof.Machine.execPktLast p s
  | .pktRow p => Sys2Proof.Machine.execPktRow p s
  | .flush => Sys2Proof.Machine.execFlush s
  | .rd8 agent addr => Sys2Proof.Machine.execRd8 agent addr s
  | .rd16 agent addr => Sys2Proof.Machine.execRd16 agent addr s
  | .diagrd idx => Sys2Proof.Machine.execDiagrd idx s
  | .fatal cause => Sys2Proof.Machine.execFatal cause s

end Sys2Proof.Machine
end

