-- ==== Sys2Proof/Machine/Ports.lean ====
section
/-! DEFINITION. How a command at a port becomes a step: the decoded instruction runs, and a port value that is no instruction is refused (60_exceptions.md R257). -/

namespace Sys2Proof.Machine

/-- A command at its port (R7): one accepted command is one atomic step. BadLength and ReservedCause set
REFUSED (R257); a value no port can carry is refused by name. -/
def runCommand (c : Command) (s : State) : Host.Outcome State Fault Refusal :=
  match decode s.cfg c with
  | .ok i => exec i s
  | .error .badLength => .next s.refuse
  | .error .reservedCause => .next s.refuse
  | .error .noSuchReader => .refused .noSuchReader
  | .error .addrTooWide => .refused .addrTooWide

/-- No packet step and no FLUSH is in progress or pending at cycle level. -/
def Cycle.quiet (y : Cycle) : Bool := y.phase == .idle && !y.flushPend && y.fatalPend.isEmpty

/-- The commands of the host's ports wait for a step in progress; reader and diagnostic ports do not (R115, R117,
R224, R225, R246). -/
def waitsForIdle : Command → Bool
  | .pkt _ => true
  | .flush => true
  | .fatal _ => true
  | .rd _ _ _ => false
  | .diag _ => false

/-- Whether a command is a packet presented at its port. -/
def presentsPkt : Command → Bool
  | .pkt _ => true
  | .flush => false
  | .rd _ _ _ => false
  | .diag _ => false
  | .fatal _ => false

/-- A transaction-level command. -/
def present (c : Command) (s : State) : Host.Outcome State Fault Refusal :=
  if waitsForIdle c && !s.cyc.quiet then .fault .busy else runCommand c s

/-- `pkt_ready` (R115), given `rst` in the same cycle. It is also 0 in the cycle in which a held fatal strobe or a pending FLUSH is taken,
since a packet presented at that edge is not accepted (R248). DESIGN CHOICE (log entry 31, unsafe): a new `fatal_req` in the cycle does not
lower it, although a packet presented at that edge is not accepted either (R248). -/
def State.pktReady (s : State) (rst : Bool) : Bool := s.cyc.quiet && !s.fatal && !rst

end Sys2Proof.Machine
end

