-- ==== Sys2Proof/Machine/Cycle.lean ====
section
/-! DEFINITION. One rising clock edge of the cycle-level block (30_encoding.md R114 to R119, 60_exceptions.md R246 and R248, 70_reset_and_hazards.md R270 and R273). Every change of the transaction-level state is made by a command's meaning, by reset, or by the row bytes a packet in progress has written. -/

namespace Sys2Proof.Machine

namespace State

/-- The cycle-level registers changed. -/
def onCyc (f : Cycle → Cycle) (s : State) : State := { s with cyc := f s.cyc }

/-- The pulses last one cycle (R114). -/
def clearPulses (s : State) : State := s.onCyc fun y => { y with rspValid := false, flushAck := false, rdAck := [] }

end State

/-- R119: an index presented in the cycle that ends with the edge is answered from the registers as they stand before
the edge, and stays on the port. -/
def diagPort (e : Edge) (s : State) : Host.Outcome State Fault Refusal :=
  match e.diag with
  | none => .next s
  | some idx => runCommand (.diag idx) s

/-- A reader's pending request is answered and acknowledged (R118). -/
def serveReader (q : RdReq) (s : State) : Host.Outcome State Fault Refusal :=
  andThen (runCommand (.rd q.agent q.addr q.size) s) fun s =>
    .next (s.onCyc fun y => { y with rdAck := y.rdAck ++ [q.agent] })

/-- Requests answered one after another. -/
def serveReaders : List RdReq → State → Host.Outcome State Fault Refusal
  | [], s => .next s
  | q :: qs, s => andThen (serveReader q s) (serveReaders qs)

/-- Requests latched from the ports: one for each reader, the first one kept until its acknowledge (R118). -/
def latchReaders (pend : List RdReq) : List RdReq → List RdReq
  | [] => pend
  | q :: qs => latchReaders (if pend.any (fun p => p.agent == q.agent) then pend else pend ++ [q]) qs

/-- The pending requests of the readers in `serve`, in that order, each reader's once. -/
def servedNow (pend : List RdReq) (serve : List Nat) : List RdReq :=
  serve.eraseDups.filterMap fun j => pend.find? fun q => q.agent == j

/-- R118: the requests pending before the edge that `serve` names are answered, in the order in which `serve` names the
readers (R248); a request asserted at the edge by a reader with none pending is latched and waits at least one cycle
(R282). DESIGN CHOICE (log entry 29, unsafe): where the spec leaves open when between `rdJ_req` and `rdJ_ack` a byte is drawn
(R79, R80 item 5, R221, R277), it is drawn at the edge that acknowledges. DESIGN CHOICE (log entry 26, unsafe): `rdJ_req` high in
the `rdJ_ack` cycle is a new request, and a latched request is served even if it is withdrawn. -/
def readerPorts (e : Edge) (s : State) : Host.Outcome State Fault Refusal :=
  let old := s.cyc.rdPend
  andThen (serveReaders (servedNow old e.serve) s) fun s =>
    .next (s.onCyc fun y =>
      { y with rdPend := latchReaders (old.filter fun q => !e.serve.contains q.agent)
                 (e.rd.filter fun q => !old.any (fun p => p.agent == q.agent)) })

/-- Fatal strobes taken one after another (R242, R245). -/
def takeFatals : List (BitVec 2) → State → Host.Outcome State Fault Refusal
  | [], s => .next s
  | c :: cs, s => andThen (runCommand (.fatal c) s) (takeFatals cs)

/-- A strobe during a step in progress is held (R119, R246). -/
def holdFatal (e : Edge) (s : State) : State :=
  s.onCyc fun y => { y with fatalPend := y.fatalPend ++ e.fatalReq.toList }

/-- The row bytes of a packet in progress that are written in the cycle that ends with the edge: those that the mask
marks, and all of them where the step completes (R80 item 1, R273). -/
def rowProgress (e : Edge) (s : State) : State :=
  match s.cyc.phase with
  | .idle => s
  | .flush => s
  | .packet bytes => s.partialRow bytes (if e.finish then List.replicate s.cfg.rowBytes true else e.mask)

/-- A packet step in progress (R115, R116), its row bytes of this cycle written: at its end the packet's
meaning runs and the response is pulsed, and a FLUSH that was requested with the packet begins (R117), unless a
fatal strobe is held (R248). DESIGN CHOICE (log entry 33, unsafe): R117 says that such a FLUSH begins after the response; it
begins at the edge that ends the packet step, so a `fatal_req` in the `rsp_valid` cycle waits for `flush_ack`. -/
def packetEdge (bytes : List Byte) (e : Edge) (s : State) : Host.Outcome State Fault Refusal :=
  let s := holdFatal e s
  if e.finish then
    andThen (runCommand (.pkt bytes) (s.onCyc fun y => { y with phase := .idle })) fun s =>
      .next (s.onCyc fun y =>
        { y with rspValid := true,
                 phase := if y.flushPend && y.fatalPend.isEmpty then .flush else y.phase,
                 flushPend := y.flushPend && !y.fatalPend.isEmpty })
  else .next s

/-- A FLUSH in progress (R117): at its end its meaning runs and `flush_ack` is pulsed. -/
def flushEdge (e : Edge) (s : State) : Host.Outcome State Fault Refusal :=
  let s := holdFatal e s
  if e.finish then
    andThen (runCommand .flush (s.onCyc fun y => { y with phase := .idle })) fun s =>
      .next (s.onCyc fun y => { y with flushAck := true })
  else .next s

/-- A packet is accepted (R115), and a FLUSH requested on the same edge is noted (R117). Bytes that are no packet are
refused (R120). -/
def acceptPacket (bytes : List Byte) (e : Edge) (s : State) : Host.Outcome State Fault Refusal :=
  if bytes.length = s.cfg.p then
    .next (s.onCyc fun y => { y with phase := .packet bytes, flushPend := e.flushReq })
  else .next s.refuse

/-- No step in progress, in the priority order of R248: held and new fatal strobes; then, while FATAL = 0, a pending
FLUSH, a packet, a FLUSH request. While FATAL = 1 neither is accepted (R243). DESIGN CHOICE (log entry 30, unsafe):
`flush_req` still high in the `flush_ack` cycle begins another FLUSH, and a FLUSH that has begun, or was noted with a packet, goes on
if `flush_req` is withdrawn. -/
def idleEdge (e : Edge) (s : State) : Host.Outcome State Fault Refusal :=
  let strobes := s.cyc.fatalPend ++ e.fatalReq.toList
  if strobes ≠ [] then
    takeFatals strobes (s.onCyc fun y => { y with fatalPend := [] })
  else if s.fatal then .next s
  else if s.cyc.flushPend then .next (s.onCyc fun y => { y with phase := .flush, flushPend := false })
  else
    match e.pkt with
    | some bytes => acceptPacket bytes e s
    | none => if e.flushReq then .next (s.onCyc fun y => { y with phase := .flush }) else .next s

/-- The packet, flush and fatal ports. -/
def hostPorts (e : Edge) (s : State) : Host.Outcome State Fault Refusal :=
  match s.cyc.phase with
  | .idle => idleEdge e s
  | .packet bytes => packetEdge bytes e s
  | .flush => flushEdge e s

/-- An edge with `rst = 1` (R248, R270): everything on the ports is ignored and pending requests are dropped (R225,
R271). A packet accepted at an earlier edge and not yet answered is cut off: of its row the bytes that the mask marks
are written, no other, and no response is emitted (R273). DESIGN CHOICE (log entry 27, unsafe): each edge with `rst = 1`
is one `step_reset`, so `rst` held for n edges records n Reset events. -/
def resetEdge (e : Edge) (s : State) : State :=
  match s.cyc.phase with
  | .idle => s.stepReset
  | .flush => s.stepReset
  | .packet bytes => (s.partialRow bytes e.mask).stepReset

/-- One rising edge (R114, R248). Within it, in this order (log entry 14): a diagnostic index is answered from the
registers before the edge (R119), the row bytes written in the cycle go into FB and SEEN, the readers are answered (so
a read answered at the edge that writes a byte may be given its old or its new value, R280), and the packet, flush and
fatal ports act. -/
def clockEdge (e : Edge) (s : State) : Host.Outcome State Fault Refusal :=
  if e.rst then .next (resetEdge e s)
  else
    andThen (diagPort e s.clearPulses) fun s =>
    andThen (readerPorts e (rowProgress e s)) fun s =>
    hostPorts e s

end Sys2Proof.Machine
end

