-- ==== Sys2Proof/Machine/Env.lean ====
section
/-! DEFINITION. The environment's inputs (42_capture_loop_host.md, 60_exceptions.md R248, 70_reset_and_hazards.md R270 to R273): what each does to the state. -/

namespace Sys2Proof.Machine

/-- `step_reset_during_pkt(pkt, mask)` (R273): a packet that PCFR would accept, cut off by reset before its response.
Some bytes of its row are written, and the step then behaves as `step_reset`. -/
def resetDuringPkt (bytes : List Byte) (mask : List Bool) (s : State) : Host.Outcome State Fault Refusal :=
  if s.cyc.quiet = false then .fault .busy
  else if bytes.length ≠ s.cfg.p then .next s.refuse
  else if s.fatal then .fault .stuckFatal
  else .next (s.partialRow bytes mask).stepReset

/-- One move of the host's loop. AWAITING_ROWS (R202): a transfer, then PKT and the response's `done`, or FATAL 1 and
ABORTED (R205). FRAME_COMPLETE (R203): FLUSH, the pause, back to AWAITING_ROWS; no transfer is made. ABORTED: nothing
more is presented. A transfer returns exactly P bytes (R204); other bytes are refused. -/
def hostMove (t : Transfer) (s : State) : Host.Outcome State Fault Refusal :=
  match s.host, t with
  | .awaitingRows, .bytes b =>
    if b.length ≠ s.cfg.p then .next s.refuse
    else
      andThen (present (.pkt b) s) fun s' =>
        .next { s' with host := if s'.rsp.done then .frameComplete else .awaitingRows }
  | .awaitingRows, .error => andThen (present (.fatal 1#2) s) fun s' => .next { s' with host := .aborted }
  | .frameComplete, _ => andThen (present .flush s) fun s' => .next { s' with host := .awaitingRows }
  | .aborted, _ => .next s

/-- R206: the cause the host presents. -/
def setupCause : SetupFailure → BitVec 2
  | .bus => 2#2
  | .sink => 3#2

/-- R206: a setup failure, before the host enters AWAITING_ROWS, makes it present FATAL 2 or FATAL 3 and abort. The
setup is over then: no second failure, and in ABORTED no packet. -/
def hostSetupFailure (f : SetupFailure) (s : State) : Host.Outcome State Fault Refusal :=
  if s.hostUp then .fault .setupOver
  else
    andThen (present (.fatal (setupCause f)) s) fun s' =>
      .next { s' with host := .aborted, hostUp := true }

/-- An input in which a packet is presented, or the host moves in its loop: its setup is over (R206, R275). -/
def Input.entersLoop : Input → Bool
  | .cmd c => presentsPkt c
  | .reset => false
  | .resetDuringPkt _ _ => true
  | .host _ => true
  | .hostSetup _ => false
  | .pause => false
  | .together t => t.pkt.isSome
  | .clk e => e.pkt.isSome

/-- The setup is over from such an input on. -/
def State.enterLoop (i : Input) (s : State) : State := { s with hostUp := s.hostUp || i.entersLoop }

/-- R248: the order of the steps when host-side events coincide. With reset everything else is ignored; with a fatal
strobe the packet and the FLUSH are not accepted; a packet goes before a FLUSH. -/
def Together.order (t : Together) : List Input :=
  if t.rst then [.reset]
  else
    match t.fatal with
    | some c => [.cmd (.fatal c)]
    | none => (t.pkt.toList.map fun b => .cmd (.pkt b)) ++ (if t.flush then [.cmd .flush] else [])

/-- The effect of one input. -/
def runInput (i : Input) (s : State) : Host.Outcome State Fault Refusal :=
  match i with
  | .cmd c => present c s
  | .reset => .next s.stepReset
  | .resetDuringPkt bytes mask => resetDuringPkt bytes mask s
  | .host t => hostMove t s
  | .hostSetup f => hostSetupFailure f s
  | .pause => .next s
  | .together t => .next { s with inputs := t.order ++ s.inputs }
  | .clk e => clockEdge e s

/-- The next input is taken from the list and has its effect. With nothing presented PCFR is idle and its state is
unchanged (R256). A configuration that is not well-formed gives no input a meaning: it is refused (R10, R257). -/
def advance (s : State) : Host.Outcome State Fault Refusal :=
  if s.cfg.wf then
    match s.inputs with
    | [] => .next s
    | i :: rest => runInput i (State.enterLoop i { s with inputs := rest })
  else .next { s.refuse with inputs := s.inputs.tail }

/-- The packet whose low `nbits` bits are `w`'s, in opcode_table.json's numbering, presented before every other input,
with no cycle-level step in progress. A word shorter than the header word is no packet (log entry 9). -/
def State.presentTableWord (s : State) (nbits w : Nat) : State :=
  if nbits < 16 then s
  else
    { s with inputs := .cmd (.pkt (tableBytes s.cfg nbits w)) :: s.inputs,
             cyc := { s.cyc with phase := .idle, flushPend := false, fatalPend := [] } }

end Sys2Proof.Machine
end

