-- ==== Sys2Proof/Machine/Step.lean ====
section
/-! DEFINITION. The step function, and where the host places the instruction the next step runs. PCFR has no program counter and fetches nothing (10_state.md R31): the next instruction is the command presented next. -/

namespace Sys2Proof.Machine

/-- One step of the modelled system: the environment's next input. -/
def step (s : State) : Host.Outcome State Fault Refusal := advance s

/-- The state in which the very next step runs the packet command of that table word. -/
def State.withFetchWord (s : State) (nbits w : Nat) : State := s.presentTableWord nbits w

end Sys2Proof.Machine
end

