-- ==== Sys2Proof/Machine/Asm.lean ====
section
/-! DEFINITION. The spec's textual form of command sequences (30_encoding.md R121 to R124): payload specifiers, pseudo-commands and their expansions, the port values a line stands for, and a reader of the text. -/

namespace Sys2Proof.Machine

/-- Payload specifiers (R122). -/
inductive PayloadSpec where
  | zero
  | fill (hhll : Half)
  | ramp (n : Byte)
  | bytes (vs : List Byte)
  deriving DecidableEq, Repr

/-- The lines of a program (R121), pseudo-commands included (R123). -/
inductive AsmCommand where
  | pkt (header : List Byte) (payload : PayloadSpec)
  | flush
  | rd8 (addr : Nat)
  | rd16 (addr : Nat)
  | diagrd (idx : BitVec 3)
  | fatal (cause : BitVec 2)
  | discard
  | row (r : Byte) (payload : PayloadSpec)
  | frame
  deriving DecidableEq, Repr

/-- R122: the payload bytes, `pb(k,0), pb(k,1)` for k = 0 .. COLS-1. -/
def PayloadSpec.expand (c : Config) : PayloadSpec → List Byte
  | .zero => List.replicate (2 * c.cols) 0#8
  | .fill hhll => (List.range c.cols).flatMap fun _ => [hhll.extractLsb' 8 8, hhll.extractLsb' 0 8]
  | .ramp n => (List.range c.cols).flatMap fun k => [n, BitVec.ofNat 8 k]
  | .bytes vs => vs

/-- A packet with these first two bytes, other header bytes 0x00 (R123). -/
def plainPacket (c : Config) (b0 b1 : Byte) (payload : PayloadSpec) : List Byte :=
  b0 :: b1 :: List.replicate (c.hdrLen - 2) 0#8 ++ payload.expand c

/-- R123: `ROW r : payload` has status 0 under both readings of NIBBLE_POS. -/
def rowPacket (c : Config) (r : Byte) (payload : PayloadSpec) : List Byte := plainPacket c 0#8 r payload

/-- R123: `DISCARD` carries the discard value in both nibbles of byte 0. -/
def discardPacket (c : Config) : List Byte :=
  plainPacket c (BitVec.ofNat 4 c.discardValue ++ BitVec.ofNat 4 c.discardValue) 0#8 .zero

/-- R123, R124: the port values of one line. The text names no reader: `agent` is the one that issues RD8 and RD16
(log entry 22). -/
def AsmCommand.expand (c : Config) (agent : Nat) : AsmCommand → List Command
  | .pkt header payload => [.pkt (header ++ payload.expand c)]
  | .flush => [.flush]
  | .rd8 addr => [.rd agent addr false]
  | .rd16 addr => [.rd agent addr true]
  | .diagrd idx => [.diag idx]
  | .fatal cause => [.fatal cause]
  | .discard => [.pkt (discardPacket c)]
  | .row r payload => [.pkt (rowPacket c r payload)]
  | .frame =>
    ((List.range c.rows).map fun r => .pkt (rowPacket c (BitVec.ofNat 8 r) (.ramp (BitVec.ofNat 8 r)))) ++ [.flush]

/-- R121: "The commands are executed in text order." -/
def assemble (c : Config) (agent : Nat) (program : List AsmCommand) : List Command :=
  program.flatMap (AsmCommand.expand c agent)

/-! ### Reading the text (R121) -/

/-- Words, numbers and marks of a line. -/
inductive Tok where
  | word (w : List Char)
  | num (n : Nat)
  | comma
  | colon
  | open'
  | close'
  deriving DecidableEq, Repr

/-- A decimal digit's value. -/
def decDigit (ch : Char) : Option Nat :=
  if 48 ≤ ch.toNat && decide (ch.toNat ≤ 57) then some (ch.toNat - 48) else none

/-- A hex digit's value, in either case of letter. -/
def hexDigit (ch : Char) : Option Nat :=
  if 97 ≤ ch.toNat && decide (ch.toNat ≤ 102) then some (ch.toNat - 87)
  else if 65 ≤ ch.toNat && decide (ch.toNat ≤ 70) then some (ch.toNat - 55)
  else decDigit ch

/-- The value of a run of digits in a base. -/
def digitsValue (digit : Char → Option Nat) (base : Nat) : Nat → List Char → Option Nat
  | acc, [] => some acc
  | acc, ch :: cs =>
    match digit ch with
    | some d => digitsValue digit base (base * acc + d) cs
    | none => none

/-- A run of letters and digits: a number when it begins with a digit, a word otherwise. -/
def runTok : List Char → Option Tok
  | '0' :: 'x' :: d :: ds => (digitsValue hexDigit 16 0 (d :: ds)).map .num
  | ch :: cs =>
    match decDigit ch with
    | some _ => (digitsValue decDigit 10 0 (ch :: cs)).map .num
    | none => some (.word (ch :: cs))
  | [] => none

/-- The tokens so far, with the run in `acc` (kept in reverse) put in front of `rest`. -/
def closeRun (acc : List Char) (rest : Option (List Tok)) : Option (List Tok) :=
  match acc with
  | [] => rest
  | ch :: cs =>
    match runTok (ch :: cs).reverse, rest with
    | some t, some ts => some (t :: ts)
    | _, _ => none

/-- The tokens of one line. A comment runs from ';' to the end. -/
def lexLine (acc : List Char) : List Char → Option (List Tok)
  | [] => closeRun acc (some [])
  | ch :: cs =>
    if ch = ';' then closeRun acc (some [])
    else if ch = ' ' then closeRun acc (lexLine [] cs)
    else if ch = '\t' then closeRun acc (lexLine [] cs)
    else if ch = ',' then closeRun acc ((lexLine [] cs).map (Tok.comma :: ·))
    else if ch = ':' then closeRun acc ((lexLine [] cs).map (Tok.colon :: ·))
    else if ch = '[' then closeRun acc ((lexLine [] cs).map (Tok.open' :: ·))
    else if ch = ']' then closeRun acc ((lexLine [] cs).map (Tok.close' :: ·))
    else if ch.isAlphanum then lexLine (ch :: acc) cs
    else none

/-- `byte := number in 0..255` -/
def byteOf (n : Nat) : Option Byte := if n < 256 then some (BitVec.ofNat 8 n) else none

/-- `byte , byte , … , byte`, and what follows. -/
def parseBytes : List Tok → Option (List Byte × List Tok)
  | .num n :: .comma :: ts =>
    match byteOf n, parseBytes ts with
    | some b, some (bs, rest) => some (b :: bs, rest)
    | _, _ => none
  | .num n :: ts => (byteOf n).map fun b => ([b], ts)
  | _ => none

/-- A payload specifier to the end of the line (R122): `BYTES` has exactly ROW_BYTES values. DESIGN CHOICE (log entry
22): the value of `FILL`, which the spec writes 0xHHLL, may be any number of R121 below 65536. -/
def parsePayload (c : Config) : List Tok → Option PayloadSpec
  | [.word w] => if w = "ZERO".toList then some .zero else none
  | [.word w, .num n] =>
    if w = "FILL".toList then (if n < 65536 then some (.fill (BitVec.ofNat 16 n)) else none)
    else if w = "RAMP".toList then (byteOf n).map .ramp
    else none
  | .word w :: .open' :: ts =>
    match parseBytes ts with
    | some (vs, [.close']) => if w = "BYTES".toList ∧ vs.length = c.rowBytes then some (.bytes vs) else none
    | _ => none
  | _ => none

/-- `PKT` and its exactly HDR_LEN header bytes. -/
def parsePkt (c : Config) (ts : List Tok) : Option AsmCommand :=
  match parseBytes ts with
  | some (header, .colon :: rest) =>
    if header.length = c.hdrLen then (parsePayload c rest).map (.pkt header) else none
  | _ => none

/-- One command of R121 or R123. -/
def parseCommand (c : Config) : List Tok → Option AsmCommand
  | [.word w] =>
    if w = "FLUSH".toList then some .flush
    else if w = "DISCARD".toList then some .discard
    else if w = "FRAME".toList then some .frame
    else none
  | [.word w, .num n] =>
    if w = "RD8".toList then some (.rd8 n)
    else if w = "RD16".toList then some (.rd16 n)
    else if w = "DIAGRD".toList then (if n < 8 then some (.diagrd (BitVec.ofNat 3 n)) else none)
    else if w = "FATAL".toList then (if n < 4 then some (.fatal (BitVec.ofNat 2 n)) else none)
    else none
  | .word w :: .num n :: .colon :: ts =>
    if w = "ROW".toList then
      match byteOf n, parsePayload c ts with
      | some r, some pl => some (.row r pl)
      | _, _ => none
    else none
  | .word w :: ts => if w = "PKT".toList then parsePkt c ts else none
  | _ => none

/-- The lines of a text. -/
def splitLines (acc : List Char) : List Char → List (List Char)
  | [] => [acc.reverse]
  | ch :: cs => if ch = '\n' then acc.reverse :: splitLines [] cs else splitLines (ch :: acc) cs

/-- The commands of some lines; a line with no token is empty or a comment. -/
def parseLines (c : Config) : List (List Char) → Option (List AsmCommand)
  | [] => some []
  | l :: ls =>
    match lexLine [] l, parseLines c ls with
    | some [], some cs => some cs
    | some ts, some cs => (parseCommand c ts).map (· :: cs)
    | _, _ => none

/-- A program's text (R121); none where the text does not follow the grammar. -/
def parseProgram (c : Config) (text : String) : Option (List AsmCommand) := parseLines c (splitLines [] text.toList)

end Sys2Proof.Machine
end

