-- ==== Sys2Proof/Safety.lean ====
section
/-! DEFINITION. What counts as a sound state (the premises of 10_state.md R49 and 60_exceptions.md R243), the invariants of the state, and the reading of HIST that the diagnostic counters are held against. -/

namespace Sys2Proof.Machine

/-- The premises every claim about a run takes: FATAL = 0 (R243) and REFUSED = 0 (R49). -/
def State.sound (s : State) : Prop := s.fatal = false ∧ s.refused = false

/-! ### The state invariant -/

/-- A packet step or FLUSH in progress was accepted with FATAL = 0 (R115, R117), and FATAL waits for its end (R246). -/
def State.cycleOk (s : State) : Prop :=
  match s.cyc.phase with
  | .idle => True
  | .packet bytes => bytes.length = s.cfg.p ∧ s.fatal = false
  | .flush => s.fatal = false

/-- The invariant that every step keeps. -/
structure State.Inv (s : State) : Prop where
  /-- the configuration is well-formed (R10) -/
  config : s.cfg.wf
  /-- FB is in canonical form and inside FB_SIZE (R33) -/
  memory : Mem.wf s.cfg.fbSize s.fb
  /-- SEEN is in canonical form (R34) -/
  visible : Stale.wf s.cfg.fbSize s.fb s.stale
  /-- CAUSE is 0 whenever FATAL = 0, and only then (R35, R113) -/
  fatalCause : s.fatal = false ↔ s.cause = 0#2
  /-- ROWS_SEEN has ROWS bits (R41) -/
  rowsSeen : s.diag.rowsSeen.length = s.cfg.rows
  /-- without HAS_DIAG there is no DIAG (R39) -/
  noDiag : s.cfg.hasDiag = false → s.diag = Diag.zero s.cfg.rows
  /-- R176, modulo 2^32 -/
  counters : s.diag.pktCnt = s.diag.discardCnt + s.diag.oorCnt + s.diag.rowWrCnt
  /-- one reply register for each reader (R254) -/
  readers : s.rdOut.length = s.cfg.nReaders
  /-- the step in progress at cycle level -/
  cycle : s.cycleOk

/-! ### HIST and the counters -/

/-- The events after the last one that `stop` names. -/
def eventsSince (stop : Event → Bool) (h : List Event) : List Event :=
  (h.reverse.takeWhile fun e => !stop e).reverse

/-- Reset. -/
def Event.isReset : Event → Bool
  | .reset => true
  | _ => false

/-- A response, and one of which `f` holds. -/
def Event.isResp (f : Resp → Bool) : Event → Bool
  | .resp r => f r
  | _ => false

/-- Reset, or a response with `done = 1`: the end of a capture cycle. -/
def Event.endsFrame : Event → Bool
  | .reset => true
  | .resp r => r.done
  | _ => false

/-- How many responses since the last reset satisfy `f`. -/
def State.respCount (s : State) (f : Resp → Bool) : Nat :=
  (eventsSince Event.isReset s.hist).countP (Event.isResp f)

/-- Row `r` was written since the last completion or reset. -/
def State.rowWritten (s : State) (r : Nat) : Bool :=
  (eventsSince Event.endsFrame s.hist).any (Event.isResp fun x => x.wrote && x.row.toNat == r)

/-- What the diagnostic counters count (R40, R41), against the history (R37): each is the number of such responses
since the last reset, modulo 2^32, and bit r of ROWS_SEEN says whether row r was written since the last completion. -/
structure State.CountersMatch (s : State) : Prop where
  pkt : s.diag.pktCnt = BitVec.ofNat 32 (s.respCount fun _ => true)
  discard : s.diag.discardCnt = BitVec.ofNat 32 (s.respCount fun r => !r.kind)
  oor : s.diag.oorCnt = BitVec.ofNat 32 (s.respCount fun r => r.kind && !r.wrote)
  rowWr : s.diag.rowWrCnt = BitVec.ofNat 32 (s.respCount fun r => r.wrote)
  frame : s.diag.frameCnt = BitVec.ofNat 32 (s.respCount fun r => r.done)
  incomplete : s.diag.incompleteCnt = BitVec.ofNat 32 (s.respCount fun r => r.done && !r.allRows)
  rows : ∀ r, r < s.cfg.rows → s.diag.rowsSeen[r]? = some (s.rowWritten r)

/-! ### Sequences -/

/-- A packet that writes row `r`: Valid, with that row index (R171, R172; `r` in range is the user's premise). -/
def writesRow (c : Config) (r : Nat) (bytes : List Byte) : Bool :=
  match classify c bytes with
  | .discard => false
  | .valid x _ => x.toNat == r

/-- R221, R222, R226: what the request `q` of a reader is answered out of the SEEN sets of `m`: the reply, and the Read
events recorded. Each byte is a member of its SEEN set, by a draw that is free (R79). -/
def State.answers (m : State) (q : RdReq) (reply : RdReply) (events : List Event) : Prop :=
  match q.size with
  | false =>
    (q.addr < m.cfg.fbSize ∧ ∃ n v, v = State.pick n (m.seenAt q.addr) ∧ reply = ⟨false, v.setWidth 16⟩ ∧
      events = [.read q.agent q.addr v]) ∨
    (m.cfg.fbSize ≤ q.addr ∧ reply = ⟨true, 0⟩ ∧ events = [])
  | true =>
    ((q.addr % 2 = 0 ∧ q.addr + 1 < m.cfg.fbSize) ∧ ∃ n0 v0 n1 v1, v0 = State.pick n0 (m.seenAt q.addr) ∧
      v1 = State.pick n1 (m.seenAt (q.addr + 1)) ∧ reply = ⟨false, Half.ofBytes v1 v0⟩ ∧
      events = [.read q.agent q.addr v0, .read q.agent (q.addr + 1) v1]) ∨
    ((q.addr % 2 = 1 ∨ m.cfg.fbSize ≤ q.addr + 1) ∧ reply = ⟨true, 0⟩ ∧ events = [])

/-- A Read event of reader `j`. -/
def Event.isReadOf (j : Nat) : Event → Bool
  | .read agent _ _ => agent == j
  | _ => false

/-- A Fatal event. -/
def Event.isFatal : Event → Bool
  | .fatal _ => true
  | _ => false

/-- Clock edges one after another. -/
def runEdges : List Edge → State → Host.Outcome State Fault Refusal
  | [], s => .next s
  | e :: es, s => andThen (clockEdge e s) (runEdges es)

/-- The bits of ROWS_SEEN that a LAST packet finds set once its own is: `all_rows` before HAS_DIAG is asked (R172). -/
def Diag.allSeenWith (d : Diag) (r : Nat) : Bool := (d.rowsSeen.set r true).all id

end Sys2Proof.Machine
end

