-- ==== Sys2Proof/Certificates/Slice0/Obligations.lean ====
section
/-! DEFINITION. The statements for the provers: the numbered rules of the spec, and the encoding, frame and invariant statements derived from them. -/

set_option autoImplicit false

open Sys2Proof Sys2Proof.Machine

/-! ### Encoding -/

/-- A few words of the spec's own vectors (V1.6, V1.11, V1.13, V1.2 under HIGH, V4.3): the table's header words and
the port values decode to the instructions they stand for. Reference values; sanity. -/
def Obligations.TableWordsDecode : Prop :=
  decodeTableWord 16 0xF33B = some (.pktDiscard ⟨0xF#4, 0x3#4, 0x3B#8, [0, 0], List.replicate 160 0⟩) ∧
    decodeTableWord 16 0x003B = some (.pktLast ⟨0#4, 0#4, 0x3B#8, [0, 0], List.replicate 160 0⟩) ∧
    decodeTableWord 16 0x00C8 = some (.pktOor ⟨0#4, 0#4, 0xC8#8, [0, 0], List.replicate 160 0⟩) ∧
    decodeTableWord 16 0x0F05 = some (.pktRow ⟨0#4, 0xF#4, 0x05#8, [0, 0], List.replicate 160 0⟩) ∧
    decode .reference .flush = .ok .flush ∧
    decode .reference (.rd 0 480 false) = .ok (.rd8 0 480) ∧
    decode .reference (.rd 0 480 true) = .ok (.rd16 0 480) ∧
    decode .reference (.diag 7#3) = .ok (.diagrd 7#3) ∧
    decode .reference (.fatal 1#2) = .ok (.fatal 1#2)

/-- Decoding the encoding of a well-formed instruction gives it back, with every operand at every value, for every
well-formed configuration. -/
def Obligations.DecodeOfEncode : Prop :=
  ∀ (c : Config) (i : Instr), c.wf → i.wf c = true → decode c (encode c i) = .ok i

/-- Whatever the decoder gives is well-formed and encodes back to the port values it came from. -/
def Obligations.DecodedEncodesBack : Prop :=
  ∀ (c : Config) (cmd : Command) (i : Instr), c.wf → decode c cmd = .ok i → i.wf c = true ∧ encode c i = cmd

/-- R108: every sequence of P bytes is a packet of exactly one class, and decodes to that class's instruction with the
status field, row index and payload of R102, R104 and R105. -/
def Obligations.PacketDecodingIsTotal : Prop :=
  ∀ (c : Config) (bytes : List Byte), c.wf → bytes.length = c.p →
    ∃ p, decode c (.pkt bytes) = .ok (Instr.ofClass p (pktClass c bytes)) ∧
      p.status = statusField c (pktByte bytes 0) ∧ p.row = pktByte bytes 1 ∧ p.payload = bytes.drop c.hdrLen ∧
      p.payload.length = c.rowBytes

/-- R107: the class of a packet of P bytes, condition by condition. -/
def Obligations.PacketClassesByCondition : Prop :=
  ∀ (c : Config) (bytes : List Byte), c.wf → bytes.length = c.p →
    (pktClass c bytes = .discard ↔ (statusField c (pktByte bytes 0)).toNat = c.discardValue) ∧
    (pktClass c bytes = .oor ↔
      (statusField c (pktByte bytes 0)).toNat ≠ c.discardValue ∧ c.rows ≤ (pktByte bytes 1).toNat) ∧
    (pktClass c bytes = .last ↔
      (statusField c (pktByte bytes 0)).toNat ≠ c.discardValue ∧ (pktByte bytes 1).toNat + 1 = c.rows) ∧
    (pktClass c bytes = .row ↔
      (statusField c (pktByte bytes 0)).toNat ≠ c.discardValue ∧ (pktByte bytes 1).toNat + 1 < c.rows)

/-- The match and mask pairs of opcode_table.json over the header word of R106, for 60 rows and discard value 0xF, at
either nibble position: PKT.DISCARD's pair is its class; PKT.LAST's is its class once DISCARD is excluded. -/
def Obligations.TableMasksMatchClasses : Prop :=
  ∀ (c : Config) (bytes : List Byte) (t : TableRow), c.wf → c.rows = 60 → c.discardValue = 15 →
    bytes.length = c.p → t ∈ tableRows c.nibblePos →
    (t.cls = .discard → (t.hits (headerWord bytes) = true ↔ pktClass c bytes = .discard)) ∧
    (t.cls = .last → pktClass c bytes ≠ .discard →
      (t.hits (headerWord bytes) = true ↔ pktClass c bytes = .last))

/-- R102: where the status field stands, bit by bit, at either nibble position. -/
def Obligations.StatusFieldBits : Prop :=
  ∀ (c : Config) (b : Byte) (i : Nat), i < 4 →
    (statusField c b).getLsbD i = b.getLsbD (i + match c.nibblePos with | .high => 4 | .low => 0)

/-- R103, R135: the four other bits of byte 0 and the header bytes from byte 2 on change nothing at all, and neither do
the row byte and the payload of a discard packet. -/
def Obligations.IgnoredBytesChangeNothing : Prop :=
  ∀ (s : State) (p q : Packet), p.lengthOk s.cfg = true → q.lengthOk s.cfg = true →
    p.status = q.status → (p.status.toNat = s.cfg.discardValue ∨ p.row = q.row ∧ p.payload = q.payload) →
    exec (Instr.ofClass p (p.cls s.cfg)) s = exec (Instr.ofClass q (q.cls s.cfg)) s

/-- R123: DISCARD is a discard packet at both nibble positions; ROW r, with any payload of ROW_BYTES bytes, has the
class of its row index, where the discard value is not 0. That the packets have HDR_LEN header bytes where HDR_LEN is
not 4, and so P bytes, is the model's choice (log entry 22). -/
def Obligations.PseudoPacketsHaveTheirClass : Prop :=
  ∀ (c : Config), c.wf →
    (discardPacket c).length = c.p ∧ pktClass c (discardPacket c) = .discard ∧
    (c.discardValue ≠ 0 → ∀ (r : Byte) (pl : PayloadSpec), (∀ vs, pl = .bytes vs → vs.length = c.rowBytes) →
      (rowPacket c r pl).length = c.p ∧
      (pktClass c (rowPacket c r pl) = .oor ↔ c.rows ≤ r.toNat) ∧
      (pktClass c (rowPacket c r pl) = .last ↔ r.toNat + 1 = c.rows) ∧
      (pktClass c (rowPacket c r pl) = .row ↔ r.toNat + 1 < c.rows))

/-! ### Addresses -/

/-- R71, R163: where a sample byte and a row lie, and that an in-range row lies inside FB; row r of the reference
geometry starts at byte 160 r. -/
def Obligations.RowsLieInsideFrameBuffer : Prop :=
  (∀ (c : Config) (r k b : Nat), c.wf → r < c.rows → k < c.cols → b < 2 →
    fbAddr c r k b = (r * c.cols + k) * 2 + b ∧ rowBase c r = r * c.cols * 2 ∧ fbAddr c r k 0 = rowBase c r + 2 * k ∧
      rowBase c r ≤ fbAddr c r k b ∧ fbAddr c r k b < rowBase c r + c.rowBytes ∧
      rowBase c r + c.rowBytes ≤ c.fbSize) ∧
    ∀ r, rowBase .reference r = 160 * r

/-! ### The PKT instructions -/

/-- R170: PKT.DISCARD, whole: with FATAL = 0 it completes in this state. -/
def Obligations.PktDiscardCompletes : Prop :=
  ∀ (p : Packet) (s : State), (Instr.pktDiscard p).wf s.cfg = true → s.fatal = false →
    exec (.pktDiscard p) s = .next
      { s with
        diag := if s.cfg.hasDiag then
            { s.diag with pktCnt := s.diag.pktCnt + 1, discardCnt := s.diag.discardCnt + 1 } else s.diag
        rsp := ⟨false, 0, false, false, false⟩
        hist := s.hist ++ [.resp ⟨false, 0, false, false, false⟩] }

/-- R173: PKT.OOR, whole. -/
def Obligations.PktOorCompletes : Prop :=
  ∀ (p : Packet) (s : State), (Instr.pktOor p).wf s.cfg = true → s.fatal = false →
    exec (.pktOor p) s = .next
      { s with
        diag := if s.cfg.hasDiag then
            { s.diag with pktCnt := s.diag.pktCnt + 1, oorCnt := s.diag.oorCnt + 1 } else s.diag
        rsp := ⟨true, p.row, false, false, false⟩
        hist := s.hist ++ [.resp ⟨true, p.row, false, false, false⟩] }

/-- R171 with R164, R165 and R78: PKT.ROW completes; the row's bytes are the payload's, every other byte is as before,
SEEN gains exactly the written values, and the rest of the state is as stated. -/
def Obligations.PktRowCompletes : Prop :=
  ∀ (p : Packet) (s : State), s.cfg.wf → (Instr.pktRow p).wf s.cfg = true → s.fatal = false →
    ∃ t, exec (.pktRow p) s = .next t ∧
      (∀ i, i < s.cfg.rowBytes → t.fbAt (rowBase s.cfg p.row.toNat + i) = p.payload.getD i 0) ∧
      (∀ a, a < rowBase s.cfg p.row.toNat ∨ rowBase s.cfg p.row.toNat + s.cfg.rowBytes ≤ a → t.fbAt a = s.fbAt a) ∧
      (∀ a v, v ∈ t.seenAt a ↔ v ∈ s.seenAt a ∨
        rowBase s.cfg p.row.toNat ≤ a ∧ a < rowBase s.cfg p.row.toNat + s.cfg.rowBytes ∧ v = t.fbAt a) ∧
      t = { s with
        fb := t.fb
        stale := t.stale
        diag := if s.cfg.hasDiag then
            { s.diag with pktCnt := s.diag.pktCnt + 1, rowWrCnt := s.diag.rowWrCnt + 1,
                          rowsSeen := s.diag.rowsSeen.set p.row.toNat true } else s.diag
        rsp := ⟨true, p.row, true, false, false⟩
        hist := s.hist ++ [.resp ⟨true, p.row, true, false, false⟩] }

/-- R172 with R164, R165 and R78: PKT.LAST completes; the last row is written, `done` reported, `all_rows` taken from
ROWS_SEEN before it is cleared, the frame counted. -/
def Obligations.PktLastCompletes : Prop :=
  ∀ (p : Packet) (s : State), s.cfg.wf → (Instr.pktLast p).wf s.cfg = true → s.fatal = false →
    ∃ t, exec (.pktLast p) s = .next t ∧ p.row.toNat = s.cfg.rows - 1 ∧
      (∀ i, i < s.cfg.rowBytes → t.fbAt (rowBase s.cfg (s.cfg.rows - 1) + i) = p.payload.getD i 0) ∧
      (∀ a, a < rowBase s.cfg (s.cfg.rows - 1) ∨ rowBase s.cfg (s.cfg.rows - 1) + s.cfg.rowBytes ≤ a →
        t.fbAt a = s.fbAt a) ∧
      (∀ a v, v ∈ t.seenAt a ↔ v ∈ s.seenAt a ∨
        rowBase s.cfg (s.cfg.rows - 1) ≤ a ∧ a < rowBase s.cfg (s.cfg.rows - 1) + s.cfg.rowBytes ∧ v = t.fbAt a) ∧
      t = { s with
        fb := t.fb
        stale := t.stale
        diag := if s.cfg.hasDiag then
            { s.diag with
              pktCnt := s.diag.pktCnt + 1, rowWrCnt := s.diag.rowWrCnt + 1, frameCnt := s.diag.frameCnt + 1
              incompleteCnt := if s.diag.allSeenWith (s.cfg.rows - 1) then s.diag.incompleteCnt
                else s.diag.incompleteCnt + 1
              rowsSeen := List.replicate s.cfg.rows false } else s.diag
        rsp := ⟨true, p.row, true, true, s.cfg.hasDiag && s.diag.allSeenWith (s.cfg.rows - 1)⟩
        hist := s.hist ++ [.resp ⟨true, p.row, true, true, s.cfg.hasDiag && s.diag.allSeenWith (s.cfg.rows - 1)⟩] }

/-- R160: a packet command is the packet step of the spec's pseudocode, for every byte sequence and every state. That
its refusal is a next state with the mark set is the model's reading (log entry 6). -/
def Obligations.PacketCommandIsStepPkt : Prop :=
  ∀ (s : State) (bytes : List Byte), s.cfg.wf → runCommand (.pkt bytes) s = stepPkt bytes s

/-- R166, R167, R169: every field of the response. `kind`, `row`, `wrote` and `done` are decided by the packet alone,
whatever the state; `all_rows` by HAS_DIAG and ROWS_SEEN at a packet with `done`. -/
def Obligations.CompletionIsPositional : Prop :=
  ∀ (s t : State) (bytes : List Byte), s.cfg.wf → bytes.length = s.cfg.p → runCommand (.pkt bytes) s = .next t →
    (t.rsp.done = true ↔
      (statusField s.cfg (pktByte bytes 0)).toNat ≠ s.cfg.discardValue ∧ (pktByte bytes 1).toNat = s.cfg.rows - 1) ∧
    (t.rsp.kind = true ↔ (statusField s.cfg (pktByte bytes 0)).toNat ≠ s.cfg.discardValue) ∧
    (t.rsp.wrote = true ↔
      (statusField s.cfg (pktByte bytes 0)).toNat ≠ s.cfg.discardValue ∧ (pktByte bytes 1).toNat < s.cfg.rows) ∧
    t.rsp.row = (if (statusField s.cfg (pktByte bytes 0)).toNat = s.cfg.discardValue then 0 else pktByte bytes 1) ∧
    t.rsp.allRows = (t.rsp.done && s.cfg.hasDiag && s.diag.allSeenWith (s.cfg.rows - 1))

/-- R162, R165: only a Valid packet in range changes FB, and only inside its row. -/
def Obligations.OnlyValidInRangePacketsWrite : Prop :=
  ∀ (i : Instr) (s t : State) (a : Nat), s.cfg.wf → exec i s = .next t → t.fbAt a ≠ s.fbAt a →
    ∃ p, (i = .pktRow p ∨ i = .pktLast p) ∧ p.status.toNat ≠ s.cfg.discardValue ∧ p.row.toNat < s.cfg.rows ∧
      rowBase s.cfg p.row.toNat ≤ a ∧ a < rowBase s.cfg p.row.toNat + s.cfg.rowBytes

/-- R83, R48: FB and SEEN never influence how a packet is classified, validated or written: whatever they hold, the
response, the counters, the fatal state, HIST and the bytes written are the same. -/
def Obligations.FrameBufferNeverInfluencesPackets : Prop :=
  ∀ (bytes : List Byte) (s t : State) (fb : Mem) (stale : Stale), s.cfg.wf → runCommand (.pkt bytes) s = .next t →
    ∃ t', runCommand (.pkt bytes) { s with fb := fb, stale := stale } = .next t' ∧
      t' = { t with fb := t'.fb, stale := t'.stale } ∧
      ∀ r a, writesRow s.cfg r bytes = true → r < s.cfg.rows → rowBase s.cfg r ≤ a →
        a < rowBase s.cfg r + s.cfg.rowBytes → bytes.length = s.cfg.p → t'.fbAt a = t.fbAt a

/-- R177: the same Valid packet twice leaves FB and SEEN as once, and gives the same response but for the `all_rows` of
a LAST packet with HAS_DIAG; the counters count both. -/
def Obligations.SamePacketTwiceIsIdempotent : Prop :=
  ∀ (p : Packet) (i : Instr) (s t u : State), (i = .pktRow p ∨ i = .pktLast p ∨ i = .pktOor p) →
    i.wf s.cfg = true → exec i s = .next t → exec i t = .next u →
    u.fb = t.fb ∧ (∀ a v, v ∈ u.seenAt a ↔ v ∈ t.seenAt a) ∧ u.rsp = { t.rsp with allRows := u.rsp.allRows } ∧
      (s.cfg.hasDiag = false ∨ i ≠ .pktLast p → u.rsp = t.rsp) ∧
      (s.cfg.hasDiag = true → u.diag.pktCnt = s.diag.pktCnt + 2 ∧
        u.diag.rowWrCnt + u.diag.oorCnt = s.diag.rowWrCnt + s.diag.oorCnt + 2)

/-- R178: packets of different rows may change places without changing FB or SEEN. -/
def Obligations.DifferentRowsCommute : Prop :=
  ∀ (x y : List Byte) (s sx sxy sy syx : State) (r : Nat), s.cfg.wf → x.length = s.cfg.p → y.length = s.cfg.p →
    writesRow s.cfg r x = true → writesRow s.cfg r y = false →
    runCommand (.pkt x) s = .next sx → runCommand (.pkt y) sx = .next sxy →
    runCommand (.pkt y) s = .next sy → runCommand (.pkt x) sy = .next syx →
    ∀ a, sxy.fbAt a = syx.fbAt a ∧ ∀ v, v ∈ sxy.seenAt a ↔ v ∈ syx.seenAt a

/-- R178: after any sequence of packets, each row holds the payload of the last packet of that row, and a row that no
packet wrote its earlier value. -/
def Obligations.LastWriterWins : Prop :=
  ∀ (s : State) (pkts : List (List Byte)), s.cfg.wf → s.fatal = false → s.cyc.quiet = true →
    (∀ b ∈ pkts, b.length = s.cfg.p) → s.inputs = pkts.map (fun b => .cmd (.pkt b)) →
    ∃ t, core.run pkts.length s = .next t ∧
      ∀ r i, r < s.cfg.rows → i < s.cfg.rowBytes →
        t.fbAt (rowBase s.cfg r + i) =
          match (pkts.filter (writesRow s.cfg r)).getLast? with
          | some b => pktByte b (s.cfg.hdrLen + i)
          | none => s.fbAt (rowBase s.cfg r + i)

/-- R179: one Valid packet for each row, fed in row order, makes every sample value the one its two packet bytes denote
under the same byte order; and after a FLUSH a reader can be given nothing else. -/
def Obligations.FrameRoundTrip : Prop :=
  ∀ (s : State) (b : Nat → List Byte), s.cfg.wf → s.fatal = false → s.cyc.quiet = true →
    (∀ r, r < s.cfg.rows → (b r).length = s.cfg.p ∧ writesRow s.cfg r (b r) = true) →
    s.inputs = (List.range s.cfg.rows).map (fun r => .cmd (.pkt (b r))) →
    ∃ t, core.run s.cfg.rows s = .next t ∧
      (∀ r k, r < s.cfg.rows → k < s.cfg.cols →
        t.sampleValue r k =
          samplePair s.cfg (pktByte (b r) (s.cfg.hdrLen + 2 * k)) (pktByte (b r) (s.cfg.hdrLen + 2 * k + 1))) ∧
      ∃ u, exec .flush t = .next u ∧ ∀ a, u.seenAt a = [t.fbAt a]

/-! ### The diagnostic state -/

/-- R39: DIAG, present or absent and whatever it holds, affects neither FB, SEEN, FATAL, CAUSE nor the fields kind, row,
wrote and done of a response; absent, every counter index reads 0; by default it is absent. -/
def Obligations.DiagAffectsNothing : Prop :=
  (∀ (i : Instr) (s t : State) (h : Bool) (d : Diag), exec i s = .next t →
    ∃ t', exec i { s with cfg := { s.cfg with hasDiag := h }, diag := d } = .next t' ∧
      t'.fb = t.fb ∧ t'.stale = t.stale ∧ t'.fatal = t.fatal ∧ t'.cause = t.cause ∧
      t'.rsp.kind = t.rsp.kind ∧ t'.rsp.row = t.rsp.row ∧ t'.rsp.wrote = t.rsp.wrote ∧ t'.rsp.done = t.rsp.done) ∧
    (∀ (s : State) (k : BitVec 3), s.cfg.hasDiag = false → k ≠ 7#3 → s.diagReg k = 0) ∧
    Config.reference.hasDiag = false

/-- R174: with HAS_DIAG a packet step adds 1 to PKT_CNT and to exactly one of the three class counters; no other
command changes a counter or ROWS_SEEN. -/
def Obligations.CountersPerPacket : Prop :=
  ∀ (i : Instr) (s t : State), i.wf s.cfg = true → exec i s = .next t →
    ((∃ p, i = .pktDiscard p ∨ i = .pktOor p ∨ i = .pktLast p ∨ i = .pktRow p) → s.cfg.hasDiag = true →
      t.diag.pktCnt = s.diag.pktCnt + 1 ∧
      t.diag.discardCnt = s.diag.discardCnt + (match i with | .pktDiscard _ => 1 | _ => 0) ∧
      t.diag.oorCnt = s.diag.oorCnt + (match i with | .pktOor _ => 1 | _ => 0) ∧
      t.diag.rowWrCnt = s.diag.rowWrCnt + (match i with | .pktLast _ => 1 | .pktRow _ => 1 | _ => 0) ∧
      t.diag.frameCnt = s.diag.frameCnt + (match i with | .pktLast _ => 1 | _ => 0) ∧
      t.diag.incompleteCnt = s.diag.incompleteCnt +
        (match i with | .pktLast _ => if t.rsp.allRows then 0 else 1 | _ => 0)) ∧
    ((∀ p, i ≠ .pktDiscard p ∧ i ≠ .pktOor p ∧ i ≠ .pktLast p ∧ i ≠ .pktRow p) → t.diag = s.diag) ∧
    (s.cfg.hasDiag = false → t.diag = s.diag)

/-- R176: every instruction keeps the three invariants of the counters (the sum modulo 2^32; INCOMPLETE_CNT counts only
packets FRAME_CNT counts, so it stays at most FRAME_CNT before a wrap; ROWS_SEEN_POP is at most ROWS), and they begin at
power-up and after a reset with everything 0. -/
def Obligations.DiagInvariantsKept : Prop :=
  (∀ (i : Instr) (s t : State), s.cfg.wf → s.diag.rowsSeen.length = s.cfg.rows → exec i s = .next t →
    (s.diag.pktCnt = s.diag.discardCnt + s.diag.oorCnt + s.diag.rowWrCnt →
      t.diag.pktCnt = t.diag.discardCnt + t.diag.oorCnt + t.diag.rowWrCnt) ∧
    (t.diag.incompleteCnt ≠ s.diag.incompleteCnt → t.diag.frameCnt = s.diag.frameCnt + 1) ∧
    (s.diag.frameCnt ≠ BitVec.allOnes 32 → s.diag.incompleteCnt.toNat ≤ s.diag.frameCnt.toNat →
      t.diag.incompleteCnt.toNat ≤ t.diag.frameCnt.toNat) ∧
    t.diag.rowsSeenPop.toNat ≤ s.cfg.rows) ∧
    (∀ (s : State), s.cfg.hasDiag = true → s.stepReset.diag = ⟨0, 0, 0, 0, 0, 0, List.replicate s.cfg.rows false⟩) ∧
    ∀ (c : Config), (State.powerUp c).diag = ⟨0, 0, 0, 0, 0, 0, List.replicate c.rows false⟩

/-- R40, R41, R174, R175 as one invariant: with HAS_DIAG every counter is, modulo 2^32, the number of its responses in
HIST since the last reset, and ROWS_SEEN marks the rows written since the last completion or reset. Every step keeps
it. -/
def Obligations.CountersMatchHistory : Prop :=
  ∀ (s t : State), s.Inv → s.cfg.hasDiag = true → s.CountersMatch → step s = .next t → t.CountersMatch

/-- The counters match HIST right after any reset, and at power-up. -/
def Obligations.CountersMatchAfterReset : Prop :=
  (∀ (s : State), s.cfg.hasDiag = true → s.stepReset.CountersMatch) ∧
    ∀ (c : Config), (State.powerUp c).CountersMatch

/-- R175: how each instruction updates ROWS_SEEN; and `all_rows` of a LAST packet says that every row was written since
the last completion or reset. -/
def Obligations.AllRowsMeansEveryRowWritten : Prop :=
  ∀ (i : Instr) (s t : State), s.cfg.hasDiag = true → i.wf s.cfg = true → exec i s = .next t →
    t.diag.rowsSeen = (match i with
      | .pktRow p => s.diag.rowsSeen.set p.row.toNat true
      | .pktLast _ => List.replicate s.cfg.rows false
      | _ => s.diag.rowsSeen) ∧
    ∀ p, i = .pktLast p → s.diag.rowsSeen.length = s.cfg.rows → s.CountersMatch →
      (t.rsp.allRows = true ↔ ∀ r, r < s.cfg.rows → r + 1 = s.cfg.rows ∨ s.rowWritten r = true)

/-- R45: ROWS_SEEN_POP is the number of set bits, at most ROWS; its bits 31:9 are 0; it reads 0 after reset and directly
after a LAST packet. -/
def Obligations.RowsSeenPopBounds : Prop :=
  ∀ (s : State), s.Inv →
    s.diag.rowsSeenPop.toNat = s.diag.rowsSeen.count true ∧ s.diag.rowsSeenPop.toNat ≤ s.cfg.rows ∧
    (∀ i, 9 ≤ i → s.diag.rowsSeenPop.getLsbD i = false) ∧ s.stepReset.diag.rowsSeenPop = 0 ∧
    ∀ (p : Packet) (t : State), exec (.pktLast p) s = .next t → (Instr.pktLast p).wf s.cfg = true →
      t.diag.rowsSeenPop = 0

/-! ### The sink ports -/

/-- R220: FLUSH completes with FATAL = 0, leaves every SEEN[a] the singleton of FB[a], records FlushDone, and changes
nothing else; with FATAL = 1 it is stuck. -/
def Obligations.FlushCompletes : Prop :=
  ∀ (s : State),
    (s.fatal = false → ∃ t, exec .flush s = .next t ∧ (∀ a, t.seenAt a = [s.fbAt a]) ∧
      t = { s with stale := t.stale, hist := s.hist ++ [.flushDone] }) ∧
    (s.fatal = true → exec .flush s = .fault .stuckFatal)

/-- R221 with R79: RD8 completes in every state, FATAL or not. Inside FB the byte is some member of SEEN[addr], recorded
and replied zero-extended, whatever the draws are; outside, the reply is the error; nothing else changes. -/
def Obligations.Rd8Completes : Prop :=
  ∀ (j addr : Nat) (s : State), j < s.cfg.nReaders →
    (addr < s.cfg.fbSize → ∃ v n, v ∈ s.seenAt addr ∧
      exec (.rd8 j addr) s = .next
        { s with
          hist := s.hist ++ [.read j addr v]
          rdOut := s.rdOut.set j ⟨false, v.setWidth 16⟩
          draws := n }) ∧
    (s.cfg.fbSize ≤ addr → exec (.rd8 j addr) s = .next { s with rdOut := s.rdOut.set j ⟨true, 0⟩ })

/-- R222 with R79: RD16 completes in every state. At an even address with both bytes inside FB it gives two members, one
of each SEEN set, with `rd_data[7:0]` the byte at addr; otherwise the reply is the error; nothing else changes. -/
def Obligations.Rd16Completes : Prop :=
  ∀ (j addr : Nat) (s : State), j < s.cfg.nReaders →
    (addr % 2 = 0 → addr + 1 < s.cfg.fbSize →
      ∃ v0 v1 n, v0 ∈ s.seenAt addr ∧ v1 ∈ s.seenAt (addr + 1) ∧
        ∃ data : Half, data.extractLsb' 0 8 = v0 ∧ data.extractLsb' 8 8 = v1 ∧
          exec (.rd16 j addr) s = .next
            { s with
              hist := s.hist ++ [.read j addr v0, .read j (addr + 1) v1]
              rdOut := s.rdOut.set j ⟨false, data⟩
              draws := n }) ∧
    (addr % 2 = 1 ∨ s.cfg.fbSize ≤ addr + 1 →
      exec (.rd16 j addr) s = .next { s with rdOut := s.rdOut.set j ⟨true, 0⟩ })

/-- What no port can carry is refused by name and changes nothing: a reader that does not exist (R254), an address of
more than FB_ADDR_W bits (R111), a packet given to another class's meaning. A command that must wait for a cycle-level
step in progress stops as busy (log entries 16 and 18). -/
def Obligations.UnpresentableInputsStopByName : Prop :=
  ∀ (s : State),
    (∀ j addr, s.cfg.nReaders ≤ j →
      exec (.rd8 j addr) s = .refused .noSuchReader ∧ exec (.rd16 j addr) s = .refused .noSuchReader) ∧
    (∀ j addr sz, j < s.cfg.nReaders → 2 ^ s.cfg.fbAddrW ≤ addr →
      runCommand (.rd j addr sz) s = .refused .addrTooWide) ∧
    (∀ p k, p.lengthOk s.cfg = true → s.fatal = false → p.cls s.cfg ≠ k →
      exec (Instr.ofClass p k) s = .refused .wrongClass) ∧
    (∀ c rest, s.cfg.wf → s.inputs = .cmd c :: rest → waitsForIdle c = true → s.cyc.quiet = false →
      step s = .fault .busy)

/-- R80 item 5 for the next read: after a FLUSH, RD8 and RD16 return FB's bytes at the time of the FLUSH, whatever the
draws. -/
def Obligations.ReadAfterFlushIsCurrent : Prop :=
  ∀ (j addr : Nat) (s t : State), s.Inv → exec .flush s = .next t → j < s.cfg.nReaders →
    (addr < s.cfg.fbSize → ∃ u, exec (.rd8 j addr) t = .next u ∧
      u.rdOut[j]? = some ⟨false, (s.fbAt addr).setWidth 16⟩) ∧
    (addr % 2 = 0 → addr + 1 < s.cfg.fbSize → ∃ u, exec (.rd16 j addr) t = .next u ∧
      u.rdOut[j]? = some ⟨false, Half.ofBytes (s.fbAt (addr + 1)) (s.fbAt addr)⟩)

/-- R80 item 5, R81: every read that begins after a FLUSH is given, for each byte, FB's value at the time of the FLUSH
or a value the byte has had since, whatever happens in between and however long. -/
def Obligations.FlushOrdersReads : Prop :=
  ∀ (s t u : State) (n a : Nat) (v : Byte), s.Inv → exec .flush s = .next t → core.run n t = .next u → v ∈ u.seenAt a →
    v = s.fbAt a ∨ ∃ m w, m ≤ n ∧ core.run m t = .next w ∧ v = w.fbAt a

/-- R34, R79: the current byte is always a possible answer; and no step lets a reader see a value that was neither
visible before nor is the byte's value now (no thin-air values, R78). -/
def Obligations.SeenGrowsOnlyByWrites : Prop :=
  ∀ (s : State) (a : Nat), s.fbAt a ∈ s.seenAt a ∧
    ∀ (t : State) (v : Byte), s.Inv → step s = .next t → v ∈ t.seenAt a → v ∈ s.seenAt a ∨ v = t.fbAt a

/-- R223 with R42, R43, R45 and R47: DIAGRD completes in every state, `diag_rdata` shows the register of the index (STATUS
field by field), the read is recorded, and nothing else changes but that the index is on the port. -/
def Obligations.DiagrdCompletes : Prop :=
  ∀ (k : BitVec 3) (s : State),
    ∃ v t, exec (.diagrd k) s = .next t ∧ t = { s with diagIdx := k, hist := s.hist ++ [.diagRead k v] } ∧
      t.diagRdata = v ∧
      (k = 0#3 → v = if s.cfg.hasDiag then s.diag.pktCnt else 0) ∧
      (k = 1#3 → v = if s.cfg.hasDiag then s.diag.discardCnt else 0) ∧
      (k = 2#3 → v = if s.cfg.hasDiag then s.diag.oorCnt else 0) ∧
      (k = 3#3 → v = if s.cfg.hasDiag then s.diag.rowWrCnt else 0) ∧
      (k = 4#3 → v = if s.cfg.hasDiag then s.diag.frameCnt else 0) ∧
      (k = 5#3 → v = if s.cfg.hasDiag then s.diag.incompleteCnt else 0) ∧
      (k = 6#3 → v = if s.cfg.hasDiag then BitVec.ofNat 32 (s.diag.rowsSeen.count true) else 0) ∧
      (k = 7#3 → v.getLsbD 0 = s.fatal ∧ v.extractLsb' 1 2 = s.cause ∧ v.getLsbD 3 = s.cfg.hasDiag ∧
        v.extractLsb' 4 28 = 0)

/-- R114, R119: `diag_rdata` shows the selected register's value in the current cycle, with no handshake: a clock edge at
which an index is presented records the register before the edge, and after it, as after a FATAL and after a reset, the
port shows the register as it is then. That the index stays on the port is the model's choice (log entry 28), and so is
that the port shows the register in a cycle with `rst = 1` too (log entry 32). -/
def Obligations.DiagPortShowsCurrentCycle : Prop :=
  (∀ (s t : State) (e : Edge) (k : BitVec 3), e.rst = false → e.diag = some k → clockEdge e s = .next t →
    t.diagIdx = k ∧ t.diagRdata = t.diagReg k ∧ Event.diagRead k (s.diagReg k) ∈ t.hist) ∧
  (∀ (s : State) (c : BitVec 2), s.diagIdx = 7#3 → c ≠ 0#2 → s.fatal = false →
    ∃ t, exec (.fatal c) s = .next t ∧ t.diagRdata.getLsbD 0 = true ∧ t.diagRdata.extractLsb' 1 2 = c) ∧
  (∀ (s : State), s.diagIdx ≠ 7#3 → s.cfg.hasDiag = true → s.stepReset.diagRdata = 0) ∧
  ∀ (s : State), s.diagIdx = 7#3 → s.stepReset.diagRdata = if s.cfg.hasDiag then 8 else 0

/-- R224: no read changes FB, SEEN, FATAL, CAUSE or DIAG, and none delays, reorders or blocks a packet step or a FLUSH. -/
def Obligations.ReadsChangeNoState : Prop :=
  ∀ (i : Instr) (s t : State), (∃ j a, i = .rd8 j a ∨ i = .rd16 j a) ∨ (∃ k, i = .diagrd k) → exec i s = .next t →
    t.fb = s.fb ∧ (∀ a, t.seenAt a = s.seenAt a) ∧ t.fatal = s.fatal ∧ t.cause = s.cause ∧ t.diag = s.diag ∧
      t.refused = s.refused ∧ t.rsp = s.rsp ∧ t.cyc = s.cyc ∧ t.cfg = s.cfg ∧ t.inputs = s.inputs ∧ t.host = s.host

/-! ### The fatal state -/

/-- R242, R245: FATAL with a cause of 1 to 3 completes in every state: FATAL is set, CAUSE is the cause unless already
FATAL, the event is recorded either way, and nothing else changes. With cause 0 it is refused; that a refusal is a next
state in which REFUSED alone has changed is the model's reading (log entry 6). -/
def Obligations.FatalCompletes : Prop :=
  ∀ (c : BitVec 2) (s : State),
    (c ≠ 0#2 → exec (.fatal c) s = .next
      { s with
        fatal := true
        cause := if s.fatal then s.cause else c
        hist := s.hist ++ [.fatal c] }) ∧
    (c = 0#2 → exec (.fatal c) s = .next { s with refused := true })

/-- R257, R49: an ill-formed configuration, a packet of a length other than P and a FATAL with cause 0 set REFUSED and
give no other effect (but that an input may be used up); REFUSED is never cleared, not even by reset. That a refusal is
a next state is the model's reading (log entry 6). -/
def Obligations.RefusalsOnlyMark : Prop :=
  ∀ (s : State),
    (¬ s.cfg.wf → ∃ t, step s = .next t ∧ t = { s with refused := true, inputs := t.inputs }) ∧
    (∀ (bytes : List Byte), bytes.length ≠ s.cfg.p → runCommand (.pkt bytes) s = .next { s with refused := true }) ∧
    runCommand (.fatal 0#2) s = .next { s with refused := true } ∧
    ∀ t, step s = .next t → s.refused = true → t.refused = true

/-- R243: while FATAL = 1 no packet and no FLUSH has a step, `pkt_ready` is 0, `flush_ack` never pulses, no step at
transaction or at cycle level changes FB or SEEN, and reads and DIAGRD are served. -/
def Obligations.NothingIsAcceptedWhileFatal : Prop :=
  ∀ (s : State), s.fatal = true →
    exec .flush s = .fault .stuckFatal ∧
    (∀ (p : Packet), p.lengthOk s.cfg = true →
      exec (.pktDiscard p) s = .fault .stuckFatal ∧ exec (.pktOor p) s = .fault .stuckFatal ∧
      exec (.pktLast p) s = .fault .stuckFatal ∧ exec (.pktRow p) s = .fault .stuckFatal) ∧
    s.pktReady false = false ∧
    (∀ t, s.Inv → step s = .next t → t.fb = s.fb ∧ t.stale = s.stale) ∧
    (∀ e t, s.Inv → clockEdge e s = .next t → t.cyc.flushAck = false) ∧
    (∀ j a, j < s.cfg.nReaders → (∃ t, exec (.rd8 j a) s = .next t) ∧ ∃ t, exec (.rd16 j a) s = .next t) ∧
    ∀ k, ∃ t, exec (.diagrd k) s = .next t

/-- R244, R245: FATAL is sticky and keeps its first cause: only a reset clears it. -/
def Obligations.OnlyResetClearsFatal : Prop :=
  ∀ (s t : State), s.fatal = true → step s = .next t →
    (t.fatal = true ∧ t.cause = s.cause) ∨
      ∃ rest, s.inputs = .reset :: rest ∨ ∃ e, e.rst = true ∧ s.inputs = .clk e :: rest

/-! ### Reset and power-up -/

/-- R271, R272: `step_reset`, whole; FB, SEEN and REFUSED are unchanged, and `pkt_ready` is 1 after it. Nothing is said
of the reply registers and of the index on `diag_idx`, which are the model's choice (log entries 10 and 28). -/
def Obligations.ResetSetsResetValues : Prop :=
  ∀ (s : State) (rest : List Input), s.cfg.wf → s.inputs = .reset :: rest →
    ∃ t, step s = .next t ∧ t.pktReady false = true ∧
      t = { s with
        inputs := rest
        fatal := false
        cause := 0
        diag := if s.cfg.hasDiag then ⟨0, 0, 0, 0, 0, 0, List.replicate s.cfg.rows false⟩ else s.diag
        rsp := ⟨false, 0, false, false, false⟩
        cyc := ⟨.idle, false, t.cyc.fatalPend, [], false, false, []⟩
        rdOut := t.rdOut
        diagIdx := t.diagIdx
        hist := s.hist ++ [.reset] }

/-- R273: reset during a packet step: each byte of the target row ends old or new as the mask says, SEEN gains the new
value where FB took it, every other byte is unchanged (all of them for a discard or an out-of-range packet), no response is
emitted, and the rest is as after a reset. Nothing is said of `hostUp`, the model's reading of R206 (log entry 17). -/
def Obligations.ResetDuringPacketWritesPartOfRow : Prop :=
  ∀ (s : State) (bytes : List Byte) (mask : List Bool) (rest : List Input),
    s.cfg.wf → s.fatal = false → s.cyc.quiet = true → bytes.length = s.cfg.p →
    s.inputs = .resetDuringPkt bytes mask :: rest →
    ∃ t, step s = .next t ∧
      (classify s.cfg bytes = .discard → t.fb = s.fb ∧ t.stale = s.stale) ∧
      (∀ r payload, classify s.cfg bytes = .valid r payload →
        (r.toNat < s.cfg.rows → ∀ i, i < s.cfg.rowBytes →
          t.fbAt (rowBase s.cfg r.toNat + i) =
            if mask.getD i false then payload.getD i 0 else s.fbAt (rowBase s.cfg r.toNat + i)) ∧
        ∀ a, s.cfg.rows ≤ r.toNat ∨ a < rowBase s.cfg r.toNat ∨ rowBase s.cfg r.toNat + s.cfg.rowBytes ≤ a →
          t.fbAt a = s.fbAt a) ∧
      (∀ a v, v ∈ t.seenAt a ↔ v ∈ s.seenAt a ∨ v = t.fbAt a) ∧
      t = { s.stepReset with fb := t.fb, stale := t.stale, inputs := rest, hostUp := t.hostUp }

/-- R274: power-up with any FB_INIT: FB holds it, SEEN is its singletons, HIST is empty, REFUSED is 0, every other
component of R50 has its reset value, the response outputs with `rsp_valid` among them, and the cycle-level registers of
R51 are idle. Nothing is said of a held strobe beyond `pkt_ready`, which is 1. -/
def Obligations.PowerUpHoldsInitialContents : Prop :=
  ∀ (c : Config), c.wf →
    (State.powerUp c).hist = [] ∧ (State.powerUp c).refused = false ∧
    (State.powerUp c).fatal = false ∧ (State.powerUp c).cause = 0#2 ∧
    (State.powerUp c).diag = ⟨0, 0, 0, 0, 0, 0, List.replicate c.rows false⟩ ∧
    (State.powerUp c).rsp = ⟨false, 0, false, false, false⟩ ∧
    (State.powerUp c).cyc = ⟨.idle, false, (State.powerUp c).cyc.fatalPend, [], false, false, []⟩ ∧
    (State.powerUp c).pktReady false = true ∧
    ∀ a, a < c.fbSize → (State.powerUp c).fbAt a = c.fbInit.getD a 0 ∧ (State.powerUp c).seenAt a = [c.fbInit.getD a 0]

/-- Power-up of every well-formed configuration meets the invariant. The state after reset is power-up of the reference
configuration followed by one reset, and meets the invariant.
The reference configuration's open parameters and FB_INIT are the model's choice (log entries 2 and 3). -/
def Obligations.ResetStateMeetsInvariant : Prop :=
  (∀ (c : Config), c.wf → (State.powerUp c).Inv) ∧ State.reset.Inv ∧ State.reset.sound ∧ State.reset = (State.powerUp .reference).stepReset

/-! ### Whole-machine rules -/

/-- A step runs the decoded instruction: when the next input is a command that decodes to `i`, and no cycle-level step
holds the host's ports, the step is `exec i` with the input taken from the list; a packet presented says that the
host's setup is over (log entry 17). Reads and DIAGRD need no idle ports. -/
def Obligations.StepRunsDecodedInstruction : Prop :=
  ∀ (s : State) (cmd : Command) (rest : List Input) (i : Instr), s.cfg.wf → s.inputs = .cmd cmd :: rest →
    decode s.cfg cmd = .ok i → (waitsForIdle cmd = false ∨ s.cyc.quiet = true) →
    step s = exec i { s with
      inputs := rest
      hostUp := s.hostUp || match cmd with | .pkt _ => true | _ => false }

/-- The invariant of Safety.lean is kept by every step from every state that meets it. -/
def Obligations.EveryStepKeepsInvariant : Prop :=
  ∀ (s t : State), s.Inv → step s = .next t → t.Inv

/-- No step changes the configuration (R11), and no step takes an event out of HIST (R37). -/
def Obligations.ConfigurationAndHistoryPersist : Prop :=
  ∀ (s t : State), step s = .next t → t.cfg = s.cfg ∧ ∃ es, t.hist = s.hist ++ es

/-- R256: with nothing presented the state is unchanged. -/
def Obligations.IdleChangesNothing : Prop :=
  ∀ (s : State), s.cfg.wf → s.inputs = [] → step s = .next s

/-! ### The host -/

/-- R202, R205, R212: in AWAITING_ROWS the host presents the transferred packet and moves to FRAME_COMPLETE exactly when
it is a LAST packet; a transport error makes it present FATAL 1 and abort. Nothing is said of `hostUp` (log entry 17). -/
def Obligations.HostAwaitingRows : Prop :=
  ∀ (s : State) (rest : List Input), s.cfg.wf → s.cyc.quiet = true → s.host = .awaitingRows →
    (∀ (b : List Byte), s.fatal = false → b.length = s.cfg.p → s.inputs = .host (.bytes b) :: rest →
      ∃ u, runCommand (.pkt b) { s with inputs := rest, hostUp := u.hostUp } = .next u ∧
        step s = .next { u with host := if pktClass s.cfg b = .last then .frameComplete else .awaitingRows }) ∧
    (s.inputs = .host .error :: rest →
      ∃ u, exec (.fatal 1#2) { s with inputs := rest, hostUp := u.hostUp } = .next u ∧ step s = .next { u with host := .aborted })

/-- R203: in FRAME_COMPLETE the host flushes, whatever a transfer would yield, and goes back to AWAITING_ROWS; in
ABORTED it presents nothing more. That FLUSH, pause and return are one move, and that a move says the setup is over, is
the model's choice (log entry 17). -/
def Obligations.HostFlushesThenAwaits : Prop :=
  ∀ (s : State) (rest : List Input) (x : Transfer), s.cfg.wf → s.cyc.quiet = true → s.inputs = .host x :: rest →
    (s.host = .frameComplete → s.fatal = false →
      ∃ u, exec .flush { s with inputs := rest, hostUp := true } = .next u ∧ step s = .next { u with host := .awaitingRows }) ∧
    (s.host = .aborted → step s = .next { s with inputs := rest, hostUp := true })

/-- R206: before the host enters AWAITING_ROWS a setup failure enters the fatal state with its cause (2 for the bus, 3
for the sink) and the host aborts; no packet is ever presented then: the host's next move changes nothing, and a further
setup failure has no step. Once a packet was presented, at either level, or the host moved in its loop, a setup failure
has no step, and that stays so for good (that it stops as setupOver is log entry 17). -/
def Obligations.HostSetupFailureIsFatal : Prop :=
  (∀ (s : State) (rest : List Input) (f : SetupFailure), s.cfg.wf → s.inputs = .hostSetup f :: rest →
    (s.hostUp = false → s.cyc.quiet = true → s.fatal = false →
      ∃ t, step s = .next t ∧
        t = { s with
          inputs := rest
          fatal := true
          cause := match f with | .bus => 2#2 | .sink => 3#2
          hist := s.hist ++ [.fatal (match f with | .bus => 2#2 | .sink => 3#2)]
          host := .aborted
          hostUp := true } ∧
        (∀ (x : Transfer) (l : List Input), rest = .host x :: l → step t = .next { t with inputs := l }) ∧
        ∀ (g : SetupFailure) (l : List Input), rest = .hostSetup g :: l → step t = .fault .setupOver) ∧
    (s.hostUp = true → step s = .fault .setupOver)) ∧
  ∀ (s t : State) (i : Input) (rest : List Input), s.cfg.wf → s.inputs = i :: rest → step s = .next t →
    (s.hostUp = true → t.hostUp = true) ∧
    ((∃ b, i = .cmd (.pkt b)) ∨ (∃ b m, i = .resetDuringPkt b m) ∨ (∃ x, i = .host x) ∨ (∃ f, i = .hostSetup f) ∨
      (∃ x, i = .together x ∧ x.pkt ≠ none) ∨ (∃ e, i = .clk e ∧ e.pkt ≠ none) → t.hostUp = true)

/-! ### Coinciding events and the clock edge -/

/-- R248 at transaction level: reset takes all; a fatal strobe is taken and the packet and FLUSH are not; a packet goes
before a FLUSH. That the packet and the FLUSH presented with a fatal strobe are dropped from the inputs is the model's
choice (log entry 25), and so is that a packet counts as presented, `hostUp := s.hostUp || x.pkt.isSome`, also where reset
or a strobe drops it (log entry 17). -/
def Obligations.CoincidingEventsHavePriority : Prop :=
  ∀ (s : State) (rest : List Input) (x : Together), s.cfg.wf → s.inputs = .together x :: rest →
    ∃ l, step s = .next { s with inputs := l ++ rest, hostUp := s.hostUp || x.pkt.isSome } ∧
      (x.rst = true → l = [.reset]) ∧
      (x.rst = false → ∀ c, x.fatal = some c → l = [.cmd (.fatal c)]) ∧
      (x.rst = false → x.fatal = none → ∀ b, x.pkt = some b → x.flush = true → l = [.cmd (.pkt b), .cmd .flush]) ∧
      (x.rst = false → x.fatal = none → ∀ b, x.pkt = some b → x.flush = false → l = [.cmd (.pkt b)]) ∧
      (x.rst = false → x.fatal = none → x.pkt = none → x.flush = true → l = [.cmd .flush]) ∧
      (x.rst = false → x.fatal = none → x.pkt = none → x.flush = false → l = [])

/-- R115, R117, R248 at an edge with no step in progress: a packet is accepted exactly when it is presented with
`pkt_ready = 1` and no fatal strobe; a FLUSH begins exactly when FATAL = 0, no strobe is pending or new, and it is
pending or requested without a packet. A FLUSH requested on the edge that accepts a packet is pending after it. That
`pkt_ready` does not look at a new strobe is the model's choice (log entry 31), and so is that `flush_req` in the
`flush_ack` cycle is a request (log entry 30). -/
def Obligations.EdgeAcceptsByPriority : Prop :=
  ∀ (s t : State) (e : Edge), s.cyc.phase = .idle → e.rst = false → clockEdge e s = .next t →
    (∀ bytes, t.cyc.phase = .packet bytes ↔
      s.pktReady false = true ∧ e.fatalReq = none ∧ e.pkt = some bytes ∧ bytes.length = s.cfg.p) ∧
    (∀ bytes, t.cyc.phase = .packet bytes → t.cyc.flushPend = e.flushReq) ∧
    (t.cyc.phase = .flush ↔
      s.fatal = false ∧ s.cyc.fatalPend = [] ∧ e.fatalReq = none ∧
        (s.cyc.flushPend = true ∨ e.pkt = none ∧ e.flushReq = true))

/-- R119, R246, R245: a fatal strobe during a packet step or FLUSH does not change FATAL or CAUSE and is held; at an edge
with no step in progress a held or new strobe with a cause of 1 to 3 sets FATAL, the first such cause is CAUSE unless
FATAL was 1 before, and each is recorded, in order. That every strobe is held, in order, and none stays held after one such
edge is the model's reading (log entry 15); that the Fatal events stand after the other events of that edge in HIST is the
model's choice (log entry 14). -/
def Obligations.FatalStrobeIsHeld : Prop :=
  ∀ (s t : State) (e : Edge), e.rst = false → clockEdge e s = .next t →
    (s.cyc.phase ≠ .idle →
      t.fatal = s.fatal ∧ t.cause = s.cause ∧ t.cyc.fatalPend = s.cyc.fatalPend ++ e.fatalReq.toList ∧
      ∃ es, t.hist = s.hist ++ es ∧ ∀ x ∈ es, x.isFatal = false) ∧
    (s.cyc.phase = .idle →
      t.cyc.fatalPend = [] ∧
      (t.fatal = true ↔ s.fatal = true ∨ ∃ c ∈ s.cyc.fatalPend ++ e.fatalReq.toList, c ≠ 0#2) ∧
      t.cause = (if s.fatal then s.cause
        else ((s.cyc.fatalPend ++ e.fatalReq.toList).find? fun c => c ≠ 0#2).getD s.cause) ∧
      ∃ es, (∀ x ∈ es, x.isFatal = false) ∧
        t.hist = s.hist ++ es ++ ((s.cyc.fatalPend ++ e.fatalReq.toList).filter fun c => c ≠ 0#2).map .fatal)

/-- R248, R270, R225, R273: an edge with `rst = 1` is `step_reset`, whatever else is on the ports; a packet accepted at
an earlier edge and not yet answered is cut off, and of its in-range row each byte ends new where the mask says and old
elsewhere, every other byte as before, SEEN gaining the new value where FB took it. That each such edge is one step_reset
is the model's choice (log entry 27), and so is that a packet on the edge counts as presented (log entry 17). -/
def Obligations.ResetEdgeIgnoresAllElse : Prop :=
  ∀ (s : State) (e : Edge) (rest : List Input), s.cfg.wf → e.rst = true → s.inputs = .clk e :: rest →
    ∃ t, step s = .next t ∧
      t = { s.stepReset with fb := t.fb, stale := t.stale, inputs := rest, hostUp := s.hostUp || e.pkt.isSome } ∧
      ((∀ bytes, s.cyc.phase ≠ .packet bytes) → t.fb = s.fb ∧ t.stale = s.stale) ∧
      ∀ bytes, s.cyc.phase = .packet bytes → bytes.length = s.cfg.p →
        (∀ a v, v ∈ t.seenAt a ↔ v ∈ s.seenAt a ∨ v = t.fbAt a) ∧
        (classify s.cfg bytes = .discard → t.fb = s.fb) ∧
        ∀ r payload, classify s.cfg bytes = .valid r payload →
          (r.toNat < s.cfg.rows → ∀ i, i < s.cfg.rowBytes →
            t.fbAt (rowBase s.cfg r.toNat + i) =
              if e.mask.getD i false then payload.getD i 0 else s.fbAt (rowBase s.cfg r.toNat + i)) ∧
          ∀ a, s.cfg.rows ≤ r.toNat ∨ a < rowBase s.cfg r.toNat ∨ rowBase s.cfg r.toNat + s.cfg.rowBytes ≤ a →
            t.fbAt a = s.fbAt a

/-- R7, R51, R246: the cycle level refines the packet step and the FLUSH. From a packet or a FLUSH in progress, any
unfinished edges (with any reads, strobes and partial row writes in them) and then a finishing edge leave FB, SEEN, DIAG,
FATAL, CAUSE, REFUSED and the response outputs as the one transaction-level step does, record its event last and pulse
`rsp_valid` or `flush_ack`: after a FLUSH every SEEN[a] is the singleton of FB[a] (R117, R220), and an unfinished edge
leaves FB and SEEN and pulses nothing. A FLUSH that was requested with the packet begins at the edge that ends the packet,
unless a strobe is held (R117, R248); that it begins at that edge, before a strobe in the `rsp_valid` cycle, is the model's
choice (log entry 33). That the step's event stands after the other events of
the finishing edge in HIST is the model's choice (log entry 14). -/
def Obligations.ClockEdgesRefinePacketStep : Prop :=
  (∀ (s t u : State) (bytes : List Byte) (es : List Edge) (e : Edge), s.Inv → s.cyc.phase = .packet bytes →
    (∀ x ∈ es, x.rst = false ∧ x.finish = false) → e.rst = false → e.finish = true →
    runEdges (es ++ [e]) s = .next t → runCommand (.pkt bytes) s = .next u →
    t.fb = u.fb ∧ t.stale = u.stale ∧ t.diag = u.diag ∧ t.fatal = u.fatal ∧ t.cause = u.cause ∧
      t.refused = u.refused ∧ t.rsp = u.rsp ∧ t.cyc.rspValid = true ∧ t.cyc.flushAck = false ∧
      (t.cyc.phase = .flush ↔ s.cyc.flushPend = true ∧ t.cyc.fatalPend = []) ∧
      ∃ l, t.hist = s.hist ++ l ++ [.resp u.rsp]) ∧
  (∀ (s t u : State) (es : List Edge) (e : Edge), s.Inv → s.cyc.phase = .flush →
    (∀ x ∈ es, x.rst = false ∧ x.finish = false) → e.rst = false → e.finish = true →
    runEdges (es ++ [e]) s = .next t → runCommand .flush s = .next u →
    t.fb = u.fb ∧ (∀ a, t.seenAt a = [s.fbAt a]) ∧ t.stale = u.stale ∧ t.diag = u.diag ∧ t.fatal = u.fatal ∧
      t.cause = u.cause ∧ t.refused = u.refused ∧ t.rsp = u.rsp ∧ t.cyc.flushAck = true ∧ t.cyc.rspValid = false ∧
      t.cyc.phase = .idle ∧ ∃ l, t.hist = s.hist ++ l ++ [.flushDone]) ∧
  ∀ (s t : State) (e : Edge), s.cyc.phase = .flush → e.rst = false → e.finish = false → clockEdge e s = .next t →
    t.fb = s.fb ∧ t.stale = s.stale ∧ t.cyc.flushAck = false ∧ t.cyc.rspValid = false ∧ t.cyc.phase = .flush ∧
      Event.flushDone ∉ t.hist.drop s.hist.length

/-- R273 and R280 as the cycle level has them, and the reader ports at a clock edge (R118, R282). An unfinished edge of a
packet in progress changes FB at most inside the packet's row, each byte to its new value, and emits no response. A
pending request of a reader that the edge serves is acknowledged and removed, and its reply and Read events are those of
the RD8 or RD16, each byte drawn from SEEN with the row bytes of that edge already in it; one that the edge does not serve
stays. A request of a reader with none pending is latched, and not served at the same edge. At an edge at which a byte of
the row is written, the first one after the packet's acceptance and the finishing one among them, the set a reader so
draws from holds the byte's value before the edge and its new value. (The order within the edge is log entry 14, the time
of the draw log entry 29, that a request in the acknowledge cycle is latched log entry 26, and that the reply register of
a reader that is not served is unchanged log entry 10: these are the model's choices.) -/
def Obligations.UnfinishedEdgeWritesOnlyNewBytes : Prop :=
  (∀ (s t : State) (bytes : List Byte) (e : Edge) (a : Nat), s.Inv → s.cyc.phase = .packet bytes → e.rst = false →
    e.finish = false → clockEdge e s = .next t →
    t.rsp = s.rsp ∧ t.cyc.rspValid = false ∧ t.cyc.phase = .packet bytes ∧ t.diag = s.diag ∧
      (t.fbAt a ≠ s.fbAt a → ∃ r payload, classify s.cfg bytes = .valid r payload ∧ r.toNat < s.cfg.rows ∧
        rowBase s.cfg r.toNat ≤ a ∧ a < rowBase s.cfg r.toNat + s.cfg.rowBytes ∧
        t.fbAt a = payload.getD (a - rowBase s.cfg r.toNat) 0)) ∧
  (∀ (s t : State) (e : Edge) (q : RdReq), s.Inv → e.rst = false → clockEdge e s = .next t →
    (s.cyc.rdPend.find? fun p => p.agent == q.agent) = some q →
    (q.agent ∈ e.serve →
      q.agent ∈ t.cyc.rdAck ∧ (∀ p ∈ t.cyc.rdPend, p.agent ≠ q.agent) ∧
      ∃ reply events before after, (rowProgress e s).answers q reply events ∧ t.rdOut[q.agent]? = some reply ∧
        t.hist = s.hist ++ before ++ events ++ after ∧ ∀ x ∈ before ++ after, x.isReadOf q.agent = false) ∧
    (q.agent ∉ e.serve →
      q.agent ∉ t.cyc.rdAck ∧ q ∈ t.cyc.rdPend ∧ t.rdOut[q.agent]? = s.rdOut[q.agent]?)) ∧
  (∀ (s t : State) (e : Edge) (q : RdReq), e.rst = false → clockEdge e s = .next t →
    (∀ p ∈ s.cyc.rdPend, p.agent ≠ q.agent) → (e.rd.find? fun p => p.agent == q.agent) = some q →
    q.agent ∉ t.cyc.rdAck ∧ q ∈ t.cyc.rdPend ∧ t.rdOut[q.agent]? = s.rdOut[q.agent]?) ∧
  ∀ (s : State) (e : Edge) (bytes payload : List Byte) (r : Byte) (i : Nat), s.cfg.wf → s.cyc.phase = .packet bytes →
    bytes.length = s.cfg.p → classify s.cfg bytes = .valid r payload → r.toNat < s.cfg.rows → i < s.cfg.rowBytes →
    (e.finish = true ∨ e.mask.getD i false = true) →
    s.fbAt (rowBase s.cfg r.toNat + i) ∈ (rowProgress e s).seenAt (rowBase s.cfg r.toNat + i) ∧
      payload.getD i 0 ∈ (rowProgress e s).seenAt (rowBase s.cfg r.toNat + i)
end

