-- ==== Sys2Proof/Laws/Decode.lean ====
section
/-! SUPPORT. Laws of the packet fields, of the parser and of the packet classes. -/

namespace Sys2Proof

/-! ### Byte 0 -/

theorem statusField_byteZero (c : Config) (s x : Nibble) : statusField c (byteZero c s x) = s := by
  cases h : c.nibblePos <;> simp only [statusField, byteZero, h] <;> revert s x <;> decide

theorem spareField_byteZero (c : Config) (s x : Nibble) : spareField c (byteZero c s x) = x := by
  cases h : c.nibblePos <;> simp only [spareField, byteZero, h] <;> revert s x <;> decide

theorem byteZero_fields (c : Config) (b : Byte) : byteZero c (statusField c b) (spareField c b) = b := by
  cases h : c.nibblePos <;> simp only [statusField, spareField, byteZero, h] <;> revert b <;> decide

/-! ### Lengths -/

theorem Config.wf.two_le_p {c : Config} (h : c.wf) : 2 ≤ c.p := by
  obtain ⟨h1, h2, -⟩ := h
  omega

theorem Config.wf.p_eq {c : Config} (h : c.wf) : c.p = c.hdrLen + 2 * c.cols := by
  obtain ⟨h1, -, h3, -⟩ := h
  rw [h1, h3, Nat.mul_comm]

theorem Config.wf.rowBytes_eq {c : Config} (h : c.wf) : c.rowBytes = 2 * c.cols := by
  rw [Config.rowBytes, h.2.2.1, Nat.mul_comm]

theorem Config.fbSize_eq (c : Config) : c.fbSize = c.rows * c.rowBytes := by
  rw [Config.fbSize, Config.rowBytes, Nat.mul_assoc]

/-- A row of an in-range index lies inside FB (R163). -/
theorem Config.row_inside {c : Config} {r n : Nat} (hr : r < c.rows) (hn : n = c.rowBytes) :
    r * c.rowBytes + n ≤ c.fbSize := by
  subst hn
  have h : (r + 1) * c.rowBytes ≤ c.rows * c.rowBytes := Nat.mul_le_mul_right _ hr
  have e : c.fbSize = c.rows * c.rowBytes := by rw [Config.fbSize, Config.rowBytes, Nat.mul_assoc]
  rw [e]
  calc r * c.rowBytes + c.rowBytes = (r + 1) * c.rowBytes := by ring
    _ ≤ _ := h

theorem Packet.lengthOk_iff {c : Config} {p : Packet} :
    p.lengthOk c = true ↔ p.hdr.length + 2 = c.hdrLen ∧ p.payload.length + c.hdrLen = c.p := by
  simp [Packet.lengthOk]

theorem Packet.payload_length {c : Config} {p : Packet} (hc : c.wf) (h : p.lengthOk c = true) :
    p.payload.length = c.rowBytes := by
  have h1 := (Packet.lengthOk_iff.mp h).2
  have h2 := hc.1
  unfold Config.rowBytes
  omega

theorem Packet.bytes_length {c : Config} {p : Packet} (h : p.lengthOk c = true) : (p.bytes c).length = c.p := by
  obtain ⟨h1, h2⟩ := Packet.lengthOk_iff.mp h
  simp [Packet.bytes]
  omega

/-! ### Parsing -/

/-- A packet's bytes parse to the packet. -/
theorem parsePacket_bytes {c : Config} {p : Packet} (h : p.lengthOk c = true) :
    parsePacket c (p.bytes c) = some p := by
  obtain ⟨h1, -⟩ := Packet.lengthOk_iff.mp h
  have e : c.hdrLen - 2 = p.hdr.length := by omega
  simp [parsePacket, Packet.bytes, statusField_byteZero, spareField_byteZero, e]

/-- P bytes parse, to a packet of the right lengths that has these bytes. -/
theorem parsePacket_of_length {c : Config} {bytes : List Byte} (hc : c.wf) (h : bytes.length = c.p) :
    ∃ p, parsePacket c bytes = some p ∧ p.bytes c = bytes ∧ p.lengthOk c = true := by
  have h2 := hc.2.1
  have hp := hc.1
  match bytes, h with
  | [], h => simp at h; omega
  | [b], h => simp at h; omega
  | b0 :: b1 :: rest, h =>
    refine ⟨_, rfl, ?_, ?_⟩
    · simp [Packet.bytes, byteZero_fields]
    · rw [Packet.lengthOk_iff]
      simp at h ⊢
      omega

/-! ### Classes -/

theorem Packet.isDiscard_iff {c : Config} {p : Packet} : p.isDiscard c = true ↔ p.status.toNat = c.discardValue := by
  simp [Packet.isDiscard]

theorem Packet.cls_discard_iff {c : Config} {p : Packet} :
    p.cls c = .discard ↔ p.status.toNat = c.discardValue := by
  unfold Packet.cls
  split
  · simpa
  · split
    · simpa
    · split <;> simpa

theorem Packet.cls_oor_iff {c : Config} {p : Packet} :
    p.cls c = .oor ↔ p.status.toNat ≠ c.discardValue ∧ c.rows ≤ p.row.toNat := by
  unfold Packet.cls
  split
  · simp [*]
  · split
    · simp [*]
    · split
      · simp [*]; omega
      · simp [*]

theorem Packet.cls_last_iff {c : Config} {p : Packet} :
    p.cls c = .last ↔ p.status.toNat ≠ c.discardValue ∧ p.row.toNat + 1 = c.rows := by
  unfold Packet.cls
  split
  · simp [*]
  · split
    · simp [*]; omega
    · split
      · simp [*]; omega
      · simp [*]; omega

theorem Packet.cls_row_iff {c : Config} {p : Packet} :
    p.cls c = .row ↔ p.status.toNat ≠ c.discardValue ∧ p.row.toNat + 1 < c.rows := by
  unfold Packet.cls
  split
  · simp [*]
  · split
    · simp [*]; omega
    · split
      · simp [*]; omega
      · simp [*]; omega

/-- The instruction of a packet's own class is well-formed. -/
theorem Instr.wf_ofClass {c : Config} {p : Packet} (h : p.lengthOk c = true) :
    (Instr.ofClass p (p.cls c)).wf c = true := by
  cases hcls : p.cls c
  · simp [Instr.ofClass, Instr.wf, h, Packet.isDiscard, Packet.cls_discard_iff.mp hcls]
  · simp [Instr.ofClass, Instr.wf, h, Packet.isDiscard, Packet.cls_oor_iff.mp hcls]
  · simp [Instr.ofClass, Instr.wf, h, Packet.isDiscard, Packet.cls_last_iff.mp hcls]
  · simp [Instr.ofClass, Instr.wf, h, Packet.isDiscard, Packet.cls_row_iff.mp hcls]

theorem Instr.wf_pktDiscard {c : Config} {p : Packet} :
    (Instr.pktDiscard p).wf c = true ↔ p.lengthOk c = true ∧ p.cls c = .discard := by
  simp [Instr.wf, Packet.isDiscard, Packet.cls_discard_iff]

theorem Instr.wf_pktOor {c : Config} {p : Packet} :
    (Instr.pktOor p).wf c = true ↔ p.lengthOk c = true ∧ p.cls c = .oor := by
  simp [Instr.wf, Packet.isDiscard, Packet.cls_oor_iff, and_assoc]

theorem Instr.wf_pktLast {c : Config} {p : Packet} :
    (Instr.pktLast p).wf c = true ↔ p.lengthOk c = true ∧ p.cls c = .last := by
  simp [Instr.wf, Packet.isDiscard, Packet.cls_last_iff, and_assoc]

theorem Instr.wf_pktRow {c : Config} {p : Packet} :
    (Instr.pktRow p).wf c = true ↔ p.lengthOk c = true ∧ p.cls c = .row := by
  simp [Instr.wf, Packet.isDiscard, Packet.cls_row_iff, and_assoc]

/-- The classifier over the bytes of a packet (R130). -/
theorem classify_bytes {c : Config} {p : Packet} (hc : c.wf) (h : p.lengthOk c = true) :
    classify c (p.bytes c) =
      if p.status.toNat = c.discardValue then .discard else .valid p.row p.payload := by
  obtain ⟨h1, h2⟩ := Packet.lengthOk_iff.mp h
  have hp := hc.p_eq
  have e : c.hdrLen = p.hdr.length + 2 := by omega
  have hl : p.payload.length = 2 * c.cols := by omega
  have hdrop : (p.bytes c).drop c.hdrLen = p.payload := by
    rw [e]
    simp [Packet.bytes]
  unfold classify
  rw [hdrop, ← hl, List.take_length]
  simp [pktByte, Packet.bytes, statusField_byteZero]

/-- R136 and R107 name the same class. -/
theorem pktClass_bytes {c : Config} {p : Packet} (hc : c.wf) (h : p.lengthOk c = true) :
    pktClass c (p.bytes c) = p.cls c := by
  have hr := hc.2.2.2.1.1
  unfold pktClass
  rw [classify_bytes hc h]
  by_cases hd : p.status.toNat = c.discardValue
  · simp [hd, Packet.cls]
  · simp only [hd, if_false, inRange, Packet.cls]
    by_cases ho : c.rows ≤ p.row.toNat
    · simp [ho, Nat.not_lt.mpr ho]
    · have : p.row.toNat + 1 = c.rows ↔ p.row.toNat = c.rows - 1 := by omega
      simp [ho, Nat.not_le.mp ho, this]

/-- What the packet port decodes to (R108, R120). -/
theorem decodePacket_of_length {c : Config} {bytes : List Byte} (hc : c.wf) (h : bytes.length = c.p) :
    ∃ p, p.bytes c = bytes ∧ p.lengthOk c = true ∧ decodePacket c bytes = .ok (Instr.ofClass p (p.cls c)) := by
  obtain ⟨p, h1, h2, h3⟩ := parsePacket_of_length hc h
  exact ⟨p, h2, h3, by simp [decodePacket, h, h1]⟩

theorem decodePacket_bytes {c : Config} {p : Packet} (h : p.lengthOk c = true) :
    decodePacket c (p.bytes c) = .ok (Instr.ofClass p (p.cls c)) := by
  simp [decodePacket, Packet.bytes_length h, parsePacket_bytes h]

end Sys2Proof
end

