-- ==== Sys2Proof/Laws/Memory.lean ====
section
/-! SUPPORT. Laws of the frame-buffer memory and of the SEEN sets: read after write, canonical form kept, and what a write does to SEEN. -/

namespace Sys2Proof.Machine

namespace Mem

theorem read_of_not_mem {m : Mem} {a : Nat} (h : ∀ c ∈ m, c.1 ≠ a) : m.read a = 0#8 := by
  induction m with
  | nil => rfl
  | cons c m ih =>
    obtain ⟨k, v⟩ := c
    have hk : k ≠ a := h (k, v) (by simp)
    simp only [read, if_neg hk]
    exact ih fun c hc => h c (by simp [hc])

theorem read_append_of_not_mem {m n : Mem} {a : Nat} (h : ∀ c ∈ m, c.1 ≠ a) : read (m ++ n) a = n.read a := by
  induction m with
  | nil => rfl
  | cons c m ih =>
    obtain ⟨k, v⟩ := c
    have hk : k ≠ a := h (k, v) (by simp)
    simp only [List.cons_append, read, if_neg hk]
    exact ih fun c hc => h c (by simp [hc])

theorem read_append_of_not_mem_right {m n : Mem} {a : Nat} (h : ∀ c ∈ n, c.1 ≠ a) : read (m ++ n) a = m.read a := by
  induction m with
  | nil => simpa [read] using read_of_not_mem h
  | cons c m ih =>
    obtain ⟨k, v⟩ := c
    by_cases hk : k = a <;> simp [read, hk, ih]

theorem read_filter {m : Mem} {a : Nat} {f : Host.Cell → Bool} (h : ∀ v, f (a, v) = true) :
    read (m.filter f) a = m.read a := by
  induction m with
  | nil => rfl
  | cons c m ih =>
    obtain ⟨k, v⟩ := c
    by_cases hk : k = a
    · subst hk; simp [read, h]
    · by_cases hf : f (k, v) = true <;> simp [read, hk, hf, ih]

theorem mem_cells {a : Nat} {bs : List Byte} {c : Host.Cell} (h : c ∈ cells a bs) :
    a ≤ c.1 ∧ c.1 < a + bs.length ∧ c.2 ≠ 0#8 := by
  induction bs generalizing a with
  | nil => simp [cells] at h
  | cons b bs ih =>
    simp only [cells] at h
    split at h
    · obtain ⟨h1, h2, h3⟩ := ih h
      exact ⟨by omega, by simp; omega, h3⟩
    · rcases List.mem_cons.mp h with rfl | h
      · exact ⟨le_refl _, by simp, by assumption⟩
      · obtain ⟨h1, h2, h3⟩ := ih h
        exact ⟨by omega, by simp; omega, h3⟩

theorem read_cells (a : Nat) (bs : List Byte) (x : Nat) :
    read (cells a bs) x = if a ≤ x ∧ x < a + bs.length then bs.getD (x - a) 0#8 else 0#8 := by
  induction bs generalizing a with
  | nil => simp [cells, read]
  | cons b bs ih =>
    rcases Nat.lt_trichotomy x a with hx | rfl | hx
    · rw [if_neg (by omega)]
      refine read_of_not_mem fun c hc => ?_
      have := (mem_cells hc).1
      omega
    · simp only [cells]
      split
      · rename_i hb
        rw [ih]
        simp [hb]
      · simp [read]
    · have e : x - a = (x - (a + 1)) + 1 := by omega
      have hrec : read (cells (a + 1) bs) x =
          if a ≤ x ∧ x < a + (b :: bs).length then (b :: bs).getD (x - a) 0#8 else 0#8 := by
        rw [ih, e]
        by_cases h : x < a + 1 + bs.length
        · rw [if_pos ⟨by omega, h⟩, if_pos ⟨by omega, by simp; omega⟩]; simp
        · rw [if_neg (by omega), if_neg (by simp; omega)]
      simp only [cells]
      split
      · exact hrec
      · simp only [read, if_neg (show a ≠ x by omega)]; exact hrec

/-- Read after write (R14, R164): the bytes written, and every other byte as it was. -/
theorem read_write (m : Mem) (a : Nat) (bs : List Byte) (x : Nat) :
    (m.write a bs).read x = if a ≤ x ∧ x < a + bs.length then bs.getD (x - a) 0#8 else m.read x := by
  unfold write
  by_cases h : a ≤ x ∧ x < a + bs.length
  · rw [if_pos h, List.append_assoc, read_append_of_not_mem, read_append_of_not_mem_right, read_cells, if_pos h]
    · intro c hc
      have := (List.mem_filter.mp hc).2
      simp at this
      omega
    · intro c hc
      have := (List.mem_filter.mp hc).2
      simp at this
      omega
  · rw [if_neg h]
    rcases Nat.lt_or_ge x a with hx | hx
    · rw [List.append_assoc, read_append_of_not_mem_right, read_filter]
      · simp [hx]
      · intro c hc
        rcases List.mem_append.mp hc with hc | hc
        · have := (mem_cells hc).1
          omega
        · have := (List.mem_filter.mp hc).2
          simp at this
          omega
    · rw [read_append_of_not_mem, read_filter]
      · simp; omega
      · intro c hc
        rcases List.mem_append.mp hc with hc | hc
        · have := (List.mem_filter.mp hc).2
          simp at this
          omega
        · have := (mem_cells hc).2.1
          omega

theorem read_write_inside {m : Mem} {a : Nat} {bs : List Byte} {i : Nat} (h : i < bs.length) :
    (m.write a bs).read (a + i) = bs.getD i 0#8 := by
  rw [read_write, if_pos ⟨by omega, by omega⟩]
  congr 1
  omega

theorem read_write_outside {m : Mem} {a : Nat} {bs : List Byte} {x : Nat} (h : x < a ∨ a + bs.length ≤ x) :
    (m.write a bs).read x = m.read x := by
  rw [read_write, if_neg (by omega)]

theorem cells_sorted (a : Nat) (bs : List Byte) : (cells a bs).Pairwise fun c d => c.1 < d.1 := by
  induction bs generalizing a with
  | nil => exact List.Pairwise.nil
  | cons b bs ih =>
    simp only [cells]
    split
    · exact ih _
    · refine List.Pairwise.cons (fun c hc => ?_) (ih _)
      have := (mem_cells hc).1
      simp
      omega

theorem wf_cells {size a : Nat} {bs : List Byte} (h : a + bs.length ≤ size) : wf size (cells a bs) :=
  ⟨cells_sorted a bs, fun c hc => ⟨by have := (mem_cells hc).2.1; omega, (mem_cells hc).2.2⟩⟩

/-- A write inside the buffer keeps the canonical form. -/
theorem wf_write {size : Nat} {m : Mem} {a : Nat} {bs : List Byte} (hm : wf size m) (h : a + bs.length ≤ size) :
    wf size (m.write a bs) := by
  obtain ⟨hs, hv⟩ := hm
  constructor
  · unfold write
    rw [List.pairwise_append, List.pairwise_append]
    refine ⟨⟨hs.filter _, cells_sorted a bs, ?_⟩, hs.filter _, ?_⟩
    · intro c hc d hd
      have h1 := (List.mem_filter.mp hc).2
      have h2 := (mem_cells hd).1
      simp at h1
      omega
    · intro c hc d hd
      have h2 := (List.mem_filter.mp hd).2
      simp at h2
      rcases List.mem_append.mp hc with hc | hc
      · have h1 := (List.mem_filter.mp hc).2
        simp at h1
        omega
      · have h1 := (mem_cells hc).2.1
        omega
  · intro c hc
    unfold write at hc
    rcases List.mem_append.mp hc with hc | hc
    · rcases List.mem_append.mp hc with hc | hc
      · exact hv c (List.mem_of_mem_filter hc)
      · exact ⟨by have := (mem_cells hc).2.1; omega, (mem_cells hc).2.2⟩
    · exact hv c (List.mem_of_mem_filter hc)

theorem read_of_mem {m : Mem} (hs : m.Pairwise fun c d => c.1 < d.1) {c : Host.Cell} (h : c ∈ m) : m.read c.1 = c.2 := by
  induction m with
  | nil => simp at h
  | cons d m ih =>
    obtain ⟨k, v⟩ := d
    obtain ⟨hd, hm⟩ := List.pairwise_cons.mp hs
    rcases List.mem_cons.mp h with rfl | h
    · simp [read]
    · have := hd c h
      simp only [read, if_neg (show k ≠ c.1 by simp at this; omega)]
      exact ih hm h

/-- Two canonical memories with the same bytes are the same list. -/
theorem ext {size : Nat} {m n : Mem} (hm : wf size m) (hn : wf size n) (h : ∀ a, m.read a = n.read a) : m = n := by
  have key : ∀ {m n : Mem}, wf size m → wf size n → (∀ a, m.read a = n.read a) → ∀ c ∈ m, c ∈ n := by
    intro m n hm hn h c hc
    have h1 := read_of_mem hm.1 hc
    have h0 := (hm.2 c hc).2
    by_contra hcn
    have hnot : n.read c.1 ≠ c.2 := by
      intro e
      by_cases hex : ∃ d ∈ n, d.1 = c.1
      · obtain ⟨d, hd, hdc⟩ := hex
        have := read_of_mem hn.1 hd
        rw [hdc, e] at this
        exact hcn (by rw [show c = d from Prod.ext hdc.symm this]; exact hd)
      · push Not at hex
        rw [read_of_not_mem hex] at e
        exact h0 e.symm
    exact hnot (by rw [← h]; exact h1)
  refine List.Perm.eq_of_pairwise (le := fun c d => c.1 < d.1) (fun a b _ _ h1 h2 => absurd h1 (by omega)) hm.1 hn.1 ?_
  refine (List.perm_ext_iff_of_nodup ?_ ?_).mpr fun c => ⟨key hm hn h c, key hn hm (fun a => (h a).symm) c⟩
  · exact hm.1.imp fun {c d} hcd => by rintro rfl; omega
  · exact hn.1.imp fun {c d} hcd => by rintro rfl; omega

theorem length_readBytes (m : Mem) (a n : Nat) : (readBytes m a n).length = n := by
  induction n generalizing a with
  | zero => rfl
  | succ n ih => simp [readBytes, ih]

theorem getD_readBytes (m : Mem) (a n i : Nat) (h : i < n) : (readBytes m a n).getD i 0#8 = m.read (a + i) := by
  induction n generalizing a i with
  | zero => omega
  | succ n ih =>
    cases i with
    | zero => simp [readBytes]
    | succ i =>
      simp only [readBytes, List.getD_cons_succ]
      rw [ih (a + 1) i (by omega)]
      congr 1
      omega

/-- Writing over a range again leaves what the second write alone would leave. -/
theorem write_write (m : Mem) (a : Nat) (bs cs : List Byte) (h : bs.length = cs.length) :
    (m.write a bs).write a cs = m.write a cs := by
  have e1 : (cells a bs).filter (fun c => decide (c.1 < a)) = [] := by
    rw [List.filter_eq_nil_iff]
    intro c hc
    have := (mem_cells hc).1
    simp
    omega
  have e2 : (cells a bs).filter (fun c => decide (a + cs.length ≤ c.1)) = [] := by
    rw [List.filter_eq_nil_iff]
    intro c hc
    have := (mem_cells hc).2.1
    simp
    omega
  have e3 : (m.filter (fun c => decide (a + bs.length ≤ c.1))).filter (fun c => decide (c.1 < a)) = [] := by
    rw [List.filter_eq_nil_iff]
    intro c hc
    have := (List.mem_filter.mp hc).2
    simp at this ⊢
    omega
  have e4 : (m.filter (fun c => decide (c.1 < a))).filter (fun c => decide (a + cs.length ≤ c.1)) = [] := by
    rw [List.filter_eq_nil_iff]
    intro c hc
    have := (List.mem_filter.mp hc).2
    simp at this ⊢
    omega
  unfold write
  simp only [List.filter_append, e1, e2, e3, e4, List.append_nil, List.nil_append]
  rw [h]
  simp

end Mem

/-! ### SEEN -/

theorem mem_insertByte {v w : Byte} {l : List Byte} : w ∈ insertByte v l ↔ w = v ∨ w ∈ l := by
  induction l with
  | nil => simp [insertByte]
  | cons x l ih =>
    simp only [insertByte]
    split
    · simp
    · split
      · rename_i h; subst h; simp
      · simp [ih]; tauto

theorem insertByte_sorted {v : Byte} {l : List Byte} (h : l.Pairwise fun x y => x.toNat < y.toNat) :
    (insertByte v l).Pairwise fun x y => x.toNat < y.toNat := by
  induction l with
  | nil => simp [insertByte]
  | cons x l ih =>
    obtain ⟨hx, hl⟩ := List.pairwise_cons.mp h
    simp only [insertByte]
    split
    · rename_i hv
      refine List.Pairwise.cons (fun y hy => ?_) h
      rcases List.mem_cons.mp hy with rfl | hy
      · exact hv
      · have := hx y hy; omega
    · split
      · exact h
      · rename_i hv hne
        refine List.Pairwise.cons (fun y hy => ?_) (ih hl)
        rcases mem_insertByte.mp hy with rfl | hy
        · have : x.toNat ≠ y.toNat := fun e => hne (BitVec.eq_of_toNat_eq e.symm)
          omega
        · exact hx y hy

theorem filter_insertByte (v : Byte) (l : List Byte) :
    (insertByte v l).filter (fun w => w ≠ v) = l.filter (fun w => w ≠ v) := by
  induction l with
  | nil => simp [insertByte]
  | cons x l ih =>
    simp only [insertByte]
    split
    · simp
    · split
      · rfl
      · simp only [List.filter_cons, ih]

namespace Stale

theorem mem_valuesAt {st : Stale} {a : Nat} {v : Byte} : v ∈ st.valuesAt a ↔ (a, v) ∈ st := by
  unfold valuesAt
  simp only [List.mem_map, List.mem_filter, decide_eq_true_eq]
  constructor
  · rintro ⟨⟨x, w⟩, ⟨h1, rfl⟩, rfl⟩
    exact h1
  · intro h
    exact ⟨(a, v), ⟨h, rfl⟩, rfl⟩

theorem mem_seen {fb : Mem} {st : Stale} {a : Nat} {v : Byte} : v ∈ seen fb st a ↔ v = fb.read a ∨ (a, v) ∈ st := by
  unfold seen
  rw [mem_insertByte, mem_valuesAt]

theorem valuesAt_sorted {st : Stale} (h : st.Pairwise before) (a : Nat) :
    (st.valuesAt a).Pairwise fun x y => x.toNat < y.toNat := by
  unfold valuesAt
  rw [List.pairwise_map]
  refine List.Pairwise.imp_of_mem (fun {x y} hx hy hxy => ?_) (h.filter _)
  have h1 := (List.mem_filter.mp hx).2
  have h2 := (List.mem_filter.mp hy).2
  simp at h1 h2
  rcases hxy with hxy | hxy
  · omega
  · exact hxy.2

theorem seen_sorted {fb : Mem} {st : Stale} (h : st.Pairwise before) (a : Nat) :
    (seen fb st a).Pairwise fun x y => x.toNat < y.toNat := insertByte_sorted (valuesAt_sorted h a)

theorem mem_cells {fb : Mem} {st : Stale} {a : Nat} {bs : List Byte} {x : Nat} {v : Byte} :
    (x, v) ∈ cells fb st a bs ↔
      (a ≤ x ∧ x < a + bs.length) ∧ v ∈ seen fb st x ∧ v ≠ bs.getD (x - a) 0#8 := by
  induction bs generalizing a with
  | nil => simp only [cells, List.length_nil]; constructor
           · simp
           · rintro ⟨h, -⟩; omega
  | cons b bs ih =>
    simp only [cells, List.mem_append, List.mem_map, List.mem_filter, ih]
    constructor
    · rintro (⟨w, ⟨hw, hwb⟩, he⟩ | ⟨⟨h1, h2⟩, h3, h4⟩)
      · obtain ⟨rfl, rfl⟩ := Prod.mk.inj he
        refine ⟨⟨le_refl _, by simp⟩, hw, ?_⟩
        simpa using hwb
      · refine ⟨⟨by omega, by simp; omega⟩, h3, ?_⟩
        rwa [show x - a = (x - (a + 1)) + 1 by omega, List.getD_cons_succ]
    · rintro ⟨⟨h1, h2⟩, h3, h4⟩
      rcases Nat.eq_or_lt_of_le h1 with rfl | h1
      · left
        exact ⟨v, ⟨h3, by simpa using h4⟩, rfl⟩
      · right
        refine ⟨⟨h1, by simp at h2; omega⟩, h3, ?_⟩
        rwa [show x - a = (x - (a + 1)) + 1 by omega, List.getD_cons_succ] at h4

/-- What a write does to the listed pairs (R78). -/
theorem mem_write {fb : Mem} {st : Stale} {a : Nat} {bs : List Byte} {x : Nat} {v : Byte} :
    (x, v) ∈ write fb st a bs ↔
      if a ≤ x ∧ x < a + bs.length then (v = fb.read x ∨ (x, v) ∈ st) ∧ v ≠ bs.getD (x - a) 0#8 else (x, v) ∈ st := by
  unfold write
  simp only [List.mem_append, mem_cells, mem_seen, List.mem_filter]
  split
  · rename_i h
    have hr : Mem.read (fb.filter (fun c => a ≤ c.1 && decide (c.1 < a + bs.length))) x = fb.read x :=
      Mem.read_filter (by simp [h])
    rw [hr]
    simp only [h, decide_true, Bool.and_self, and_true, true_and, decide_eq_true_eq,
      show ¬ x < a by omega, show ¬ a + bs.length ≤ x by omega, and_false, false_or, or_false, and_self]
  · rename_i h
    constructor
    · rintro ((h1 | h1) | h1)
      · exact h1.1
      · exact absurd h1.1 h
      · exact h1.1
    · intro h1
      rcases Nat.lt_or_ge x a with hx | hx
      · left; left; exact ⟨h1, by simpa using hx⟩
      · right; exact ⟨h1, by simp; omega⟩

/-- SEEN after a write is SEEN with the written values added (R78). -/
theorem mem_seen_write {fb : Mem} {st : Stale} {a : Nat} {bs : List Byte} {x : Nat} {v : Byte} :
    v ∈ seen (fb.write a bs) (write fb st a bs) x ↔
      v ∈ seen fb st x ∨ (a ≤ x ∧ x < a + bs.length) ∧ v = bs.getD (x - a) 0#8 := by
  rw [mem_seen, mem_seen, mem_write, Mem.read_write]
  split
  · rename_i h
    by_cases hv : v = bs.getD (x - a) 0#8 <;> simp [h, hv] <;> tauto
  · rename_i h
    simp [h]

theorem cells_sorted {fb : Mem} {st : Stale} (h : st.Pairwise before) (a : Nat) (bs : List Byte) :
    (cells fb st a bs).Pairwise before := by
  induction bs generalizing a with
  | nil => exact List.Pairwise.nil
  | cons b bs ih =>
    simp only [cells]
    rw [List.pairwise_append]
    refine ⟨?_, ih _, ?_⟩
    · rw [List.pairwise_map]
      exact ((seen_sorted h a).filter _).imp fun hxy => Or.inr ⟨rfl, hxy⟩
    · rintro ⟨x, v⟩ hx ⟨y, w⟩ hy
      obtain ⟨u, -, he⟩ := List.mem_map.mp hx
      obtain ⟨rfl, -⟩ := Prod.mk.inj he
      have := (mem_cells.mp hy).1.1
      left
      simp
      omega

/-- A write inside the buffer keeps the canonical form of SEEN, against the new contents. -/
theorem wf_write {size : Nat} {fb : Mem} {st : Stale} {a : Nat} {bs : List Byte} (hs : wf size fb st)
    (h : a + bs.length ≤ size) : wf size (fb.write a bs) (write fb st a bs) := by
  obtain ⟨hp, hv⟩ := hs
  constructor
  · unfold write
    rw [List.pairwise_append, List.pairwise_append]
    refine ⟨⟨hp.filter _, cells_sorted (hp.filter _) a bs, ?_⟩, hp.filter _, ?_⟩
    · rintro ⟨x, v⟩ hx ⟨y, w⟩ hy
      have h1 := (List.mem_filter.mp hx).2
      have h2 := (mem_cells.mp hy).1.1
      simp at h1
      left; simp; omega
    · rintro ⟨x, v⟩ hx ⟨y, w⟩ hy
      have h2 := (List.mem_filter.mp hy).2
      simp at h2
      left
      rcases List.mem_append.mp hx with hx | hx
      · have h1 := (List.mem_filter.mp hx).2
        simp at h1
        simp; omega
      · have h1 := (mem_cells.mp hx).1.2
        simp; omega
  · rintro ⟨x, v⟩ hx
    rw [mem_write] at hx
    simp only
    rw [Mem.read_write]
    split at hx
    · rename_i hin
      rw [if_pos hin]
      exact ⟨by omega, hx.2⟩
    · rename_i hin
      rw [if_neg hin]
      exact hv _ hx

/-- Two canonical lists with the same pairs are the same list. -/
theorem ext {st st' : Stale} (h : st.Pairwise before) (h' : st'.Pairwise before)
    (hm : ∀ x v, (x, v) ∈ st ↔ (x, v) ∈ st') : st = st' := by
  have irr : ∀ {e f : Nat × Byte}, before e f → e ≠ f := by
    rintro e f hef rfl
    rcases hef with h | h
    · omega
    · omega
  refine List.Perm.eq_of_pairwise (le := before) (fun e f _ _ h1 h2 => ?_) h h' ?_
  · exfalso
    rcases h1 with h1 | h1 <;> rcases h2 with h2 | h2 <;> omega
  · exact (List.perm_ext_iff_of_nodup (h.imp irr) (h'.imp irr)).mpr fun e => hm e.1 e.2

theorem wf_nil (size : Nat) (fb : Mem) : wf size fb [] := ⟨List.Pairwise.nil, by simp⟩

end Stale

/-! ### Rows partly written -/

namespace State

theorem length_mixBytes (os ns : List Byte) (ms : List Bool) : (mixBytes os ns ms).length = os.length := by
  induction os generalizing ns ms with
  | nil => cases ns <;> cases ms <;> rfl
  | cons o os ih =>
    cases ns with
    | nil => rfl
    | cons n ns =>
      cases ms with
      | nil => rfl
      | cons m ms => simp [mixBytes, ih]

/-- Byte `i` of a partly written row: the new one where the mask has a bit, else the old one (R273). -/
theorem getD_mixBytes (os ns : List Byte) (ms : List Bool) (i : Nat) (h : i < os.length) (hn : os.length = ns.length) :
    (mixBytes os ns ms).getD i 0#8 = if ms.getD i false then ns.getD i 0#8 else os.getD i 0#8 := by
  induction os generalizing ns ms i with
  | nil => simp at h
  | cons o os ih =>
    cases ns with
    | nil => simp at hn
    | cons n ns =>
      cases ms with
      | nil => simp [mixBytes]
      | cons m ms =>
        cases i with
        | zero => simp [mixBytes]
        | succ i =>
          simp only [mixBytes, List.getD_cons_succ]
          exact ih ns ms i (by simpa using h) (by simpa using hn)

end State

end Sys2Proof.Machine
end

