-- ==== Sys2Proof/Laws/State.lean ====
section
/-! SUPPORT. One lemma per field for each update of State, so that no proof unfolds a record update, and the accessors of memory after each. -/

namespace Sys2Proof.Machine
namespace State

variable (s : State)

/-! ### emit -/

@[simp] theorem emit_cfg (e : Event) : (s.emit e).cfg = s.cfg := rfl
@[simp] theorem emit_fb (e : Event) : (s.emit e).fb = s.fb := rfl
@[simp] theorem emit_stale (e : Event) : (s.emit e).stale = s.stale := rfl
@[simp] theorem emit_fatal (e : Event) : (s.emit e).fatal = s.fatal := rfl
@[simp] theorem emit_cause (e : Event) : (s.emit e).cause = s.cause := rfl
@[simp] theorem emit_diag (e : Event) : (s.emit e).diag = s.diag := rfl
@[simp] theorem emit_refused (e : Event) : (s.emit e).refused = s.refused := rfl
@[simp] theorem emit_hist (e : Event) : (s.emit e).hist = s.hist ++ [e] := rfl
@[simp] theorem emit_rsp (e : Event) : (s.emit e).rsp = s.rsp := rfl
@[simp] theorem emit_rdOut (e : Event) : (s.emit e).rdOut = s.rdOut := rfl
@[simp] theorem emit_diagIdx (e : Event) : (s.emit e).diagIdx = s.diagIdx := rfl
@[simp] theorem emit_cyc (e : Event) : (s.emit e).cyc = s.cyc := rfl
@[simp] theorem emit_host (e : Event) : (s.emit e).host = s.host := rfl
@[simp] theorem emit_hostUp (e : Event) : (s.emit e).hostUp = s.hostUp := rfl
@[simp] theorem emit_inputs (e : Event) : (s.emit e).inputs = s.inputs := rfl
@[simp] theorem emit_draws (e : Event) : (s.emit e).draws = s.draws := rfl

/-! ### refuse -/

@[simp] theorem refuse_cfg : (s.refuse).cfg = s.cfg := rfl
@[simp] theorem refuse_fb : (s.refuse).fb = s.fb := rfl
@[simp] theorem refuse_stale : (s.refuse).stale = s.stale := rfl
@[simp] theorem refuse_fatal : (s.refuse).fatal = s.fatal := rfl
@[simp] theorem refuse_cause : (s.refuse).cause = s.cause := rfl
@[simp] theorem refuse_diag : (s.refuse).diag = s.diag := rfl
@[simp] theorem refuse_refused : (s.refuse).refused = true := rfl
@[simp] theorem refuse_hist : (s.refuse).hist = s.hist := rfl
@[simp] theorem refuse_rsp : (s.refuse).rsp = s.rsp := rfl
@[simp] theorem refuse_rdOut : (s.refuse).rdOut = s.rdOut := rfl
@[simp] theorem refuse_diagIdx : (s.refuse).diagIdx = s.diagIdx := rfl
@[simp] theorem refuse_cyc : (s.refuse).cyc = s.cyc := rfl
@[simp] theorem refuse_host : (s.refuse).host = s.host := rfl
@[simp] theorem refuse_hostUp : (s.refuse).hostUp = s.hostUp := rfl
@[simp] theorem refuse_inputs : (s.refuse).inputs = s.inputs := rfl
@[simp] theorem refuse_draws : (s.refuse).draws = s.draws := rfl

/-! ### memWrite -/

@[simp] theorem memWrite_cfg (a : Nat) (bs : List Byte) : (s.memWrite a bs).cfg = s.cfg := rfl
@[simp] theorem memWrite_fb (a : Nat) (bs : List Byte) : (s.memWrite a bs).fb = Mem.write s.fb a bs := rfl
@[simp] theorem memWrite_stale (a : Nat) (bs : List Byte) : (s.memWrite a bs).stale = Stale.write s.fb s.stale a bs := rfl
@[simp] theorem memWrite_fatal (a : Nat) (bs : List Byte) : (s.memWrite a bs).fatal = s.fatal := rfl
@[simp] theorem memWrite_cause (a : Nat) (bs : List Byte) : (s.memWrite a bs).cause = s.cause := rfl
@[simp] theorem memWrite_diag (a : Nat) (bs : List Byte) : (s.memWrite a bs).diag = s.diag := rfl
@[simp] theorem memWrite_refused (a : Nat) (bs : List Byte) : (s.memWrite a bs).refused = s.refused := rfl
@[simp] theorem memWrite_hist (a : Nat) (bs : List Byte) : (s.memWrite a bs).hist = s.hist := rfl
@[simp] theorem memWrite_rsp (a : Nat) (bs : List Byte) : (s.memWrite a bs).rsp = s.rsp := rfl
@[simp] theorem memWrite_rdOut (a : Nat) (bs : List Byte) : (s.memWrite a bs).rdOut = s.rdOut := rfl
@[simp] theorem memWrite_diagIdx (a : Nat) (bs : List Byte) : (s.memWrite a bs).diagIdx = s.diagIdx := rfl
@[simp] theorem memWrite_cyc (a : Nat) (bs : List Byte) : (s.memWrite a bs).cyc = s.cyc := rfl
@[simp] theorem memWrite_host (a : Nat) (bs : List Byte) : (s.memWrite a bs).host = s.host := rfl
@[simp] theorem memWrite_hostUp (a : Nat) (bs : List Byte) : (s.memWrite a bs).hostUp = s.hostUp := rfl
@[simp] theorem memWrite_inputs (a : Nat) (bs : List Byte) : (s.memWrite a bs).inputs = s.inputs := rfl
@[simp] theorem memWrite_draws (a : Nat) (bs : List Byte) : (s.memWrite a bs).draws = s.draws := rfl

/-! ### clearSeen -/

@[simp] theorem clearSeen_cfg : (s.clearSeen).cfg = s.cfg := rfl
@[simp] theorem clearSeen_fb : (s.clearSeen).fb = s.fb := rfl
@[simp] theorem clearSeen_stale : (s.clearSeen).stale = [] := rfl
@[simp] theorem clearSeen_fatal : (s.clearSeen).fatal = s.fatal := rfl
@[simp] theorem clearSeen_cause : (s.clearSeen).cause = s.cause := rfl
@[simp] theorem clearSeen_diag : (s.clearSeen).diag = s.diag := rfl
@[simp] theorem clearSeen_refused : (s.clearSeen).refused = s.refused := rfl
@[simp] theorem clearSeen_hist : (s.clearSeen).hist = s.hist := rfl
@[simp] theorem clearSeen_rsp : (s.clearSeen).rsp = s.rsp := rfl
@[simp] theorem clearSeen_rdOut : (s.clearSeen).rdOut = s.rdOut := rfl
@[simp] theorem clearSeen_diagIdx : (s.clearSeen).diagIdx = s.diagIdx := rfl
@[simp] theorem clearSeen_cyc : (s.clearSeen).cyc = s.cyc := rfl
@[simp] theorem clearSeen_host : (s.clearSeen).host = s.host := rfl
@[simp] theorem clearSeen_hostUp : (s.clearSeen).hostUp = s.hostUp := rfl
@[simp] theorem clearSeen_inputs : (s.clearSeen).inputs = s.inputs := rfl
@[simp] theorem clearSeen_draws : (s.clearSeen).draws = s.draws := rfl

/-! ### recordRead -/

@[simp] theorem recordRead_cfg (j a : Nat) (v : Byte) : (s.recordRead j a v).cfg = s.cfg := rfl
@[simp] theorem recordRead_fb (j a : Nat) (v : Byte) : (s.recordRead j a v).fb = s.fb := rfl
@[simp] theorem recordRead_stale (j a : Nat) (v : Byte) : (s.recordRead j a v).stale = s.stale := rfl
@[simp] theorem recordRead_fatal (j a : Nat) (v : Byte) : (s.recordRead j a v).fatal = s.fatal := rfl
@[simp] theorem recordRead_cause (j a : Nat) (v : Byte) : (s.recordRead j a v).cause = s.cause := rfl
@[simp] theorem recordRead_diag (j a : Nat) (v : Byte) : (s.recordRead j a v).diag = s.diag := rfl
@[simp] theorem recordRead_refused (j a : Nat) (v : Byte) : (s.recordRead j a v).refused = s.refused := rfl
@[simp] theorem recordRead_hist (j a : Nat) (v : Byte) : (s.recordRead j a v).hist = s.hist ++ [.read j a v] := rfl
@[simp] theorem recordRead_rsp (j a : Nat) (v : Byte) : (s.recordRead j a v).rsp = s.rsp := rfl
@[simp] theorem recordRead_rdOut (j a : Nat) (v : Byte) : (s.recordRead j a v).rdOut = s.rdOut := rfl
@[simp] theorem recordRead_diagIdx (j a : Nat) (v : Byte) : (s.recordRead j a v).diagIdx = s.diagIdx := rfl
@[simp] theorem recordRead_cyc (j a : Nat) (v : Byte) : (s.recordRead j a v).cyc = s.cyc := rfl
@[simp] theorem recordRead_host (j a : Nat) (v : Byte) : (s.recordRead j a v).host = s.host := rfl
@[simp] theorem recordRead_hostUp (j a : Nat) (v : Byte) : (s.recordRead j a v).hostUp = s.hostUp := rfl
@[simp] theorem recordRead_inputs (j a : Nat) (v : Byte) : (s.recordRead j a v).inputs = s.inputs := rfl
@[simp] theorem recordRead_draws (j a : Nat) (v : Byte) : (s.recordRead j a v).draws = s.draws + 1 := rfl

/-! ### reply -/

@[simp] theorem reply_cfg (j : Nat) (r : RdReply) : (s.reply j r).cfg = s.cfg := rfl
@[simp] theorem reply_fb (j : Nat) (r : RdReply) : (s.reply j r).fb = s.fb := rfl
@[simp] theorem reply_stale (j : Nat) (r : RdReply) : (s.reply j r).stale = s.stale := rfl
@[simp] theorem reply_fatal (j : Nat) (r : RdReply) : (s.reply j r).fatal = s.fatal := rfl
@[simp] theorem reply_cause (j : Nat) (r : RdReply) : (s.reply j r).cause = s.cause := rfl
@[simp] theorem reply_diag (j : Nat) (r : RdReply) : (s.reply j r).diag = s.diag := rfl
@[simp] theorem reply_refused (j : Nat) (r : RdReply) : (s.reply j r).refused = s.refused := rfl
@[simp] theorem reply_hist (j : Nat) (r : RdReply) : (s.reply j r).hist = s.hist := rfl
@[simp] theorem reply_rsp (j : Nat) (r : RdReply) : (s.reply j r).rsp = s.rsp := rfl
@[simp] theorem reply_rdOut (j : Nat) (r : RdReply) : (s.reply j r).rdOut = s.rdOut.set j r := rfl
@[simp] theorem reply_diagIdx (j : Nat) (r : RdReply) : (s.reply j r).diagIdx = s.diagIdx := rfl
@[simp] theorem reply_cyc (j : Nat) (r : RdReply) : (s.reply j r).cyc = s.cyc := rfl
@[simp] theorem reply_host (j : Nat) (r : RdReply) : (s.reply j r).host = s.host := rfl
@[simp] theorem reply_hostUp (j : Nat) (r : RdReply) : (s.reply j r).hostUp = s.hostUp := rfl
@[simp] theorem reply_inputs (j : Nat) (r : RdReply) : (s.reply j r).inputs = s.inputs := rfl
@[simp] theorem reply_draws (j : Nat) (r : RdReply) : (s.reply j r).draws = s.draws := rfl

/-! ### respond -/

@[simp] theorem respond_cfg (r : Resp) : (s.respond r).cfg = s.cfg := rfl
@[simp] theorem respond_fb (r : Resp) : (s.respond r).fb = s.fb := rfl
@[simp] theorem respond_stale (r : Resp) : (s.respond r).stale = s.stale := rfl
@[simp] theorem respond_fatal (r : Resp) : (s.respond r).fatal = s.fatal := rfl
@[simp] theorem respond_cause (r : Resp) : (s.respond r).cause = s.cause := rfl
@[simp] theorem respond_diag (r : Resp) : (s.respond r).diag = s.diag := rfl
@[simp] theorem respond_refused (r : Resp) : (s.respond r).refused = s.refused := rfl
@[simp] theorem respond_hist (r : Resp) : (s.respond r).hist = s.hist ++ [.resp r] := rfl
@[simp] theorem respond_rsp (r : Resp) : (s.respond r).rsp = r := rfl
@[simp] theorem respond_rdOut (r : Resp) : (s.respond r).rdOut = s.rdOut := rfl
@[simp] theorem respond_diagIdx (r : Resp) : (s.respond r).diagIdx = s.diagIdx := rfl
@[simp] theorem respond_cyc (r : Resp) : (s.respond r).cyc = s.cyc := rfl
@[simp] theorem respond_host (r : Resp) : (s.respond r).host = s.host := rfl
@[simp] theorem respond_hostUp (r : Resp) : (s.respond r).hostUp = s.hostUp := rfl
@[simp] theorem respond_inputs (r : Resp) : (s.respond r).inputs = s.inputs := rfl
@[simp] theorem respond_draws (r : Resp) : (s.respond r).draws = s.draws := rfl

/-! ### count -/

@[simp] theorem count_cfg (f : Diag → Diag) : (s.count f).cfg = s.cfg := by unfold count; split <;> rfl
@[simp] theorem count_fb (f : Diag → Diag) : (s.count f).fb = s.fb := by unfold count; split <;> rfl
@[simp] theorem count_stale (f : Diag → Diag) : (s.count f).stale = s.stale := by unfold count; split <;> rfl
@[simp] theorem count_fatal (f : Diag → Diag) : (s.count f).fatal = s.fatal := by unfold count; split <;> rfl
@[simp] theorem count_cause (f : Diag → Diag) : (s.count f).cause = s.cause := by unfold count; split <;> rfl
@[simp] theorem count_diag (f : Diag → Diag) : (s.count f).diag = if s.cfg.hasDiag then f s.diag else s.diag := by unfold count; split <;> rfl
@[simp] theorem count_refused (f : Diag → Diag) : (s.count f).refused = s.refused := by unfold count; split <;> rfl
@[simp] theorem count_hist (f : Diag → Diag) : (s.count f).hist = s.hist := by unfold count; split <;> rfl
@[simp] theorem count_rsp (f : Diag → Diag) : (s.count f).rsp = s.rsp := by unfold count; split <;> rfl
@[simp] theorem count_rdOut (f : Diag → Diag) : (s.count f).rdOut = s.rdOut := by unfold count; split <;> rfl
@[simp] theorem count_diagIdx (f : Diag → Diag) : (s.count f).diagIdx = s.diagIdx := by unfold count; split <;> rfl
@[simp] theorem count_cyc (f : Diag → Diag) : (s.count f).cyc = s.cyc := by unfold count; split <;> rfl
@[simp] theorem count_host (f : Diag → Diag) : (s.count f).host = s.host := by unfold count; split <;> rfl
@[simp] theorem count_hostUp (f : Diag → Diag) : (s.count f).hostUp = s.hostUp := by unfold count; split <;> rfl
@[simp] theorem count_inputs (f : Diag → Diag) : (s.count f).inputs = s.inputs := by unfold count; split <;> rfl
@[simp] theorem count_draws (f : Diag → Diag) : (s.count f).draws = s.draws := by unfold count; split <;> rfl

/-! ### raiseFatal -/

@[simp] theorem raiseFatal_cfg (c : BitVec 2) : (s.raiseFatal c).cfg = s.cfg := by unfold raiseFatal; cases h : s.fatal <;> simp [emit, h]
@[simp] theorem raiseFatal_fb (c : BitVec 2) : (s.raiseFatal c).fb = s.fb := by unfold raiseFatal; cases h : s.fatal <;> simp [emit, h]
@[simp] theorem raiseFatal_stale (c : BitVec 2) : (s.raiseFatal c).stale = s.stale := by unfold raiseFatal; cases h : s.fatal <;> simp [emit, h]
@[simp] theorem raiseFatal_fatal (c : BitVec 2) : (s.raiseFatal c).fatal = true := by unfold raiseFatal; cases h : s.fatal <;> simp [emit, h]
@[simp] theorem raiseFatal_cause (c : BitVec 2) : (s.raiseFatal c).cause = if s.fatal then s.cause else c := by unfold raiseFatal; cases h : s.fatal <;> simp [emit, h]
@[simp] theorem raiseFatal_diag (c : BitVec 2) : (s.raiseFatal c).diag = s.diag := by unfold raiseFatal; cases h : s.fatal <;> simp [emit, h]
@[simp] theorem raiseFatal_refused (c : BitVec 2) : (s.raiseFatal c).refused = s.refused := by unfold raiseFatal; cases h : s.fatal <;> simp [emit, h]
@[simp] theorem raiseFatal_hist (c : BitVec 2) : (s.raiseFatal c).hist = s.hist ++ [.fatal c] := by unfold raiseFatal; cases h : s.fatal <;> simp [emit, h]
@[simp] theorem raiseFatal_rsp (c : BitVec 2) : (s.raiseFatal c).rsp = s.rsp := by unfold raiseFatal; cases h : s.fatal <;> simp [emit, h]
@[simp] theorem raiseFatal_rdOut (c : BitVec 2) : (s.raiseFatal c).rdOut = s.rdOut := by unfold raiseFatal; cases h : s.fatal <;> simp [emit, h]
@[simp] theorem raiseFatal_diagIdx (c : BitVec 2) : (s.raiseFatal c).diagIdx = s.diagIdx := by unfold raiseFatal; cases h : s.fatal <;> simp [emit, h]
@[simp] theorem raiseFatal_cyc (c : BitVec 2) : (s.raiseFatal c).cyc = s.cyc := by unfold raiseFatal; cases h : s.fatal <;> simp [emit, h]
@[simp] theorem raiseFatal_host (c : BitVec 2) : (s.raiseFatal c).host = s.host := by unfold raiseFatal; cases h : s.fatal <;> simp [emit, h]
@[simp] theorem raiseFatal_hostUp (c : BitVec 2) : (s.raiseFatal c).hostUp = s.hostUp := by unfold raiseFatal; cases h : s.fatal <;> simp [emit, h]
@[simp] theorem raiseFatal_inputs (c : BitVec 2) : (s.raiseFatal c).inputs = s.inputs := by unfold raiseFatal; cases h : s.fatal <;> simp [emit, h]
@[simp] theorem raiseFatal_draws (c : BitVec 2) : (s.raiseFatal c).draws = s.draws := by unfold raiseFatal; cases h : s.fatal <;> simp [emit, h]

/-! ### stepReset -/

@[simp] theorem stepReset_cfg : (s.stepReset).cfg = s.cfg := rfl
@[simp] theorem stepReset_fb : (s.stepReset).fb = s.fb := rfl
@[simp] theorem stepReset_stale : (s.stepReset).stale = s.stale := rfl
@[simp] theorem stepReset_fatal : (s.stepReset).fatal = false := rfl
@[simp] theorem stepReset_cause : (s.stepReset).cause = 0 := rfl
@[simp] theorem stepReset_diag : (s.stepReset).diag = if s.cfg.hasDiag then Diag.zero s.cfg.rows else s.diag := rfl
@[simp] theorem stepReset_refused : (s.stepReset).refused = s.refused := rfl
@[simp] theorem stepReset_hist : (s.stepReset).hist = s.hist ++ [.reset] := rfl
@[simp] theorem stepReset_rsp : (s.stepReset).rsp = .zero := rfl
@[simp] theorem stepReset_rdOut : (s.stepReset).rdOut = s.rdOut := rfl
@[simp] theorem stepReset_diagIdx : (s.stepReset).diagIdx = s.diagIdx := rfl
@[simp] theorem stepReset_cyc : (s.stepReset).cyc = .reset := rfl
@[simp] theorem stepReset_host : (s.stepReset).host = s.host := rfl
@[simp] theorem stepReset_hostUp : (s.stepReset).hostUp = s.hostUp := rfl
@[simp] theorem stepReset_inputs : (s.stepReset).inputs = s.inputs := rfl
@[simp] theorem stepReset_draws : (s.stepReset).draws = s.draws := rfl

/-! ### enterLoop -/

@[simp] theorem enterLoop_cfg (i : Input) : (s.enterLoop i).cfg = s.cfg := rfl
@[simp] theorem enterLoop_fb (i : Input) : (s.enterLoop i).fb = s.fb := rfl
@[simp] theorem enterLoop_stale (i : Input) : (s.enterLoop i).stale = s.stale := rfl
@[simp] theorem enterLoop_fatal (i : Input) : (s.enterLoop i).fatal = s.fatal := rfl
@[simp] theorem enterLoop_cause (i : Input) : (s.enterLoop i).cause = s.cause := rfl
@[simp] theorem enterLoop_diag (i : Input) : (s.enterLoop i).diag = s.diag := rfl
@[simp] theorem enterLoop_refused (i : Input) : (s.enterLoop i).refused = s.refused := rfl
@[simp] theorem enterLoop_hist (i : Input) : (s.enterLoop i).hist = s.hist := rfl
@[simp] theorem enterLoop_rsp (i : Input) : (s.enterLoop i).rsp = s.rsp := rfl
@[simp] theorem enterLoop_rdOut (i : Input) : (s.enterLoop i).rdOut = s.rdOut := rfl
@[simp] theorem enterLoop_diagIdx (i : Input) : (s.enterLoop i).diagIdx = s.diagIdx := rfl
@[simp] theorem enterLoop_cyc (i : Input) : (s.enterLoop i).cyc = s.cyc := rfl
@[simp] theorem enterLoop_host (i : Input) : (s.enterLoop i).host = s.host := rfl
@[simp] theorem enterLoop_hostUp (i : Input) : (s.enterLoop i).hostUp = (s.hostUp || i.entersLoop) := rfl
@[simp] theorem enterLoop_inputs (i : Input) : (s.enterLoop i).inputs = s.inputs := rfl
@[simp] theorem enterLoop_draws (i : Input) : (s.enterLoop i).draws = s.draws := rfl

/-! ### onCyc -/

@[simp] theorem onCyc_cfg (f : Cycle → Cycle) : (s.onCyc f).cfg = s.cfg := rfl
@[simp] theorem onCyc_fb (f : Cycle → Cycle) : (s.onCyc f).fb = s.fb := rfl
@[simp] theorem onCyc_stale (f : Cycle → Cycle) : (s.onCyc f).stale = s.stale := rfl
@[simp] theorem onCyc_fatal (f : Cycle → Cycle) : (s.onCyc f).fatal = s.fatal := rfl
@[simp] theorem onCyc_cause (f : Cycle → Cycle) : (s.onCyc f).cause = s.cause := rfl
@[simp] theorem onCyc_diag (f : Cycle → Cycle) : (s.onCyc f).diag = s.diag := rfl
@[simp] theorem onCyc_refused (f : Cycle → Cycle) : (s.onCyc f).refused = s.refused := rfl
@[simp] theorem onCyc_hist (f : Cycle → Cycle) : (s.onCyc f).hist = s.hist := rfl
@[simp] theorem onCyc_rsp (f : Cycle → Cycle) : (s.onCyc f).rsp = s.rsp := rfl
@[simp] theorem onCyc_rdOut (f : Cycle → Cycle) : (s.onCyc f).rdOut = s.rdOut := rfl
@[simp] theorem onCyc_diagIdx (f : Cycle → Cycle) : (s.onCyc f).diagIdx = s.diagIdx := rfl
@[simp] theorem onCyc_cyc (f : Cycle → Cycle) : (s.onCyc f).cyc = f s.cyc := rfl
@[simp] theorem onCyc_host (f : Cycle → Cycle) : (s.onCyc f).host = s.host := rfl
@[simp] theorem onCyc_hostUp (f : Cycle → Cycle) : (s.onCyc f).hostUp = s.hostUp := rfl
@[simp] theorem onCyc_inputs (f : Cycle → Cycle) : (s.onCyc f).inputs = s.inputs := rfl
@[simp] theorem onCyc_draws (f : Cycle → Cycle) : (s.onCyc f).draws = s.draws := rfl

/-! ### Memory accessors -/

theorem fbAt_of_fb {s t : State} (h : t.fb = s.fb) (a : Nat) : t.fbAt a = s.fbAt a := by simp [fbAt, h]

theorem seenAt_of_eq {s t : State} (h : t.fb = s.fb) (h' : t.stale = s.stale) (a : Nat) : t.seenAt a = s.seenAt a := by
  simp [seenAt, h, h']

theorem mem_seenAt {s : State} {a : Nat} {v : Byte} : v ∈ s.seenAt a ↔ v = s.fbAt a ∨ (a, v) ∈ s.stale := Stale.mem_seen

/-- R34, R79: the current value is always a possible answer. -/
theorem fbAt_mem_seenAt (s : State) (a : Nat) : s.fbAt a ∈ s.seenAt a := mem_seenAt.mpr (Or.inl rfl)

theorem memWrite_fbAt (s : State) (a : Nat) (bs : List Byte) (x : Nat) :
    (s.memWrite a bs).fbAt x = if a ≤ x ∧ x < a + bs.length then bs.getD (x - a) 0#8 else s.fbAt x := Mem.read_write ..

theorem mem_memWrite_seenAt {s : State} {a : Nat} {bs : List Byte} {x : Nat} {v : Byte} :
    v ∈ (s.memWrite a bs).seenAt x ↔ v ∈ s.seenAt x ∨ (a ≤ x ∧ x < a + bs.length) ∧ v = bs.getD (x - a) 0#8 :=
  Stale.mem_seen_write

theorem clearSeen_seenAt (s : State) (a : Nat) : (s.clearSeen).seenAt a = [s.fbAt a] := rfl

/-! ### Free draws -/

/-- R79: a draw is a member of the set it is drawn from. -/
theorem pick_mem {n : Nat} {l : List Byte} (h : l ≠ []) : pick n l ∈ l := by
  match l with
  | [] => exact absurd rfl h
  | [v] => simp [pick]
  | v :: w :: l =>
    have hlt : Config.freeDraw n % (l.length + 2) < (v :: w :: l).length :=
      Nat.mod_lt _ (Nat.succ_pos (l.length + 1))
    simp only [pick, List.getD_eq_getElem _ _ hlt]
    exact List.getElem_mem hlt

theorem drawAt_mem (s : State) (a : Nat) : s.drawAt a ∈ s.seenAt a :=
  pick_mem (List.ne_nil_of_mem (s.fbAt_mem_seenAt a))

theorem drawAt_of_seenAt {s : State} {a : Nat} {v : Byte} (h : s.seenAt a = [v]) : s.drawAt a = v := by
  simp [drawAt, h, pick]

/-! ### A row partly written -/

theorem partialRow_cases (bytes : List Byte) (mask : List Bool) (s : State) :
    s.partialRow bytes mask = s ∨
      ∃ r payload, classify s.cfg bytes = .valid r payload ∧ inRange s.cfg r = true ∧
        s.partialRow bytes mask =
          s.memWrite (r.toNat * s.cfg.rowBytes)
            (mixBytes (Mem.readBytes s.fb (r.toNat * s.cfg.rowBytes) payload.length) payload mask) := by
  unfold partialRow
  cases h : classify s.cfg bytes with
  | discard => exact Or.inl rfl
  | valid r payload =>
    by_cases hr : inRange s.cfg r = true
    · exact Or.inr ⟨r, payload, rfl, hr, by simp [hr]⟩
    · exact Or.inl (by simp [hr])

@[simp] theorem partialRow_cfg (bytes : List Byte) (mask : List Bool) : (s.partialRow bytes mask).cfg = s.cfg := by
  rcases partialRow_cases bytes mask s with h | ⟨r, p, -, -, h⟩ <;> simp [h]

@[simp] theorem partialRow_fatal (bytes : List Byte) (mask : List Bool) : (s.partialRow bytes mask).fatal = s.fatal := by
  rcases partialRow_cases bytes mask s with h | ⟨r, p, -, -, h⟩ <;> simp [h]

@[simp] theorem partialRow_cause (bytes : List Byte) (mask : List Bool) : (s.partialRow bytes mask).cause = s.cause := by
  rcases partialRow_cases bytes mask s with h | ⟨r, p, -, -, h⟩ <;> simp [h]

@[simp] theorem partialRow_diag (bytes : List Byte) (mask : List Bool) : (s.partialRow bytes mask).diag = s.diag := by
  rcases partialRow_cases bytes mask s with h | ⟨r, p, -, -, h⟩ <;> simp [h]

@[simp] theorem partialRow_refused (bytes : List Byte) (mask : List Bool) : (s.partialRow bytes mask).refused = s.refused := by
  rcases partialRow_cases bytes mask s with h | ⟨r, p, -, -, h⟩ <;> simp [h]

@[simp] theorem partialRow_hist (bytes : List Byte) (mask : List Bool) : (s.partialRow bytes mask).hist = s.hist := by
  rcases partialRow_cases bytes mask s with h | ⟨r, p, -, -, h⟩ <;> simp [h]

@[simp] theorem partialRow_rsp (bytes : List Byte) (mask : List Bool) : (s.partialRow bytes mask).rsp = s.rsp := by
  rcases partialRow_cases bytes mask s with h | ⟨r, p, -, -, h⟩ <;> simp [h]

@[simp] theorem partialRow_rdOut (bytes : List Byte) (mask : List Bool) : (s.partialRow bytes mask).rdOut = s.rdOut := by
  rcases partialRow_cases bytes mask s with h | ⟨r, p, -, -, h⟩ <;> simp [h]

@[simp] theorem partialRow_diagIdx (bytes : List Byte) (mask : List Bool) : (s.partialRow bytes mask).diagIdx = s.diagIdx := by
  rcases partialRow_cases bytes mask s with h | ⟨r, p, -, -, h⟩ <;> simp [h]

@[simp] theorem partialRow_cyc (bytes : List Byte) (mask : List Bool) : (s.partialRow bytes mask).cyc = s.cyc := by
  rcases partialRow_cases bytes mask s with h | ⟨r, p, -, -, h⟩ <;> simp [h]

@[simp] theorem partialRow_host (bytes : List Byte) (mask : List Bool) : (s.partialRow bytes mask).host = s.host := by
  rcases partialRow_cases bytes mask s with h | ⟨r, p, -, -, h⟩ <;> simp [h]

@[simp] theorem partialRow_hostUp (bytes : List Byte) (mask : List Bool) : (s.partialRow bytes mask).hostUp = s.hostUp := by
  rcases partialRow_cases bytes mask s with h | ⟨r, p, -, -, h⟩ <;> simp [h]

@[simp] theorem partialRow_inputs (bytes : List Byte) (mask : List Bool) : (s.partialRow bytes mask).inputs = s.inputs := by
  rcases partialRow_cases bytes mask s with h | ⟨r, p, -, -, h⟩ <;> simp [h]

@[simp] theorem partialRow_draws (bytes : List Byte) (mask : List Bool) : (s.partialRow bytes mask).draws = s.draws := by
  rcases partialRow_cases bytes mask s with h | ⟨r, p, -, -, h⟩ <;> simp [h]

end State
end Sys2Proof.Machine
end

