-- ==== Sys2Proof/Laws/Exec.lean ====
section
/-! SUPPORT. What each instruction can do, said once: when its meaning gives a next state, and which. -/

namespace Sys2Proof.Machine

open Host (Outcome)

@[simp] theorem andThen_next (s : State) (k : State → Outcome State Fault Refusal) : andThen (.next s) k = k s := rfl
@[simp] theorem andThen_fault (r : Fault) (k : State → Outcome State Fault Refusal) : andThen (.fault r) k = .fault r := rfl
@[simp] theorem andThen_refused (r : Refusal) (k : State → Outcome State Fault Refusal) :
    andThen (.refused r) k = .refused r := rfl

/-- A sequence gives a next state exactly when both of its parts do. -/
theorem andThen_eq_next {o : Outcome State Fault Refusal} {k : State → Outcome State Fault Refusal} {t : State} :
    andThen o k = .next t ↔ ∃ s, o = .next s ∧ k s = .next t := by
  cases o <;> simp

/-! ### Packets -/

theorem onPacket_next {cls : PktClass} {p : Packet} {s : State} {k : State → State} (hl : p.lengthOk s.cfg = true)
    (hf : s.fatal = false) (hc : p.cls s.cfg = cls) : onPacket cls p s k = .next (k s) := by
  simp [onPacket, hl, hf, hc]

/-- The packet operand: refused by length, or the effect with FATAL = 0 on a packet of the class (R160). -/
theorem onPacket_eq_next {cls : PktClass} {p : Packet} {s t : State} {k : State → State} :
    onPacket cls p s k = .next t ↔
      p.lengthOk s.cfg = false ∧ t = s.refuse ∨
        p.lengthOk s.cfg = true ∧ s.fatal = false ∧ p.cls s.cfg = cls ∧ t = k s := by
  unfold onPacket
  cases hl : p.lengthOk s.cfg <;> cases hf : s.fatal <;> by_cases hc : p.cls s.cfg = cls <;> simp [hc, eq_comm]

theorem execPktDiscard_eq_next {p : Packet} {s t : State} :
    execPktDiscard p s = .next t ↔
      p.lengthOk s.cfg = false ∧ t = s.refuse ∨
        p.lengthOk s.cfg = true ∧ s.fatal = false ∧ p.cls s.cfg = .discard ∧
          t = (s.count Diag.countDiscard).respond .ofDiscard := onPacket_eq_next

theorem execPktOor_eq_next {p : Packet} {s t : State} :
    execPktOor p s = .next t ↔
      p.lengthOk s.cfg = false ∧ t = s.refuse ∨
        p.lengthOk s.cfg = true ∧ s.fatal = false ∧ p.cls s.cfg = .oor ∧
          t = (s.count Diag.countOor).respond (.ofOor p.row) := onPacket_eq_next

theorem execPktLast_eq_next {p : Packet} {s t : State} :
    execPktLast p s = .next t ↔
      p.lengthOk s.cfg = false ∧ t = s.refuse ∨
        p.lengthOk s.cfg = true ∧ s.fatal = false ∧ p.cls s.cfg = .last ∧
          t = ((s.memWrite (rowBase s.cfg p.row.toNat) p.payload).count
            (Diag.countLast p.row.toNat s.cfg.rows)).respond (.ofLast p.row (s.allRows p.row.toNat)) := onPacket_eq_next

theorem execPktRow_eq_next {p : Packet} {s t : State} :
    execPktRow p s = .next t ↔
      p.lengthOk s.cfg = false ∧ t = s.refuse ∨
        p.lengthOk s.cfg = true ∧ s.fatal = false ∧ p.cls s.cfg = .row ∧
          t = ((s.count (Diag.countRow p.row.toNat)).memWrite (rowBase s.cfg p.row.toNat) p.payload).respond
            (.ofRow p.row) := onPacket_eq_next

/-! ### The sink ports -/

theorem execFlush_eq_next {s t : State} :
    execFlush s = .next t ↔ s.fatal = false ∧ t = s.clearSeen.emit .flushDone := by
  unfold execFlush
  cases hf : s.fatal <;> simp [eq_comm]

theorem onReader_eq_next {agent : Nat} {s t : State} {k : State → State} :
    onReader agent s k = .next t ↔ agent < s.cfg.nReaders ∧ t = k s := by
  unfold onReader
  split <;> simp [*, eq_comm]

/-- The two outcomes of an RD8 (R221, R226). -/
theorem execRd8_eq_next {agent addr : Nat} {s t : State} :
    execRd8 agent addr s = .next t ↔ agent < s.cfg.nReaders ∧
      (addr < s.cfg.fbSize ∧
          t = (s.recordRead agent addr (s.drawAt addr)).reply agent ⟨false, (s.drawAt addr).setWidth 16⟩ ∨
        s.cfg.fbSize ≤ addr ∧ t = s.reply agent rdError) := by
  unfold execRd8
  rw [onReader_eq_next]
  by_cases h : addr < s.cfg.fbSize
  · simp [rd8Ok, h, Nat.not_le.mpr h]
  · simp [rd8Ok, h, Nat.not_lt.mp h]

/-- The two outcomes of an RD16 (R222, R226). -/
theorem execRd16_eq_next {agent addr : Nat} {s t : State} :
    execRd16 agent addr s = .next t ↔ agent < s.cfg.nReaders ∧
      ((addr % 2 = 0 ∧ addr + 1 < s.cfg.fbSize) ∧
          t = ((s.recordRead agent addr (s.drawAt addr)).recordRead agent (addr + 1)
            ((s.recordRead agent addr (s.drawAt addr)).drawAt (addr + 1))).reply agent
              ⟨false, Half.ofBytes ((s.recordRead agent addr (s.drawAt addr)).drawAt (addr + 1)) (s.drawAt addr)⟩ ∨
        ¬(addr % 2 = 0 ∧ addr + 1 < s.cfg.fbSize) ∧ t = s.reply agent rdError) := by
  unfold execRd16
  rw [onReader_eq_next]
  by_cases h : addr % 2 = 0 ∧ addr + 1 < s.cfg.fbSize
  · simp [rd16Ok, h]
  · have : rd16Ok s.cfg addr = false := by
      simpa [rd16Ok] using h
    simp only [this, h]
    simp

theorem execDiagrd_next (idx : BitVec 3) (s : State) :
    execDiagrd idx s = .next ({ s with diagIdx := idx }.emit (.diagRead idx (s.diagReg idx))) := rfl

theorem execFatal_eq_next {cause : BitVec 2} {s t : State} :
    execFatal cause s = .next t ↔ cause = 0#2 ∧ t = s.refuse ∨ cause ≠ 0#2 ∧ t = s.raiseFatal cause := by
  unfold execFatal
  split <;> simp [*, eq_comm]

/-! ### What every instruction can do -/

/-- R224: what a reader's or a diagnostic read leaves unchanged; the reply registers, the index on `diag_idx` and the events of reads are left out. -/
structure SameButReads (s t : State) : Prop where
  cfg : t.cfg = s.cfg
  fb : t.fb = s.fb
  stale : t.stale = s.stale
  fatal : t.fatal = s.fatal
  cause : t.cause = s.cause
  diag : t.diag = s.diag
  refused : t.refused = s.refused
  rsp : t.rsp = s.rsp
  phase : t.cyc.phase = s.cyc.phase
  flushPend : t.cyc.flushPend = s.cyc.flushPend
  fatalPend : t.cyc.fatalPend = s.cyc.fatalPend
  host : t.host = s.host
  hostUp : t.hostUp = s.hostUp
  inputs : t.inputs = s.inputs
  rdOut : t.rdOut.length = s.rdOut.length
  hist : ∃ es, t.hist = s.hist ++ es ∧ ∀ e ∈ es, e.isReset = false ∧ e.endsFrame = false ∧ ∀ f, e.isResp f = false

theorem SameButReads.refl (s : State) : SameButReads s s := by
  constructor <;> first | rfl | exact ⟨[], by simp⟩

theorem SameButReads.trans {s t u : State} (h : SameButReads s t) (g : SameButReads t u) : SameButReads s u := by
  obtain ⟨es, h1, h2⟩ := h.hist
  obtain ⟨fs, g1, g2⟩ := g.hist
  refine ⟨g.cfg.trans h.cfg, g.fb.trans h.fb, g.stale.trans h.stale, g.fatal.trans h.fatal, g.cause.trans h.cause,
    g.diag.trans h.diag, g.refused.trans h.refused, g.rsp.trans h.rsp, g.phase.trans h.phase,
    g.flushPend.trans h.flushPend, g.fatalPend.trans h.fatalPend, g.host.trans h.host, g.hostUp.trans h.hostUp, g.inputs.trans h.inputs,
    g.rdOut.trans h.rdOut, es ++ fs, by rw [g1, h1, List.append_assoc], fun e he => ?_⟩
  rcases List.mem_append.mp he with he | he
  · exact h2 e he
  · exact g2 e he

theorem execRd8_reads {j a : Nat} {s t : State} (h : execRd8 j a s = .next t) : SameButReads s t := by
  rcases execRd8_eq_next.mp h with ⟨-, ⟨-, rfl⟩ | ⟨-, rfl⟩⟩ <;>
    constructor <;> simp [Event.isReset, Event.endsFrame, Event.isResp]

theorem execRd16_reads {j a : Nat} {s t : State} (h : execRd16 j a s = .next t) : SameButReads s t := by
  rcases execRd16_eq_next.mp h with ⟨-, ⟨-, rfl⟩ | ⟨-, rfl⟩⟩ <;>
    constructor <;> simp [Event.isReset, Event.endsFrame, Event.isResp]

theorem execDiagrd_reads {k : BitVec 3} {s t : State} (h : execDiagrd k s = .next t) : SameButReads s t := by
  obtain rfl : _ = t := by simpa [execDiagrd_next] using h
  constructor <;> simp [Event.isReset, Event.endsFrame, Event.isResp]

/-- One inversion lemma for `exec`: every next state is one of these. An ill-formed instruction is refused. -/
theorem exec_cases {i : Instr} {s t : State} (h : exec i s = .next t) :
    (i.wf s.cfg = false ∧ t = s.refuse) ∨
    (s.fatal = false ∧ ∃ p, i = .pktDiscard p ∧ p.lengthOk s.cfg = true ∧ p.cls s.cfg = .discard ∧
      t = (s.count Diag.countDiscard).respond .ofDiscard) ∨
    (s.fatal = false ∧ ∃ p, i = .pktOor p ∧ p.lengthOk s.cfg = true ∧ p.cls s.cfg = .oor ∧
      t = (s.count Diag.countOor).respond (.ofOor p.row)) ∨
    (s.fatal = false ∧ ∃ p, i = .pktLast p ∧ p.lengthOk s.cfg = true ∧ p.cls s.cfg = .last ∧
      t = ((s.memWrite (rowBase s.cfg p.row.toNat) p.payload).count
        (Diag.countLast p.row.toNat s.cfg.rows)).respond (.ofLast p.row (s.allRows p.row.toNat))) ∨
    (s.fatal = false ∧ ∃ p, i = .pktRow p ∧ p.lengthOk s.cfg = true ∧ p.cls s.cfg = .row ∧
      t = ((s.count (Diag.countRow p.row.toNat)).memWrite (rowBase s.cfg p.row.toNat) p.payload).respond
        (.ofRow p.row)) ∨
    (s.fatal = false ∧ i = .flush ∧ t = s.clearSeen.emit .flushDone) ∨
    (∃ cause, i = .fatal cause ∧ cause ≠ 0#2 ∧ t = s.raiseFatal cause) ∨
    ((∃ j a, i = .rd8 j a ∨ i = .rd16 j a) ∨ ∃ k, i = .diagrd k) ∧ SameButReads s t := by
  cases i with
  | pktDiscard p =>
    rcases execPktDiscard_eq_next.mp h with ⟨hl, h⟩ | ⟨h1, h2, h3, h4⟩
    · exact Or.inl ⟨by simp [Instr.wf, hl], h⟩
    · exact Or.inr (Or.inl ⟨h2, p, rfl, h1, h3, h4⟩)
  | pktOor p =>
    rcases execPktOor_eq_next.mp h with ⟨hl, h⟩ | ⟨h1, h2, h3, h4⟩
    · exact Or.inl ⟨by simp [Instr.wf, hl], h⟩
    · exact Or.inr (Or.inr (Or.inl ⟨h2, p, rfl, h1, h3, h4⟩))
  | pktLast p =>
    rcases execPktLast_eq_next.mp h with ⟨hl, h⟩ | ⟨h1, h2, h3, h4⟩
    · exact Or.inl ⟨by simp [Instr.wf, hl], h⟩
    · exact Or.inr (Or.inr (Or.inr (Or.inl ⟨h2, p, rfl, h1, h3, h4⟩)))
  | pktRow p =>
    rcases execPktRow_eq_next.mp h with ⟨hl, h⟩ | ⟨h1, h2, h3, h4⟩
    · exact Or.inl ⟨by simp [Instr.wf, hl], h⟩
    · exact Or.inr (Or.inr (Or.inr (Or.inr (Or.inl ⟨h2, p, rfl, h1, h3, h4⟩))))
  | flush =>
    obtain ⟨h1, h2⟩ := execFlush_eq_next.mp h
    exact Or.inr (Or.inr (Or.inr (Or.inr (Or.inr (Or.inl ⟨h1, rfl, h2⟩)))))
  | fatal c =>
    rcases execFatal_eq_next.mp h with ⟨rfl, h3⟩ | ⟨h1, h2⟩
    · exact Or.inl ⟨rfl, h3⟩
    · exact Or.inr (Or.inr (Or.inr (Or.inr (Or.inr (Or.inr (Or.inl ⟨c, rfl, h1, h2⟩))))))
  | rd8 j a =>
    exact Or.inr (Or.inr (Or.inr (Or.inr (Or.inr (Or.inr (Or.inr ⟨Or.inl ⟨j, a, Or.inl rfl⟩, execRd8_reads h⟩))))))
  | rd16 j a =>
    exact Or.inr (Or.inr (Or.inr (Or.inr (Or.inr (Or.inr (Or.inr ⟨Or.inl ⟨j, a, Or.inr rfl⟩, execRd16_reads h⟩))))))
  | diagrd k =>
    exact Or.inr (Or.inr (Or.inr (Or.inr (Or.inr (Or.inr (Or.inr ⟨Or.inr ⟨k, rfl⟩, execDiagrd_reads h⟩))))))

end Sys2Proof.Machine
end

