-- ==== Sys2Proof/Laws/PerInstr.lean ====
section
/-! SUPPORT. Statements about each instruction as syntax, one lemma per constructor: family EncodeForm, the port and the length of an encoding (30_encoding.md R100, R101, R124). -/

namespace Sys2Proof.Laws.EncodeForm

/-- A well-formed instruction is encoded as port values of its own format (R100), and a packet has P bytes (R101), of
which the second is its row index (R104) and those after the header its payload (R105). -/
def Statement (i : Instr) : Prop :=
  ∀ c : Config, c.wf → i.wf c = true →
    match i with
    | .pktDiscard p => ∃ b, encode c i = .pkt b ∧ b.length = c.p ∧ pktByte b 1 = p.row ∧ b.drop c.hdrLen = p.payload
    | .pktOor p => ∃ b, encode c i = .pkt b ∧ b.length = c.p ∧ pktByte b 1 = p.row ∧ b.drop c.hdrLen = p.payload
    | .pktLast p => ∃ b, encode c i = .pkt b ∧ b.length = c.p ∧ pktByte b 1 = p.row ∧ b.drop c.hdrLen = p.payload
    | .pktRow p => ∃ b, encode c i = .pkt b ∧ b.length = c.p ∧ pktByte b 1 = p.row ∧ b.drop c.hdrLen = p.payload
    | .flush => encode c i = .flush
    | .rd8 agent addr => encode c i = .rd agent addr false
    | .rd16 agent addr => encode c i = .rd agent addr true
    | .diagrd idx => encode c i = .diag idx
    | .fatal cause => encode c i = .fatal cause

/-- The packet classes share one format (R101). -/
theorem packet_form {c : Config} {p : Packet} (h : p.lengthOk c = true) :
    (p.bytes c).length = c.p ∧ pktByte (p.bytes c) 1 = p.row ∧ (p.bytes c).drop c.hdrLen = p.payload := by
  have e : c.hdrLen = p.hdr.length + 2 := (Packet.lengthOk_iff.mp h).1.symm
  exact ⟨Packet.bytes_length h, rfl, by rw [e]; simp [Packet.bytes]⟩

theorem pktDiscard (p : Packet) : Statement (.pktDiscard p) := fun _ _ hw =>
  ⟨_, rfl, packet_form (Instr.wf_pktDiscard.mp hw).1⟩

theorem pktOor (p : Packet) : Statement (.pktOor p) := fun _ _ hw =>
  ⟨_, rfl, packet_form (Instr.wf_pktOor.mp hw).1⟩

theorem pktLast (p : Packet) : Statement (.pktLast p) := fun _ _ hw =>
  ⟨_, rfl, packet_form (Instr.wf_pktLast.mp hw).1⟩

theorem pktRow (p : Packet) : Statement (.pktRow p) := fun _ _ hw =>
  ⟨_, rfl, packet_form (Instr.wf_pktRow.mp hw).1⟩

theorem flush : Statement .flush := fun _ _ _ => rfl

theorem rd8 (agent addr : Nat) : Statement (.rd8 agent addr) := fun _ _ _ => rfl

theorem rd16 (agent addr : Nat) : Statement (.rd16 agent addr) := fun _ _ _ => rfl

theorem diagrd (idx : BitVec 3) : Statement (.diagrd idx) := fun _ _ _ => rfl

theorem fatal (cause : BitVec 2) : Statement (.fatal cause) := fun _ _ _ => rfl

end Sys2Proof.Laws.EncodeForm
end

