-- ==== Sys2Proof/Laws/Step.lean ====
section
/-! SUPPORT. What a step can do: every step is a sequence of a few kinds of moves, and what each port does at a clock edge. -/

namespace Sys2Proof.Machine

open Host (Outcome)

/-! ### Commands -/

/-- What the decoder gives is well-formed. -/
theorem decode_wf {c : Config} {cmd : Command} {i : Instr} (hc : c.wf) (h : decode c cmd = .ok i) : i.wf c = true := by
  cases cmd with
  | pkt bytes =>
    by_cases hl : bytes.length = c.p
    · obtain ⟨p, -, h2, h3⟩ := decodePacket_of_length hc hl
      obtain rfl : _ = i := by simpa [decode, h3] using h
      exact Instr.wf_ofClass h2
    · simp [decode, decodePacket, hl] at h
  | flush =>
    obtain rfl : _ = i := by simpa [decode] using h
    rfl
  | rd j a sz =>
    simp only [decode, decodeRead] at h
    split at h
    · simp at h
    · split at h
      · simp at h
      · obtain rfl : _ = i := by simpa using h
        cases sz <;> simp [Instr.wf] <;> omega
  | diag k =>
    obtain rfl : _ = i := by simpa [decode] using h
    rfl
  | fatal k =>
    simp only [decode] at h
    split at h
    · simp at h
    · obtain rfl : _ = i := by simpa using h
      simpa [Instr.wf] using ‹¬k = 0#2›

/-- A command at its port gives a next state by its instruction, or is refused with the mark (R257). -/
theorem runCommand_eq_next {c : Command} {s t : State} :
    runCommand c s = .next t ↔
      (∃ i, decode s.cfg c = .ok i ∧ exec i s = .next t) ∨
        ((decode s.cfg c = .error .badLength ∨ decode s.cfg c = .error .reservedCause) ∧ t = s.refuse) := by
  unfold runCommand
  cases h : decode s.cfg c with
  | ok i => simp
  | error e => cases e <;> simp [eq_comm]

/-- R224: a read at its port changes nothing but the reply, the history and the draw counter. -/
theorem runCommand_rd {j a : Nat} {sz : Bool} {s t : State} (h : runCommand (.rd j a sz) s = .next t) :
    SameButReads s t := by
  rcases runCommand_eq_next.mp h with ⟨i, h1, h2⟩ | ⟨h1, -⟩
  · simp only [decode, decodeRead] at h1
    split at h1
    · simp at h1
    · split at h1
      · simp at h1
      · obtain rfl : _ = i := by simpa using h1
        cases sz
        · exact execRd8_reads h2
        · exact execRd16_reads h2
  · simp only [decode, decodeRead] at h1
    split at h1
    · simp at h1
    · split at h1 <;> simp at h1

theorem runCommand_diag {k : BitVec 3} {s t : State} (h : runCommand (.diag k) s = .next t) : SameButReads s t :=
  execDiagrd_reads (k := k) h

theorem runCommand_flush {s t : State} (h : runCommand .flush s = .next t) :
    s.fatal = false ∧ t = s.clearSeen.emit .flushDone := execFlush_eq_next.mp h

theorem runCommand_fatal {c : BitVec 2} {s t : State} (h : runCommand (.fatal c) s = .next t) :
    c = 0#2 ∧ t = s.refuse ∨ c ≠ 0#2 ∧ t = s.raiseFatal c := by
  by_cases hc : c = 0#2
  · simp [runCommand, decode, hc, eq_comm] at h ⊢
    exact h
  · have : execFatal c s = .next t := by simpa [runCommand, decode, hc, exec] using h
    exact execFatal_eq_next.mp this

/-! ### Clock edges -/

theorem sameButReads_onCyc {s : State} {f : Cycle → Cycle} (h1 : (f s.cyc).phase = s.cyc.phase)
    (h2 : (f s.cyc).flushPend = s.cyc.flushPend) (h3 : (f s.cyc).fatalPend = s.cyc.fatalPend) :
    SameButReads s (s.onCyc f) := by
  constructor <;> simp [h1, h2, h3]

theorem diagPort_reads {e : Edge} {s t : State} (h : diagPort e s = .next t) : SameButReads s t := by
  unfold diagPort at h
  cases hd : e.diag with
  | none =>
    obtain rfl : s = t := by simpa [hd] using h
    exact SameButReads.refl s
  | some k => rw [hd] at h; exact runCommand_diag h

theorem serveReaders_reads {qs : List RdReq} {s t : State} (h : serveReaders qs s = .next t) : SameButReads s t := by
  induction qs generalizing s with
  | nil =>
    obtain rfl : s = t := by simpa [serveReaders] using h
    exact SameButReads.refl s
  | cons q qs ih =>
    obtain ⟨m, h1, h2⟩ := andThen_eq_next.mp h
    obtain ⟨n, h3, h4⟩ := andThen_eq_next.mp h1
    obtain rfl : _ = m := by simpa using h4
    exact (runCommand_rd h3).trans ((sameButReads_onCyc rfl rfl rfl).trans (ih h2))

theorem readerPorts_reads {e : Edge} {s t : State} (h : readerPorts e s = .next t) : SameButReads s t := by
  obtain ⟨m, h1, h2⟩ := andThen_eq_next.mp h
  obtain rfl : _ = t := by simpa using h2
  exact (serveReaders_reads h1).trans (sameButReads_onCyc rfl rfl rfl)

/-- The row bytes of an edge are a partial row of the packet in progress, if there is one (R273). -/
theorem rowProgress_cases (e : Edge) (s : State) :
    rowProgress e s = s ∨ ∃ bytes mask, s.cyc.phase = .packet bytes ∧ rowProgress e s = s.partialRow bytes mask := by
  unfold rowProgress
  cases s.cyc.phase with
  | idle => exact .inl rfl
  | flush => exact .inl rfl
  | packet bytes => exact .inr ⟨bytes, _, rfl, rfl⟩

/-- An edge with `rst` is a reset, after a partial row of the packet in progress if there is one (R273). -/
theorem resetEdge_cases (e : Edge) (s : State) :
    (∀ bytes, s.cyc.phase ≠ .packet bytes) ∧ resetEdge e s = s.stepReset ∨
      ∃ bytes, s.cyc.phase = .packet bytes ∧ resetEdge e s = (s.partialRow bytes e.mask).stepReset := by
  unfold resetEdge
  cases s.cyc.phase with
  | idle => exact .inl ⟨by simp, rfl⟩
  | flush => exact .inl ⟨by simp, rfl⟩
  | packet bytes => exact .inr ⟨bytes, rfl, rfl⟩

/-- One edge is a reset, or the diagnostic read, the row bytes written, the readers, and the packet, flush and fatal
ports (R248, R280). -/
theorem clockEdge_eq_next {e : Edge} {s t : State} (h : clockEdge e s = .next t) :
    e.rst = true ∧ t = resetEdge e s ∨
      e.rst = false ∧ ∃ m n, SameButReads s m ∧ SameButReads (rowProgress e m) n ∧ hostPorts e n = .next t := by
  unfold clockEdge at h
  cases hr : e.rst with
  | true =>
    left
    simpa [hr, eq_comm] using h
  | false =>
    right
    rw [hr] at h
    obtain ⟨m1, h1, h2⟩ := andThen_eq_next.mp h
    obtain ⟨m2, h3, h4⟩ := andThen_eq_next.mp h2
    exact ⟨rfl, m1, m2, (sameButReads_onCyc (s := s) rfl rfl rfl).trans (diagPort_reads h1), readerPorts_reads h3, h4⟩

/-- A packet step in progress (R115). -/
theorem packetEdge_eq_next {bytes : List Byte} {e : Edge} {s t : State} (h : packetEdge bytes e s = .next t) :
    e.finish = false ∧ t = holdFatal e s ∨
      e.finish = true ∧ ∃ u, runCommand (.pkt bytes)
          ((holdFatal e s).onCyc fun y => { y with phase := .idle }) = .next u ∧
        t = u.onCyc fun y =>
          { y with rspValid := true, phase := if y.flushPend && y.fatalPend.isEmpty then .flush else y.phase,
                   flushPend := y.flushPend && !y.fatalPend.isEmpty } := by
  unfold packetEdge at h
  cases hf : e.finish with
  | false =>
    left
    simpa [hf, eq_comm] using h
  | true =>
    right
    rw [hf] at h
    obtain ⟨u, h1, h2⟩ := andThen_eq_next.mp h
    exact ⟨rfl, u, h1, by simpa using h2.symm⟩

/-- A FLUSH in progress (R117). -/
theorem flushEdge_eq_next {e : Edge} {s t : State} (h : flushEdge e s = .next t) :
    e.finish = false ∧ t = holdFatal e s ∨
      e.finish = true ∧ ∃ u, runCommand .flush ((holdFatal e s).onCyc fun y => { y with phase := .idle }) = .next u ∧
        t = u.onCyc fun y => { y with flushAck := true } := by
  unfold flushEdge at h
  cases hf : e.finish with
  | false =>
    left
    simpa [hf, eq_comm] using h
  | true =>
    right
    rw [hf] at h
    obtain ⟨u, h1, h2⟩ := andThen_eq_next.mp h
    exact ⟨rfl, u, h1, by simpa using h2.symm⟩

/-- No step in progress (R248). -/
theorem idleEdge_eq_next {e : Edge} {s t : State} (h : idleEdge e s = .next t) :
    (s.cyc.fatalPend ++ e.fatalReq.toList ≠ [] ∧
      takeFatals (s.cyc.fatalPend ++ e.fatalReq.toList) (s.onCyc fun y => { y with fatalPend := [] }) = .next t) ∨
    s.cyc.fatalPend ++ e.fatalReq.toList = [] ∧
      ((s.fatal = true ∧ t = s) ∨
       s.fatal = false ∧
        ((s.cyc.flushPend = true ∧ t = s.onCyc fun y => { y with phase := .flush, flushPend := false }) ∨
         s.cyc.flushPend = false ∧
          ((∃ bytes, e.pkt = some bytes ∧ bytes.length = s.cfg.p ∧
              t = s.onCyc fun y => { y with phase := .packet bytes, flushPend := e.flushReq }) ∨
           (∃ bytes, e.pkt = some bytes ∧ bytes.length ≠ s.cfg.p ∧ t = s.refuse) ∨
           (e.pkt = none ∧ e.flushReq = true ∧ t = s.onCyc fun y => { y with phase := .flush }) ∨
           (e.pkt = none ∧ e.flushReq = false ∧ t = s)))) := by
  unfold idleEdge at h
  by_cases hs : s.cyc.fatalPend ++ e.fatalReq.toList = []
  · right
    refine ⟨hs, ?_⟩
    simp only [hs, ne_eq, not_true, if_false] at h
    cases hf : s.fatal with
    | true => left; simpa [hf, eq_comm] using h
    | false =>
      right
      refine ⟨rfl, ?_⟩
      simp only [hf, Bool.false_eq_true, if_false] at h
      cases hp : s.cyc.flushPend with
      | true => left; simpa [hp, eq_comm] using h
      | false =>
        right
        refine ⟨rfl, ?_⟩
        simp only [hp, Bool.false_eq_true, if_false] at h
        cases hk : e.pkt with
        | some bytes =>
          simp only [hk, acceptPacket] at h
          by_cases hl : bytes.length = s.cfg.p
          · left; exact ⟨bytes, rfl, hl, by simpa [hl, eq_comm] using h⟩
          · right; left; exact ⟨bytes, rfl, hl, by simpa [hl, eq_comm] using h⟩
        | none =>
          right; right
          simp only [hk] at h
          cases hq : e.flushReq with
          | true => left; exact ⟨rfl, rfl, by simpa [hq, eq_comm] using h⟩
          | false => right; exact ⟨rfl, rfl, by simpa [hq, eq_comm] using h⟩
  · left
    refine ⟨hs, ?_⟩
    simpa [hs] using h

/-! ### What the readers are given at an edge -/

/-- What a request is answered depends on the configuration and the SEEN sets alone (R79). -/
theorem answers_of_eq {m n : State} (hc : n.cfg = m.cfg) (hf : n.fb = m.fb) (hs : n.stale = m.stale) (q : RdReq)
    (r : RdReply) (es : List Event) : n.answers q r es ↔ m.answers q r es := by
  unfold State.answers
  simp only [hc, State.seenAt_of_eq hf hs]

/-- The events of an answer are reads of that reader. -/
theorem answers_events {m : State} {q : RdReq} {r : RdReply} {es : List Event} (h : m.answers q r es) {j : Nat}
    (hj : q.agent ≠ j) : ∀ x ∈ es, x.isReadOf j = false := by
  unfold State.answers at h
  split at h <;> rcases h with ⟨-, h⟩ | ⟨-, -, rfl⟩
  · obtain ⟨n, v, -, -, rfl⟩ := h
    simp [Event.isReadOf, hj]
  · simp
  · obtain ⟨n, v, n', v', -, -, -, rfl⟩ := h
    simp [Event.isReadOf, hj]
  · simp

/-- A read at its port: the reader exists, and its reply and events are an answer from SEEN as it stands. -/
theorem runCommand_rd_answers {q : RdReq} {s t : State} (h : runCommand (.rd q.agent q.addr q.size) s = .next t) :
    q.agent < s.cfg.nReaders ∧ t.cyc = s.cyc ∧
      ∃ r es, s.answers q r es ∧ t.rdOut = s.rdOut.set q.agent r ∧ t.hist = s.hist ++ es := by
  obtain ⟨i, h1, h2⟩ | ⟨h1, -⟩ := runCommand_eq_next.mp h
  · simp only [decode, decodeRead] at h1
    split at h1
    · simp at h1
    · split at h1
      · simp at h1
      · obtain rfl : _ = i := by simpa using h1
        obtain ⟨j, a, sz⟩ := q
        cases sz
        · obtain ⟨hj, ⟨ha, rfl⟩ | ⟨ha, rfl⟩⟩ := execRd8_eq_next.mp h2
          · exact ⟨hj, rfl, _, _, .inl ⟨ha, _, _, rfl, rfl, rfl⟩, rfl, rfl⟩
          · exact ⟨hj, rfl, _, [], .inr ⟨ha, rfl, rfl⟩, rfl, by simp⟩
        · obtain ⟨hj, ⟨ha, rfl⟩ | ⟨ha, rfl⟩⟩ := execRd16_eq_next.mp h2
          · exact ⟨hj, rfl, _, _, .inl ⟨ha, _, _, _, _, rfl, rfl, rfl, rfl⟩, rfl, List.append_assoc ..⟩
          · exact ⟨hj, rfl, _, [], .inr ⟨by simp only at ha ⊢; omega, rfl, rfl⟩, rfl, by simp⟩
  · simp only [decode, decodeRead] at h1
    split at h1
    · simp at h1
    · split at h1 <;> simp at h1

/-- The requests of different readers answered one after another: who is acknowledged; what a reader that is not among
them sees; and what each one is given, out of SEEN as it stood at the start. -/
theorem serveReaders_answers {qs : List RdReq} {s t : State} (h : serveReaders qs s = .next t)
    (hn : (qs.map RdReq.agent).Nodup) :
    t.cyc.rdAck = s.cyc.rdAck ++ qs.map RdReq.agent ∧ t.cyc.rdPend = s.cyc.rdPend ∧
      (∃ es, t.hist = s.hist ++ es ∧ ∀ j, j ∉ qs.map RdReq.agent →
        t.rdOut[j]? = s.rdOut[j]? ∧ ∀ x ∈ es, x.isReadOf j = false) ∧
      ∀ q ∈ qs, ∃ r es pre post, s.answers q r es ∧ (s.rdOut.length = s.cfg.nReaders → t.rdOut[q.agent]? = some r) ∧
        t.hist = s.hist ++ pre ++ es ++ post ∧ ∀ x ∈ pre ++ post, x.isReadOf q.agent = false := by
  induction qs generalizing s with
  | nil =>
    obtain rfl : s = t := by simpa [serveReaders] using h
    exact ⟨by simp, rfl, ⟨[], by simp⟩, by simp⟩
  | cons q qs ih =>
    obtain ⟨m, h1, h2⟩ := andThen_eq_next.mp h
    obtain ⟨n, h3, h4⟩ := andThen_eq_next.mp h1
    obtain rfl : _ = m := by simpa using h4
    have hsame := runCommand_rd h3
    obtain ⟨hj, hcyc, r, es, hans, hout, hhist⟩ := runCommand_rd_answers h3
    simp only [List.map_cons, List.nodup_cons] at hn
    obtain ⟨i1, i2, ⟨fs, i3, i4⟩, i5⟩ := ih h2 hn.2
    simp only [State.onCyc_cyc, State.onCyc_hist, State.onCyc_rdOut, State.onCyc_cfg, hcyc, hout, hhist] at i1 i2 i3 i4 i5
    refine ⟨by simp [i1], i2, ⟨es ++ fs, by rw [i3, List.append_assoc], fun j hjn => ?_⟩, fun p hp => ?_⟩
    · simp only [List.map_cons, List.mem_cons, not_or] at hjn
      refine ⟨by rw [(i4 j hjn.2).1, List.getElem?_set_ne (Ne.symm hjn.1)], fun x hx => ?_⟩
      rcases List.mem_append.mp hx with hx | hx
      · exact answers_events hans (Ne.symm hjn.1) x hx
      · exact (i4 j hjn.2).2 x hx
    · rcases List.mem_cons.mp hp with rfl | hp
      · refine ⟨r, es, [], fs, hans, fun hl => ?_, by simp [i3], ?_⟩
        · rw [(i4 p.agent hn.1).1, List.getElem?_set_self (by omega)]
        · simpa using (i4 p.agent hn.1).2
      · obtain ⟨r', es', pre, post, j1, j2, j3, j4⟩ := i5 p hp
        have hne : q.agent ≠ p.agent := fun he => hn.1 (he ▸ List.mem_map_of_mem hp)
        refine ⟨r', es', es ++ pre, post, ?_, fun hl => j2 ?_, by simp [j3], fun x hx => ?_⟩
        · exact (answers_of_eq (by simpa using hsame.cfg) (by simpa using hsame.fb) (by simpa using hsame.stale) ..).mp j1
        · simpa [hsame.cfg] using hl
        · rw [List.append_assoc, List.mem_append] at hx
          rcases hx with hx | hx
          · exact answers_events hans hne x hx
          · exact j4 x hx

/-- The requests served at an edge are pending ones of the readers it names, each reader's once. -/
theorem mem_servedNow {pend : List RdReq} {serve : List Nat} {q : RdReq} :
    q ∈ servedNow pend serve ↔ q.agent ∈ serve ∧ (pend.find? fun p => p.agent == q.agent) = some q := by
  simp only [servedNow, List.mem_filterMap, List.mem_eraseDups]
  constructor
  · rintro ⟨j, hj, hq⟩
    obtain rfl : q.agent = j := by simpa using List.find?_some hq
    exact ⟨hj, hq⟩
  · exact fun ⟨h1, h2⟩ => ⟨_, h1, h2⟩

theorem nodup_eraseDups (l : List Nat) : l.eraseDups.Nodup := by
  induction h : l.length using Nat.strong_induction_on generalizing l with
  | _ n ih =>
    cases l with
    | nil => simp
    | cons a l =>
      rw [List.eraseDups_cons, List.nodup_cons]
      refine ⟨by simp, ih _ ?_ _ rfl⟩
      have := List.length_filter_le (fun b => !b == a) l
      simp only [List.length_cons] at h
      omega

theorem servedNow_nodup (pend : List RdReq) (serve : List Nat) : ((servedNow pend serve).map RdReq.agent).Nodup := by
  have key : ∀ l : List Nat, l.Nodup →
      ((l.filterMap fun j => pend.find? fun q => q.agent == j).map RdReq.agent).Nodup := by
    intro l hl
    refine (List.Nodup.sublist ?_ hl)
    clear hl
    induction l with
    | nil => simp
    | cons j l ih =>
      cases hj : pend.find? fun q => q.agent == j with
      | none => simpa [hj] using ih.trans (List.sublist_cons_self j l)
      | some q =>
        have hq : q.agent = j := by simpa using List.find?_some hj
        simpa [hj, hq] using ih
  exact key _ (nodup_eraseDups serve)

/-- A request that is pending stays first of its reader's. -/
theorem mem_latchReaders_of_mem {pend qs : List RdReq} {q : RdReq} (h : q ∈ pend) : q ∈ latchReaders pend qs := by
  induction qs generalizing pend with
  | nil => exact h
  | cons p qs ih =>
    refine ih ?_
    split
    · exact h
    · exact List.mem_append_left _ h

/-- Every latched request was pending or is on the ports. -/
theorem mem_of_mem_latchReaders {pend qs : List RdReq} {q : RdReq} (h : q ∈ latchReaders pend qs) : q ∈ pend ∨ q ∈ qs := by
  induction qs generalizing pend with
  | nil => exact .inl h
  | cons p qs ih =>
    rcases ih h with h | h
    · split at h
      · exact .inl h
      · rcases List.mem_append.mp h with h | h
        · exact .inl h
        · exact .inr (by simp_all)
    · exact .inr (List.mem_cons_of_mem _ h)

/-- The first request on the ports of a reader with none pending is latched (R118). -/
theorem mem_latchReaders_of_find {pend qs : List RdReq} {q : RdReq} (hp : ∀ p ∈ pend, p.agent ≠ q.agent)
    (h : (qs.find? fun p => p.agent == q.agent) = some q) : q ∈ latchReaders pend qs := by
  induction qs generalizing pend with
  | nil => simp at h
  | cons p qs ih =>
    by_cases hpq : p.agent = q.agent
    · obtain rfl : p = q := by simpa [hpq] using h
      have : pend.any (fun x => x.agent == p.agent) = false := by simpa using hp
      rw [latchReaders]
      exact mem_latchReaders_of_mem (by simp [this])
    · have h' : (qs.find? fun p => p.agent == q.agent) = some q := by simpa [hpq] using h
      refine ih (fun x hx => ?_) h'
      split at hx
      · exact hp x hx
      · rcases List.mem_append.mp hx with hx | hx
        · exact hp x hx
        · obtain rfl : x = p := by simpa using hx
          exact hpq

/-- What a command of the host's ports leaves to the readers: their replies, the cycle-level registers and no Read event. -/
structure LeavesReaders (s t : State) : Prop where
  rdOut : t.rdOut = s.rdOut
  rdPend : t.cyc.rdPend = s.cyc.rdPend
  rdAck : t.cyc.rdAck = s.cyc.rdAck
  hist : ∃ es, t.hist = s.hist ++ es ∧ ∀ x ∈ es, ∀ j, x.isReadOf j = false

theorem LeavesReaders.refl (s : State) : LeavesReaders s s := ⟨rfl, rfl, rfl, [], by simp⟩

theorem LeavesReaders.trans {s t u : State} (h : LeavesReaders s t) (g : LeavesReaders t u) : LeavesReaders s u := by
  obtain ⟨es, h1, h2⟩ := h.hist
  obtain ⟨fs, g1, g2⟩ := g.hist
  refine ⟨g.rdOut.trans h.rdOut, g.rdPend.trans h.rdPend, g.rdAck.trans h.rdAck, es ++ fs, by simp [g1, h1], fun x hx => ?_⟩
  rcases List.mem_append.mp hx with hx | hx
  · exact h2 x hx
  · exact g2 x hx

theorem leavesReaders_onCyc {s : State} {f : Cycle → Cycle} (h1 : (f s.cyc).rdPend = s.cyc.rdPend)
    (h2 : (f s.cyc).rdAck = s.cyc.rdAck) : LeavesReaders s (s.onCyc f) := ⟨rfl, h1, h2, [], by simp⟩

theorem LeavesReaders.refuse (s : State) : LeavesReaders s s.refuse := ⟨rfl, rfl, rfl, [], by simp⟩

/-- The host's ports carry no read. -/
theorem decode_not_read {cfg : Config} {c : Command} {i : Instr} (hw : waitsForIdle c = true) (h : decode cfg c = .ok i) :
    ¬((∃ j a, i = .rd8 j a ∨ i = .rd16 j a) ∨ ∃ k, i = .diagrd k) := by
  cases c with
  | pkt bytes =>
    simp only [decode, decodePacket] at h
    split at h
    · split at h
      · rename_i p _
        obtain rfl : _ = i := by simpa using h
        cases p.cls cfg <;> simp [Instr.ofClass]
      · simp at h
    · simp at h
  | flush => obtain rfl : _ = i := by simpa [decode] using h
             simp
  | fatal k =>
    simp only [decode] at h
    split at h
    · simp at h
    · obtain rfl : _ = i := by simpa using h
      simp
  | rd j a sz => simp [waitsForIdle] at hw
  | diag k => simp [waitsForIdle] at hw

theorem runCommand_leavesReaders {c : Command} {s t : State} (hw : waitsForIdle c = true)
    (h : runCommand c s = .next t) : LeavesReaders s t := by
  obtain ⟨i, h1, h2⟩ | ⟨-, rfl⟩ := runCommand_eq_next.mp h
  · have hi := decode_not_read hw h1
    obtain ⟨-, rfl⟩ | ⟨-, p, -, -, -, rfl⟩ | ⟨-, p, -, -, -, rfl⟩ | ⟨-, p, -, -, -, rfl⟩ | ⟨-, p, -, -, -, rfl⟩ |
      ⟨-, -, rfl⟩ | ⟨k, -, -, rfl⟩ | ⟨hr, -⟩ := exec_cases h2
    · exact .refuse s
    all_goals first | exact absurd hr hi | exact ⟨by simp, by simp, by simp, _, by simp; rfl, by simp [Event.isReadOf]⟩
  · exact .refuse s

theorem takeFatals_leavesReaders {cs : List (BitVec 2)} {s t : State} (h : takeFatals cs s = .next t) :
    LeavesReaders s t := by
  induction cs generalizing s with
  | nil =>
    obtain rfl : s = t := by simpa [takeFatals] using h
    exact .refl s
  | cons c cs ih =>
    obtain ⟨m, h1, h2⟩ := andThen_eq_next.mp h
    exact (runCommand_leavesReaders rfl h1).trans (ih h2)

/-- R224, R248: the host's ports leave the readers alone. -/
theorem hostPorts_leavesReaders {e : Edge} {s t : State} (h : hostPorts e s = .next t) : LeavesReaders s t := by
  have hh : LeavesReaders s (holdFatal e s) := leavesReaders_onCyc rfl rfl
  unfold hostPorts at h
  cases hp : s.cyc.phase with
  | idle =>
    rw [hp] at h
    rcases idleEdge_eq_next h with ⟨-, h⟩ | ⟨-, ⟨-, rfl⟩ | ⟨-, ⟨-, rfl⟩ | ⟨-, ⟨b, -, -, rfl⟩ | ⟨b, -, -, rfl⟩ |
      ⟨-, -, rfl⟩ | ⟨-, -, rfl⟩⟩⟩⟩
    · exact (leavesReaders_onCyc (s := s) rfl rfl).trans (takeFatals_leavesReaders h)
    · exact .refl _
    · exact leavesReaders_onCyc rfl rfl
    · exact leavesReaders_onCyc rfl rfl
    · exact .refuse s
    · exact leavesReaders_onCyc rfl rfl
    · exact .refl _
  | packet bytes =>
    rw [hp] at h
    rcases packetEdge_eq_next h with ⟨-, rfl⟩ | ⟨-, u, h1, rfl⟩
    · exact leavesReaders_onCyc rfl rfl
    · exact ((hh.trans (leavesReaders_onCyc rfl rfl)).trans (runCommand_leavesReaders rfl h1)).trans
        (leavesReaders_onCyc rfl rfl)
  | flush =>
    rw [hp] at h
    rcases flushEdge_eq_next h with ⟨-, rfl⟩ | ⟨-, u, h1, rfl⟩
    · exact leavesReaders_onCyc rfl rfl
    · exact ((hh.trans (leavesReaders_onCyc rfl rfl)).trans (runCommand_leavesReaders rfl h1)).trans
        (leavesReaders_onCyc rfl rfl)

/-- A diagnostic read is no reader's. -/
theorem diagPort_leavesReaders {e : Edge} {s t : State} (h : diagPort e s = .next t) : LeavesReaders s t := by
  unfold diagPort at h
  cases hd : e.diag with
  | none =>
    obtain rfl : s = t := by simpa [hd] using h
    exact .refl s
  | some k =>
    rw [hd] at h
    obtain rfl : _ = t := by simpa [runCommand, decode, exec, execDiagrd_next] using h
    exact ⟨rfl, rfl, rfl, _, rfl, by simp [Event.isReadOf]⟩

theorem rowProgress_leavesReaders (e : Edge) (s : State) : LeavesReaders s (rowProgress e s) := by
  rcases rowProgress_cases e s with h | ⟨bytes, mask, -, h⟩ <;> rw [h]
  · exact .refl s
  · exact ⟨by simp, by simp, by simp, [], by simp⟩

/-- The row bytes of an edge depend on the configuration, FB, SEEN and the step in progress alone. -/
theorem rowProgress_of_eq (e : Edge) {s t : State} (hc : t.cfg = s.cfg) (hf : t.fb = s.fb) (hs : t.stale = s.stale)
    (hp : t.cyc.phase = s.cyc.phase) :
    (rowProgress e t).cfg = (rowProgress e s).cfg ∧ (rowProgress e t).fb = (rowProgress e s).fb ∧
      (rowProgress e t).stale = (rowProgress e s).stale := by
  unfold rowProgress
  rw [hp]
  cases s.cyc.phase with
  | idle => exact ⟨hc, hf, hs⟩
  | flush => exact ⟨hc, hf, hs⟩
  | packet bytes =>
    unfold State.partialRow
    simp only [hc]
    cases classify s.cfg bytes with
    | discard => exact ⟨hc, hf, hs⟩
    | valid r payload => cases hr : inRange s.cfg r <;> simp [hr, hc, hf, hs]

/-- What a clock edge without reset does at the reader ports (R118, R282). -/
theorem clockEdge_readers {e : Edge} {s t : State} (hr : e.rst = false) (h : clockEdge e s = .next t) :
    t.cyc.rdAck = (servedNow s.cyc.rdPend e.serve).map RdReq.agent ∧
      t.cyc.rdPend = latchReaders (s.cyc.rdPend.filter fun q => !e.serve.contains q.agent)
        (e.rd.filter fun q => !s.cyc.rdPend.any (fun p => p.agent == q.agent)) ∧
      (∀ j, j ∉ t.cyc.rdAck → t.rdOut[j]? = s.rdOut[j]?) ∧
      ∀ q ∈ servedNow s.cyc.rdPend e.serve, ∃ r es pre post, (rowProgress e s).answers q r es ∧
        (s.rdOut.length = s.cfg.nReaders → t.rdOut[q.agent]? = some r) ∧
        t.hist = s.hist ++ pre ++ es ++ post ∧ ∀ x ∈ pre ++ post, x.isReadOf q.agent = false := by
  unfold clockEdge at h
  rw [hr] at h
  obtain ⟨m, h1, h2⟩ := andThen_eq_next.mp h
  obtain ⟨n, h3, h4⟩ := andThen_eq_next.mp h2
  have hm : SameButReads s m := (sameButReads_onCyc (s := s) rfl rfl rfl).trans (diagPort_reads h1)
  have lm := (diagPort_leavesReaders h1).trans (rowProgress_leavesReaders e m)
  have lt := hostPorts_leavesReaders h4
  have hcl : s.clearPulses.cyc.rdPend = s.cyc.rdPend := rfl
  obtain ⟨u, h5, h6⟩ := andThen_eq_next.mp h3
  obtain rfl : _ = n := by simpa using h6
  rw [lm.rdPend, hcl] at h5
  obtain ⟨a1, -, ⟨es, a3, a4⟩, a5⟩ := serveReaders_answers h5 (servedNow_nodup _ _)
  have hack : t.cyc.rdAck = (servedNow s.cyc.rdPend e.serve).map RdReq.agent := by
    rw [lt.rdAck, State.onCyc_cyc, a1, lm.rdAck]
    rfl
  obtain ⟨pre, p1, p2⟩ := lm.hist
  obtain ⟨post, q1, q2⟩ := lt.hist
  refine ⟨hack, ?_, fun j hj => ?_, fun q hq => ?_⟩
  · rw [lt.rdPend, State.onCyc_cyc, lm.rdPend, hcl]
    simp
  · rw [lt.rdOut, State.onCyc_rdOut, (a4 j (hack ▸ hj)).1, lm.rdOut]
    rfl
  · obtain ⟨r, es', pre', post', b1, b2, b3, b4⟩ := a5 q hq
    have heq := rowProgress_of_eq e hm.cfg hm.fb hm.stale hm.phase
    refine ⟨r, es', pre ++ pre', post' ++ post, (answers_of_eq heq.1 heq.2.1 heq.2.2 ..).mp b1, fun hl => ?_, ?_, ?_⟩
    · rw [lt.rdOut, State.onCyc_rdOut]
      refine b2 ?_
      rw [lm.rdOut, heq.1]
      rcases rowProgress_cases e s with h | ⟨bytes, mask, -, h⟩ <;> simpa [h, State.clearPulses] using hl
    · rw [q1, State.onCyc_hist, b3, p1]
      simp [State.clearPulses]
    · intro x hx
      simp only [List.mem_append] at hx b4
      rcases hx with (hx | hx) | hx | hx
      · exact p2 x hx _
      · exact b4 x (.inl hx)
      · exact b4 x (.inr hx)
      · exact q2 x hx _

/-! ### Moves -/

/-- The moves a step is made of. `L` is a property of every packet of which a part may be written: `fun _ => True` where
nothing is needed, its length where the packet in progress has it. -/
inductive Move (L : List Byte → Prop) : State → State → Prop where
  | exec {i : Instr} {s t : State} (hw : i.wf s.cfg = true) (h : exec i s = .next t) : Move L s t
  | refuse (s : State) : Move L s s.refuse
  | reset (s : State) : Move L s s.stepReset
  | partialRow {bytes : List Byte} (hl : L bytes) (mask : List Bool) (s : State) : Move L s (s.partialRow bytes mask)
  | cycle (f : Cycle → Cycle) (s : State) : Move L s (s.onCyc f)
  | host (h : HostCtl) (s : State) : Move L s { s with host := h }
  | hostUp (b : Bool) (s : State) : Move L s { s with hostUp := b }
  | inputs (l : List Input) (s : State) : Move L s { s with inputs := l }

/-- A sequence of moves. -/
abbrev Moves (L : List Byte → Prop) : State → State → Prop := Relation.ReflTransGen (Move L)

variable {L : List Byte → Prop}

theorem Move.cfg {s t : State} (h : Move L s t) : t.cfg = s.cfg := by
  cases h with
  | exec hw h =>
    rcases exec_cases h with ⟨-, rfl⟩ | ⟨-, p, -, -, -, rfl⟩ | ⟨-, p, -, -, -, rfl⟩ | ⟨-, p, -, -, -, rfl⟩ |
      ⟨-, p, -, -, -, rfl⟩ | ⟨-, -, rfl⟩ | ⟨c, -, -, rfl⟩ | ⟨-, h⟩ <;> first | exact h.cfg | simp
  | _ => simp

theorem Moves.cfg {s t : State} (h : Moves L s t) : t.cfg = s.cfg := by
  induction h with
  | refl => rfl
  | tail _ h ih => rw [h.cfg, ih]

theorem Moves.one {s t : State} (h : Move L s t) : Moves L s t := Relation.ReflTransGen.single h

theorem runCommand_moves {c : Command} {s t : State} (hc : s.cfg.wf) (h : runCommand c s = .next t) : Moves L s t := by
  rcases runCommand_eq_next.mp h with ⟨i, h1, h2⟩ | ⟨-, rfl⟩
  · exact .one (.exec (decode_wf hc h1) h2)
  · exact .one (.refuse s)

theorem present_eq_next {c : Command} {s t : State} :
    present c s = .next t ↔ (waitsForIdle c && !s.cyc.quiet) = false ∧ runCommand c s = .next t := by
  unfold present
  split <;> simp [*]

theorem takeFatals_moves {cs : List (BitVec 2)} {s t : State} (hc : s.cfg.wf) (h : takeFatals cs s = .next t) :
    Moves L s t := by
  induction cs generalizing s with
  | nil =>
    obtain rfl : s = t := by simpa [takeFatals] using h
    exact .refl
  | cons c cs ih =>
    obtain ⟨m, h1, h2⟩ := andThen_eq_next.mp h
    have hm : Moves L s m := runCommand_moves hc h1
    exact hm.trans (ih (by rw [Moves.cfg hm]; exact hc) h2)

theorem diagPort_moves {e : Edge} {s t : State} (hc : s.cfg.wf) (h : diagPort e s = .next t) : Moves L s t := by
  unfold diagPort at h
  cases hd : e.diag with
  | none =>
    obtain rfl : s = t := by simpa [hd] using h
    exact .refl
  | some k => rw [hd] at h; exact runCommand_moves hc h

theorem serveReaders_moves {qs : List RdReq} {s t : State} (hc : s.cfg.wf) (h : serveReaders qs s = .next t) :
    Moves L s t := by
  induction qs generalizing s with
  | nil =>
    obtain rfl : s = t := by simpa [serveReaders] using h
    exact .refl
  | cons q qs ih =>
    obtain ⟨m, h1, h2⟩ := andThen_eq_next.mp h
    obtain ⟨n, h3, h4⟩ := andThen_eq_next.mp h1
    obtain rfl : _ = m := by simpa using h4
    have hn : Moves L s n := runCommand_moves hc h3
    exact (hn.tail (.cycle _ n)).trans (ih (by simpa [Moves.cfg hn] using hc) h2)

theorem readerPorts_moves {e : Edge} {s t : State} (hc : s.cfg.wf) (h : readerPorts e s = .next t) : Moves L s t := by
  obtain ⟨m, h1, h2⟩ := andThen_eq_next.mp h
  obtain rfl : _ = t := by simpa using h2
  exact (serveReaders_moves hc h1).tail (.cycle _ m)

theorem hostPorts_moves {e : Edge} {s t : State} (hc : s.cfg.wf) (h : hostPorts e s = .next t) : Moves L s t := by
  unfold hostPorts at h
  cases hp : s.cyc.phase with
  | idle =>
    rw [hp] at h
    rcases idleEdge_eq_next h with ⟨-, h⟩ | ⟨-, ⟨-, rfl⟩ | ⟨-, ⟨-, rfl⟩ | ⟨-, ⟨b, -, -, rfl⟩ | ⟨b, -, -, rfl⟩ |
      ⟨-, -, rfl⟩ | ⟨-, -, rfl⟩⟩⟩⟩
    · exact .head (.cycle _ s) (takeFatals_moves hc h)
    · exact .refl
    · exact .one (.cycle _ s)
    · exact .one (.cycle _ s)
    · exact .one (.refuse s)
    · exact .one (.cycle _ s)
    · exact .refl
  | packet bytes =>
    rw [hp] at h
    have hm : Moves L s (holdFatal e s) := .one (.cycle _ s)
    rcases packetEdge_eq_next h with ⟨-, rfl⟩ | ⟨-, u, h1, rfl⟩
    · exact hm
    · have hm' := hm.tail (.cycle (fun y => { y with phase := .idle }) _)
      exact (hm'.trans (runCommand_moves (by rw [Moves.cfg hm']; exact hc) h1)).tail (.cycle _ u)
  | flush =>
    rw [hp] at h
    have hm : Moves L s (holdFatal e s) := .one (.cycle _ s)
    rcases flushEdge_eq_next h with ⟨-, rfl⟩ | ⟨-, u, h1, rfl⟩
    · exact hm
    · have hm' := hm.tail (.cycle (fun y => { y with phase := .idle }) _)
      exact (hm'.trans (runCommand_moves (by rw [Moves.cfg hm']; exact hc) h1)).tail (.cycle _ u)

theorem rowProgress_moves (e : Edge) {s : State} (hl : ∀ b, s.cyc.phase = .packet b → L b) :
    Moves L s (rowProgress e s) := by
  rcases rowProgress_cases e s with h | ⟨bytes, mask, hp, h⟩ <;> rw [h]
  exact .one (.partialRow (hl bytes hp) mask s)

theorem resetEdge_moves (e : Edge) {s : State} (hl : ∀ b, s.cyc.phase = .packet b → L b) :
    Moves L s (resetEdge e s) := by
  rcases resetEdge_cases e s with ⟨-, h⟩ | ⟨bytes, hp, h⟩ <;> rw [h]
  · exact .one (.reset s)
  · exact .tail (Moves.one (.partialRow (hl bytes hp) e.mask s)) (.reset _)

theorem clockEdge_moves {e : Edge} {s t : State} (hc : s.cfg.wf) (hl : ∀ b, s.cyc.phase = .packet b → L b)
    (h : clockEdge e s = .next t) : Moves L s t := by
  unfold clockEdge at h
  cases hr : e.rst with
  | true =>
    obtain rfl : _ = t := by simpa [hr] using h
    exact resetEdge_moves e hl
  | false =>
    rw [hr] at h
    obtain ⟨m1, h1, h2⟩ := andThen_eq_next.mp h
    obtain ⟨m2, h3, h4⟩ := andThen_eq_next.mp h2
    have hm1 : Moves L s (rowProgress e m1) :=
      .trans (.head (.cycle _ s) (diagPort_moves (s := s.clearPulses) hc h1)) (rowProgress_moves e (by rwa [(diagPort_reads h1).phase]))
    have hm2 : Moves L s m2 := hm1.trans (readerPorts_moves (by rw [Moves.cfg hm1]; exact hc) h3)
    exact hm2.trans (hostPorts_moves (by rw [Moves.cfg hm2]; exact hc) h4)

theorem hostMove_moves {x : Transfer} {s t : State} (hc : s.cfg.wf) (h : hostMove x s = .next t) : Moves L s t := by
  have key : ∀ {c : Command} {f : State → HostCtl},
      andThen (present c s) (fun s' => .next { s' with host := f s' }) = .next t → Moves L s t := by
    intro c f h
    obtain ⟨m, h1, h2⟩ := andThen_eq_next.mp h
    obtain rfl : _ = t := by simpa using h2
    exact (runCommand_moves hc (present_eq_next.mp h1).2).tail (.host _ m)
  unfold hostMove at h
  split at h
  · split at h
    · obtain rfl : _ = t := by simpa using h
      exact .one (.refuse s)
    · exact key h
  · exact key (f := fun _ => .aborted) h
  · exact key (f := fun _ => .awaitingRows) h
  · obtain rfl : s = t := by simpa using h
    exact .refl

theorem resetDuringPkt_eq_next {bytes : List Byte} {mask : List Bool} {s t : State}
    (h : resetDuringPkt bytes mask s = .next t) :
    s.cyc.quiet = true ∧
      (bytes.length ≠ s.cfg.p ∧ t = s.refuse ∨
        bytes.length = s.cfg.p ∧ s.fatal = false ∧ t = (s.partialRow bytes mask).stepReset) := by
  unfold resetDuringPkt at h
  cases hq : s.cyc.quiet
  · simp [hq] at h
  · refine ⟨rfl, ?_⟩
    by_cases hl : bytes.length = s.cfg.p
    · cases hf : s.fatal
      · right
        exact ⟨hl, rfl, by simpa [hq, hl, hf, eq_comm] using h⟩
      · simp [hq, hl, hf] at h
    · left
      exact ⟨hl, by simpa [hq, hl, eq_comm] using h⟩

/-- A setup failure, before the setup is over: FATAL 2 or 3, then ABORTED (R206). -/
theorem hostSetupFailure_eq_next {f : SetupFailure} {s t : State} :
    hostSetupFailure f s = .next t ↔
      s.hostUp = false ∧ ∃ u, present (.fatal (setupCause f)) s = .next u ∧
        t = { u with host := .aborted, hostUp := true } := by
  unfold hostSetupFailure
  cases s.hostUp with
  | true => simp
  | false => simp only [Bool.false_eq_true, if_false, true_and, andThen_eq_next, Outcome.next.injEq, @eq_comm _ t]

theorem runInput_moves {i : Input} {s t : State} (hc : s.cfg.wf) (hl : ∀ b, s.cyc.phase = .packet b → L b)
    (hp : ∀ b : List Byte, b.length = s.cfg.p → L b) (h : runInput i s = .next t) : Moves L s t := by
  cases i with
  | cmd c => exact runCommand_moves hc (present_eq_next.mp h).2
  | reset =>
    obtain rfl : _ = t := by simpa [runInput] using h
    exact .one (.reset s)
  | resetDuringPkt b m =>
    rcases resetDuringPkt_eq_next h with ⟨-, ⟨-, rfl⟩ | ⟨hb, -, rfl⟩⟩
    · exact .one (.refuse s)
    · exact .tail (Moves.one (.partialRow (hp b hb) m s)) (.reset _)
  | host x => exact hostMove_moves hc h
  | hostSetup f =>
    obtain ⟨-, m, h1, rfl⟩ := hostSetupFailure_eq_next.mp h
    exact ((runCommand_moves hc (present_eq_next.mp h1).2).tail (.host .aborted m)).tail (.hostUp true _)
  | pause =>
    obtain rfl : s = t := by simpa [runInput] using h
    exact .refl
  | together x =>
    obtain rfl : _ = t := by simpa [runInput] using h
    exact .one (.inputs _ s)
  | clk e => exact clockEdge_moves hc hl h

/-- Every step is a sequence of moves. -/
theorem step_moves {s t : State} (hl : ∀ b, s.cyc.phase = .packet b → L b) (hp : ∀ b : List Byte, b.length = s.cfg.p → L b)
    (h : step s = .next t) : Moves L s t := by
  unfold step advance at h
  split at h
  · rename_i hc
    split at h
    · obtain rfl : s = t := by simpa using h
      exact .refl
    · rename_i rest _
      exact .head (.inputs rest s) (.head (.hostUp _ _) (runInput_moves (s := State.enterLoop _ _) hc hl hp h))
  · obtain rfl : _ = t := by simpa using h
    exact .tail (Moves.one (.refuse s)) (.inputs _ _)

theorem Moves.keeps {P : State → Prop} (hP : ∀ {s t}, Move L s t → P s → P t) {s t : State} (h : Moves L s t)
    (hs : P s) : P t := by
  induction h with
  | refl => exact hs
  | tail _ hm ih => exact hP hm ih

/-- A property that every move keeps, every step keeps. -/
theorem step_keeps {P : State → Prop} (hP : ∀ {s t}, Move (fun _ => True) s t → P s → P t) {s t : State}
    (h : step s = .next t) (hs : P s) : P t :=
  (step_moves (fun _ _ => trivial) (fun _ _ => trivial) h).keeps hP hs

/-- The same where the packet in progress has its length (`State.cycleOk`): of packets of P bytes alone a part is written. -/
theorem step_keeps_of_sized {P : State → Prop} {s t : State}
    (hP : ∀ {u v}, Move (fun b => b.length = s.cfg.p) u v → P u → P v)
    (hl : ∀ b, s.cyc.phase = .packet b → b.length = s.cfg.p) (h : step s = .next t) (hs : P s) : P t :=
  (step_moves hl (fun _ hb => hb) h).keeps hP hs

end Sys2Proof.Machine
end

