-- ==== Sys2Proof/Tests/Slice0.lean ====
section
/-! SUPPORT. Tests, with expected results from 95_test_vectors.md and the rules, never from a run; and for every obligation with hypotheses a concrete state and operands that meet them all together. -/

set_option autoImplicit false
set_option Elab.async false

namespace Sys2Proof.Tests

open Sys2Proof Sys2Proof.Machine

/-! ### Helpers -/

/-- The reference values at the other nibble position. -/
def refLow : Config := { Config.reference with nibblePos := .low }

/-- The reference values with the diagnostic state ("HD" of 95_test_vectors.md). -/
def refHd : Config := { Config.reference with hasDiag := true }

/-- A small geometry: 3 rows of one sample, P = 6, FB_SIZE = 6, FB_INIT all 0x55. -/
def tiny : Config :=
  { Config.reference with p := 6, rows := 3, cols := 1, hasDiag := true, fbInit := List.replicate 6 0x55#8 }

/-- Power-up in the small geometry. -/
def s0 : State := State.powerUp tiny

/-- A packet of the small geometry. -/
def pk (status : Nibble) (row a b : Byte) : Packet := ⟨status, 0, row, [0, 0], [a, b]⟩

/-- Its bytes under HIGH. -/
def by6 (h0 row a b : Byte) : List Byte := [h0, row, 0, 0, a, b]

/-- The state after an outcome, or the state before where there is none. -/
def nextOr (o : Host.Outcome State Fault Refusal) (s : State) : State :=
  match o with
  | .next t => t
  | .fault _ => s
  | .refused _ => s

/-- The outcome is that next state. -/
def runsTo (o : Host.Outcome State Fault Refusal) (t : State) : Bool :=
  match o with
  | .next u => decide (u = t)
  | .fault _ => false
  | .refused _ => false

/-- The outcome is that fault. -/
def stops (o : Host.Outcome State Fault Refusal) (f : Fault) : Bool :=
  match o with
  | .next _ => false
  | .fault g => decide (g = f)
  | .refused _ => false

theorem runsTo_iff {o : Host.Outcome State Fault Refusal} {t : State} : runsTo o t = true ↔ o = .next t := by
  cases o <;> simp [runsTo]

/-- The state after an instruction, a command, a step. -/
def go (i : Instr) (s : State) : State := nextOr (exec i s) s
def port (c : Command) (s : State) : State := nextOr (runCommand c s) s
def stp (s : State) : State := nextOr (step s) s

/-- Inputs presented. -/
def withIn (s : State) (l : List Input) : State := { s with inputs := l }

/-- A PKT of the reference geometry in text form (R121). -/
def refPkt (b0 b1 b2 b3 : Byte) (pl : PayloadSpec) : Command := .pkt (b0 :: b1 :: b2 :: b3 :: pl.expand .reference)

/-- Power-up of the reference geometry with DIAG, all-zero FB: the start state of section 2.2. -/
def h0 : State := State.powerUp refHd

/-- Row 0 written and not flushed; FATAL with cause 1; an edge with nothing on it. -/
def dirty : State := go (.pktRow (pk 0 0 0x01 0x02)) s0
def dead : State := go (.fatal 1#2) s0
def quietEdge : Edge := ⟨false, none, false, none, [], none, [], false, []⟩

/-- A packet for row 1 accepted at cycle level. -/
def inFlight : State := nextOr (clockEdge { quietEdge with pkt := some (by6 0 1 0x0A 0x0B) } s0) s0

/-! ### Well-formedness: one ill-formed term for each check -/

theorem test_wf_configuration :
    ([.reference, tiny, { Config.reference with p := 163 }, { Config.reference with hdrLen := 1, p := 161 },
      { Config.reference with sampleBytes := 1, p := 84 }, { Config.reference with rows := 0 },
      { Config.reference with rows := 257 }, { Config.reference with cols := 0, p := 4 },
      { Config.reference with discardValue := 16 }] : List Config).map (fun c => decide c.wf) =
      [true, true, false, false, false, false, false, false, false] := by decide +kernel

theorem test_wf_pktDiscard :
    (Instr.pktDiscard (pk 0xF 0 1 2)).wf tiny = true ∧ (Instr.pktDiscard (pk 0 0 1 2)).wf tiny = false ∧
    (Instr.pktDiscard { pk 0xF 0 1 2 with hdr := [0] }).wf tiny = false ∧
    (Instr.pktDiscard { pk 0xF 0 1 2 with payload := [1, 2, 3] }).wf tiny = false := by decide +kernel

theorem test_wf_pktOor :
    (Instr.pktOor (pk 0 3 1 2)).wf tiny = true ∧ (Instr.pktOor (pk 0 2 1 2)).wf tiny = false ∧
    (Instr.pktOor (pk 0xF 3 1 2)).wf tiny = false ∧ (Instr.pktOor { pk 0 3 1 2 with payload := [] }).wf tiny = false := by
  decide +kernel

theorem test_wf_pktLast :
    (Instr.pktLast (pk 0 2 1 2)).wf tiny = true ∧ (Instr.pktLast (pk 0 1 1 2)).wf tiny = false ∧
    (Instr.pktLast (pk 0 3 1 2)).wf tiny = false ∧ (Instr.pktLast (pk 0xF 2 1 2)).wf tiny = false ∧
    (Instr.pktLast { pk 0 2 1 2 with hdr := [] }).wf tiny = false := by decide +kernel

theorem test_wf_pktRow :
    (Instr.pktRow (pk 0 1 1 2)).wf tiny = true ∧ (Instr.pktRow (pk 0 2 1 2)).wf tiny = false ∧
    (Instr.pktRow (pk 0xF 1 1 2)).wf tiny = false ∧ (Instr.pktRow { pk 0 1 1 2 with hdr := [0] }).wf tiny = false := by
  decide +kernel

theorem test_wf_reads_and_fatal :
    (Instr.rd8 0 7).wf tiny = true ∧ (Instr.rd8 1 0).wf tiny = false ∧ (Instr.rd8 0 8).wf tiny = false ∧
    (Instr.rd16 0 7).wf tiny = true ∧ (Instr.rd16 1 0).wf tiny = false ∧ (Instr.rd16 0 8).wf tiny = false ∧
    (Instr.fatal 3#2).wf tiny = true ∧ (Instr.fatal 0#2).wf tiny = false := by decide +kernel

/-- The decoder refuses by name what R111, R113, R120 and R254 shut out. -/
theorem test_decode_rejects :
    decode tiny (.pkt [0, 0, 0, 0, 0]) = .error .badLength ∧ decode tiny (.pkt []) = .error .badLength ∧
    decode tiny (.fatal 0#2) = .error .reservedCause ∧ decode tiny (.rd 1 0 false) = .error .noSuchReader ∧
    decode tiny (.rd 0 8 true) = .error .addrTooWide := by decide +kernel

/-! ### Decoding: words written out from R101 to R113 and the vectors of section 2.1 -/

/-- The payload-less packet of a header word, as the decoder should give it. -/
def z (status spare : Nibble) (row : Byte) : Packet := ⟨status, spare, row, [0, 0], List.replicate 160 0⟩

/-- V1.1 to V1.8 under HIGH. -/
theorem test_decode_V1_high :
    decodeTableWord 16 0x0000 = some (.pktRow (z 0x0 0x0 0)) ∧ decodeTableWord 16 0x0F05 = some (.pktRow (z 0x0 0xF 5)) ∧
    decodeTableWord 16 0xF006 = some (.pktDiscard (z 0xF 0x0 6)) ∧
    decodeTableWord 16 0xFF00 = some (.pktDiscard (z 0xF 0xF 0)) ∧
    decodeTableWord 16 0xE03B = some (.pktLast (z 0xE 0x0 59)) ∧
    decodeTableWord 16 0xF33B = some (.pktDiscard (z 0xF 0x3 59)) ∧
    decodeTableWord 16 0x1FC8 = some (.pktOor (z 0x1 0xF 200)) ∧
    decodeTableWord 16 0x7EFF = some (.pktOor (z 0x7 0xE 255)) := by decide +kernel

/-- V1.1 to V1.8 under LOW. -/
theorem test_decode_V1_low :
    decode refLow (refPkt 0x00 0x00 0 0 .zero) = .ok (.pktRow (z 0x0 0x0 0)) ∧
    decode refLow (refPkt 0x0F 0x05 0 0 .zero) = .ok (.pktDiscard (z 0xF 0x0 5)) ∧
    decode refLow (refPkt 0xF0 0x06 0 0 .zero) = .ok (.pktRow (z 0x0 0xF 6)) ∧
    decode refLow (refPkt 0xFF 0x00 0 0 .zero) = .ok (.pktDiscard (z 0xF 0xF 0)) ∧
    decode refLow (refPkt 0xE0 0x3B 0 0 .zero) = .ok (.pktLast (z 0x0 0xE 59)) ∧
    decode refLow (refPkt 0xF3 0x3B 0 0 .zero) = .ok (.pktLast (z 0x3 0xF 59)) ∧
    decode refLow (refPkt 0x1F 0xC8 0 0 .zero) = .ok (.pktDiscard (z 0xF 0x1 200)) ∧
    decode refLow (refPkt 0x7E 0xFF 0 0 .zero) = .ok (.pktOor (z 0xE 0x7 255)) := by decide +kernel

/-- V1.9 to V1.14: the row-index boundaries. -/
theorem test_decode_row_boundaries :
    ([0x00, 0x3A, 0x3B, 0x3C, 0xC8, 0xFF] : List Byte).map (fun r => pktClass .reference [0, r]) =
      [.row, .row, .last, .oor, .oor, .oor] := by decide +kernel

/-- V1.16, V1.17: ROWS = 256 and ROWS = 1. -/
theorem test_decode_geometry_corners :
    pktClass { Config.reference with rows := 256 } [0, 0xFF] = .last ∧
    pktClass { Config.reference with rows := 1 } [0, 0x00] = .last := by decide +kernel

/-- R110 to R113: the other ports. -/
theorem test_decode_ports :
    decode .reference .flush = .ok .flush ∧ decode .reference (.rd 0 16383 false) = .ok (.rd8 0 16383) ∧
    decode .reference (.rd 0 16383 true) = .ok (.rd16 0 16383) ∧ decode .reference (.diag 6#3) = .ok (.diagrd 6#3) ∧
    decode .reference (.fatal 3#2) = .ok (.fatal 3#2) := by decide +kernel

/-- R124, R102: byte 0 of an encoding under HIGH and LOW, by hand. -/
theorem test_encode_byte_zero :
    encode tiny (.pktRow ⟨0x1, 0xF, 0x02, [0xDE, 0xAD], [0x12, 0x34]⟩) = .pkt [0x1F, 0x02, 0xDE, 0xAD, 0x12, 0x34] ∧
    encode { tiny with nibblePos := .low } (.pktRow ⟨0x1, 0xF, 0x02, [0xDE, 0xAD], [0x12, 0x34]⟩) =
      .pkt [0xF1, 0x02, 0xDE, 0xAD, 0x12, 0x34] := by decide +kernel

/-- The step after withFetchWord runs the word's packet: HW 0x003B is LAST, so `done` is reported. -/
theorem test_fetch_word_runs : (stp (State.reset.withFetchWord 16 0x003B)).rsp = ⟨true, 59, true, true, false⟩ := by
  decide +kernel

/-! ### The PKT instructions (section 2.2) -/

/-- V2.1, V2.2: FILL writes 12 34 alternately in its row, and the byte after the row is as before. -/
theorem test_row_fill :
    (let t := port (refPkt 0 5 0 0 (.fill 0x1234)) h0
     (t.rsp, [799, 800, 801, 958, 959, 960].map t.fbAt, t.diag.pktCnt, t.diag.rowWrCnt, t.diag.rowsSeenPop)) =
      (⟨true, 5, true, false, false⟩, [0x00, 0x12, 0x34, 0x12, 0x34, 0x00], 1, 1, 1) := by decide +kernel

/-- V2.3: the last row. -/
theorem test_last_ramp :
    (let t := port (refPkt 0 59 0 0 (.ramp 59)) h0
     (t.rsp, [9439, 9440, 9441, 9598, 9599].map t.fbAt, t.diag.frameCnt, t.diag.incompleteCnt, t.diag.rowsSeenPop)) =
      (⟨true, 59, true, true, false⟩, [0x00, 0x3B, 0x00, 0x3B, 0x4F], 1, 1, 0) := by decide +kernel

/-- V2.12 in the small geometry: all rows, then the last one, then the last one again. -/
theorem test_last_all_rows :
    (let t := go (.pktLast (pk 0 2 0 0)) (go (.pktRow (pk 0 1 0 0)) (go (.pktRow (pk 0 0 0 0)) s0))
     let u := go (.pktLast (pk 0 2 0 0)) t
     (t.rsp.allRows, t.diag.incompleteCnt, u.rsp.allRows, u.diag.incompleteCnt, u.diag.frameCnt)) =
      (true, 0, false, 1, 2) := by decide +kernel

/-- V2.5 to V2.7. -/
theorem test_oor_writes_nothing :
    (let t := port (refPkt 0 60 0 0 (.fill 0xFFFF)) h0
     (t.rsp, t.fb, t.stale, t.diag.oorCnt, t.diag.pktCnt)) = (⟨true, 60, false, false, false⟩, [], [], 1, 1) := by
  decide +kernel

/-- V2.11: a discard packet with row 59 does not complete. -/
theorem test_discard_last_row :
    (let t := port (refPkt 0xF0 0x3B 0 0 (.fill 0x9999)) h0
     (t.rsp, t.fb, t.diag.discardCnt, t.diag.frameCnt)) = (⟨false, 0, false, false, false⟩, [], 1, 0) := by decide +kernel

/-- V2.9: SEEN[1121] = {0x00, 0xAB} after one or two steps, and FB the same. -/
theorem test_row_twice :
    (let t := port (refPkt 0 7 0 0 (.fill 0x00AB)) h0
     let u := port (refPkt 0 7 0 0 (.fill 0x00AB)) t
     (t.seenAt 1121, u.seenAt 1121, decide (u.fb = t.fb), u.diag.pktCnt)) = ([0x00, 0xAB], [0x00, 0xAB], true, 2) := by
  decide +kernel

/-! ### Sink ports (section 2.4) -/

/-- V4.1 to V4.12: `ROW 3 : FILL 0x1234`, `ROW 59 : RAMP 59`, `FLUSH`, then reads. -/
theorem test_reads :
    (let t := port .flush (port (refPkt 0 59 0 0 (.ramp 59)) (port (refPkt 0 3 0 0 (.fill 0x1234)) State.reset))
     ([(480, false), (481, false), (480, true), (9599, false), (9598, true), (9599, true), (481, true), (9600, false),
       (9600, true), (16383, false), (0, false)] : List (Nat × Bool)).map
       fun q => (port (.rd 0 q.1 q.2) t).rdOut) =
      [[⟨false, 0x0012⟩], [⟨false, 0x0034⟩], [⟨false, 0x3412⟩], [⟨false, 0x004F⟩], [⟨false, 0x4F3B⟩], [⟨true, 0⟩],
       [⟨true, 0⟩], [⟨true, 0⟩], [⟨true, 0⟩], [⟨true, 0⟩], [⟨false, 0x0000⟩]] := by decide +kernel

/-- V4.15 in the small geometry, and R220's example: SEEN before and after FLUSH. -/
theorem test_flush_seen :
    dirty.seenAt 0 = [0x01, 0x55] ∧ dirty.seenAt 1 = [0x02, 0x55] ∧ (go .flush dirty).seenAt 0 = [0x01] ∧
    (go .flush dirty).fb = dirty.fb := by decide +kernel

/-- V4.18 to V4.22. -/
theorem test_status :
    (go (.diagrd 7#3) State.reset).diagRdata = 0 ∧ (go (.diagrd 7#3) h0).diagRdata = 8 ∧
    (go (.diagrd 7#3) (go (.fatal 1#2) State.reset)).diagRdata = 3 ∧
    (go (.diagrd 7#3) (go (.fatal 2#2) h0)).diagRdata = 0xD ∧ (go (.diagrd 7#3) (go (.fatal 3#2) h0)).diagRdata = 0xF := by
  decide +kernel

/-- P2 line 7 in the small geometry: DISCARD, OOR, ROW, ROW, LAST, then DIAGRD 0 to 7. -/
theorem test_diag_registers :
    (let t := [by6 0xFF 1 9 9, by6 0 200 9 9, by6 0 1 9 9, by6 0 1 8 8, by6 0 2 0 1].foldl (fun s b => port (.pkt b) s) s0
     (List.range 8).map fun k => (go (.diagrd (BitVec.ofNat 3 k)) t).diagRdata) = [5, 1, 1, 3, 1, 1, 0, 8] := by
  decide +kernel

/-- V4.13: sample_value(3, 0) under BIG and LITTLE. -/
theorem test_sample_value :
    (let t := port (refPkt 0 3 0 0 (.fill 0x1234)) State.reset
     (t.sampleValue 3 0, { t with cfg := { t.cfg with sampleByteOrder := .little } }.sampleValue 3 0)) =
      (0x1234, 0x3412) := by decide +kernel

/-- V3.1 to V3.10. -/
theorem test_addresses :
    ([(0, 0, 0), (0, 79, 1), (1, 0, 0), (3, 0, 0), (5, 0, 0), (5, 79, 1), (30, 40, 0), (59, 0, 0), (59, 79, 1)] :
      List (Nat × Nat × Nat)).map (fun q => fbAddr .reference q.1 q.2.1 q.2.2) =
      [0, 159, 160, 480, 800, 959, 4880, 9440, 9599] ∧ Config.reference.fbAddrW = 14 ∧ Config.reference.fbSize = 9600 := by
  decide +kernel

/-! ### The fatal state, reset, refusals (sections 2.5, 2.6) -/

/-- V5.2: the first cause is kept and both are recorded. -/
theorem test_fatal_first_cause :
    (let t := go (.fatal 1#2) (go (.fatal 3#2) State.reset)
     (t.fatal, t.cause, t.hist)) = (true, 3#2, [.reset, .fatal 3#2, .fatal 1#2]) := by decide +kernel

/-- V5.3. -/
theorem test_fatal_zero : (let t := port (.fatal 0#2) State.reset; (t.fatal, t.cause, t.refused)) = (false, 0#2, true) := by
  decide +kernel

/-- V6.1, V6.2: reset clears FATAL and DIAG, not FB nor SEEN. -/
theorem test_reset :
    (let t := stp (withIn (go (.fatal 3#2) dirty) [.reset])
     (t.fatal, t.cause, t.diag.pktCnt, t.diag.rowsSeenPop, t.seenAt 0, t.fbAt 0)) =
      (false, 0#2, 0, 0, [0x01, 0x55], 0x01) := by decide +kernel

/-- V6.3 in the small geometry: one byte of the row written. -/
theorem test_reset_during_packet :
    (let t := stp (withIn s0 [.resetDuringPkt (by6 0 1 0x12 0x34) [false, true]])
     (t.fbAt 2, t.fbAt 3, t.seenAt 2, t.seenAt 3, t.hist)) = (0x55, 0x34, [0x55], [0x34, 0x55], [.reset]) := by
  decide +kernel

/-! ### Text (R121 to R123) -/

/-- P2 lines 1 to 3 and 6, parsed and expanded. -/
theorem test_text :
    (parseProgram tiny "PKT 0xFF, 0x03, 0x00, 0x00 : FILL 0xAAAA ; noise\nROW 3 : RAMP 7\n\nRD16 4\nDISCARD\nFLUSH").map
        (assemble tiny 0) =
      some [.pkt [0xFF, 3, 0, 0, 0xAA, 0xAA], .pkt [0, 3, 0, 0, 7, 0], .rd 0 4 true, .pkt [0xFF, 0, 0, 0, 0, 0], .flush] := by
  decide +kernel

/-- R123: FRAME in the small geometry. -/
theorem test_frame_expansion :
    assemble tiny 0 [.frame] =
      [.pkt [0, 0, 0, 0, 0, 0], .pkt [0, 1, 0, 0, 1, 0], .pkt [0, 2, 0, 0, 2, 0], .flush] := by decide +kernel

/-! ### The cycle level -/

/-- R119, R246, R116: a strobe during a packet step is held past the response, then taken. -/
theorem test_cycle_strobe_held :
    (let t := nextOr (clockEdge { quietEdge with fatalReq := some 2#2, finish := true } inFlight) inFlight
     let u := nextOr (clockEdge quietEdge t) t
     (t.fatal, t.cyc.rspValid, t.rsp.row, t.pktReady false, u.fatal, u.cause, u.cyc.rspValid)) =
      (false, true, 1, false, true, 2#2, false) := by decide +kernel

/-- The state after an edge. -/
def edge (e : Edge) (s : State) : State := nextOr (clockEdge e s) s

/-- A packet for row 1, a FLUSH and an RD8 presented on one edge; then the packet ends; then the FLUSH. -/
def edgeA : State :=
  edge { quietEdge with pkt := some (by6 0 1 1 2), flushReq := true, rd := [⟨0, 0, false⟩] } s0
def edgeB : State := edge { quietEdge with finish := true, serve := [0] } edgeA
def edgeC : State := edge { quietEdge with finish := true } edgeB

/-- R117: a FLUSH requested with a packet begins after its response. -/
theorem test_cycle_flush :
    edgeA.cyc.phase = .packet (by6 0 1 1 2) ∧ edgeB.cyc.phase = .flush ∧ edgeB.cyc.rspValid = true ∧
    edgeC.cyc.flushAck = true ∧ edgeC.cyc.phase = .idle := by decide +kernel

/-- R118: a reader is answered and acknowledged a cycle after its request, during the packet step. -/
theorem test_cycle_reader :
    edgeA.cyc.rdAck = [] ∧ edgeB.cyc.rdAck = [0] ∧ edgeB.rdOut = [⟨false, 0x55⟩] ∧ edgeC.cyc.rdAck = [] := by
  decide +kernel

/-- R119, R114: `diag_rdata` shows STATUS as it is now, after an edge that sets FATAL and after a reset. -/
theorem test_diag_port_current :
    (let t := edge { quietEdge with diag := some 7#3, fatalReq := some 1#2 } h0
     (t.diagRdata, t.hist, t.stepReset.diagRdata)) = (0xB, [.diagRead 7#3 8, .fatal 1#2], 8) := by decide +kernel

/-- R273 at cycle level: `rst` on the first edge after acceptance leaves the marked byte new, the other old. -/
theorem test_cycle_reset_partial_row :
    (let t := edge { quietEdge with rst := true, mask := [true, false], finish := true } inFlight
     (t.fbAt 2, t.fbAt 3, t.seenAt 2, t.seenAt 3, t.hist, t.cyc)) =
      (0x0A, 0x55, [0x0A, 0x55], [0x55], [.reset], Cycle.reset) := by decide +kernel

/-- R280: at a byte's own write edge, the first one after acceptance or the last, a reader may be given old or new. -/
theorem test_cycle_read_at_write_edge :
    (rowProgress { quietEdge with mask := [true] } inFlight).seenAt 2 = [0x0A, 0x55] ∧
    (rowProgress { quietEdge with finish := true } inFlight).seenAt 3 = [0x0B, 0x55] ∧
    (rowProgress { quietEdge with mask := [true] } inFlight).seenAt 3 = [0x55] := by decide +kernel

/-- R248: two readers acknowledged on one edge are answered in the order in which the edge names them. -/
theorem test_cycle_readers_order :
    (let c := { tiny with nReaders := 2 }
     let s := edge { quietEdge with rd := [⟨0, 0, false⟩, ⟨1, 1, false⟩] } (State.powerUp c)
     let t := edge { quietEdge with serve := [1, 1, 0] } s
     (t.hist, t.cyc.rdAck, t.cyc.rdPend)) = ([.read 1 1 0x55, .read 0 0 0x55], [1, 0], []) := by decide +kernel

/-- R206: after a packet, or after a setup failure, a setup failure has no step; in ABORTED no packet is presented. -/
theorem test_host_setup :
    stops (step (withIn (stp (withIn s0 [.cmd (.pkt (by6 0xF0 0 0 0))])) [.hostSetup .bus])) .setupOver = true ∧
    stops (step (withIn (stp (withIn s0 [.hostSetup .bus])) [.hostSetup .sink])) .setupOver = true ∧
    (stp (withIn (stp (withIn s0 [.hostSetup .bus])) [.host (.bytes (by6 0 2 0 0))])).hist = [.fatal 2#2] := by
  decide +kernel

/-! ### Witnesses: for each obligation with hypotheses, a state and operands that meet all of them (`runsTo o t = true` is `o = .next t`, by runsTo_iff) -/

/-- The invariant from its clauses. -/
theorem inv_of {s : State} (h : s.cfg.wf ∧ Mem.wf s.cfg.fbSize s.fb ∧ Stale.wf s.cfg.fbSize s.fb s.stale ∧
    (s.fatal = false ↔ s.cause = 0#2) ∧ s.diag.rowsSeen.length = s.cfg.rows ∧
    (s.cfg.hasDiag = false → s.diag = Diag.zero s.cfg.rows) ∧
    s.diag.pktCnt = s.diag.discardCnt + s.diag.oorCnt + s.diag.rowWrCnt ∧ s.rdOut.length = s.cfg.nReaders)
    (hc : s.cycleOk) : s.Inv :=
  ⟨h.1, h.2.1, h.2.2.1, h.2.2.2.1, h.2.2.2.2.1, h.2.2.2.2.2.1, h.2.2.2.2.2.2.1, h.2.2.2.2.2.2.2, hc⟩

theorem test_tiny_inv : s0.Inv := inv_of (by decide +kernel) True.intro

theorem test_dead_inv : dead.Inv := inv_of (by decide +kernel) True.intro

theorem test_inFlight_inv : inFlight.Inv := inv_of (by decide +kernel) ⟨by decide +kernel, by decide +kernel⟩

theorem test_s0_counters : s0.CountersMatch := by
  refine ⟨by decide +kernel, by decide +kernel, by decide +kernel, by decide +kernel, by decide +kernel,
    by decide +kernel, ?_⟩
  have h : ∀ r : Fin 3, s0.diag.rowsSeen[r.val]? = some (s0.rowWritten r.val) := by decide +kernel
  exact fun r hr => h ⟨r, hr⟩

/-- DecodeOfEncode: a well-formed instruction of each port, at the ends of its operands. -/
theorem test_witness_DecodeOfEncode :
    tiny.wf ∧ ([.pktDiscard (pk 0xF 255 0 0), .pktOor (pk 0 3 0 0), .pktOor (pk 0xE 255 0 0), .pktLast (pk 0 2 0 0),
      .pktRow (pk 0xE 1 0 0), .flush, .rd8 0 7, .rd16 0 0, .diagrd 7#3, .fatal 3#2] : List Instr).all
        (fun i => i.wf tiny) = true := by decide +kernel

theorem test_witness_DecodedEncodesBack :
    tiny.wf ∧ decode tiny (.rd 0 7 true) = .ok (.rd16 0 7) ∧
    decode tiny (.pkt (by6 0x03 2 1 2)) = .ok (.pktLast ⟨0, 3, 2, [0, 0], [1, 2]⟩) := by decide +kernel

theorem test_witness_PacketDecodingIsTotal : tiny.wf ∧ (by6 0xFF 0xFF 0xFF 0xFF).length = tiny.p := by decide +kernel

/-- PacketClassesByCondition: each of the four classes, at its boundary row index. -/
theorem test_witness_PacketClassesByCondition :
    tiny.wf ∧ (by6 0xF0 2 0 0).length = tiny.p ∧ pktClass tiny (by6 0xF0 2 0 0) = .discard ∧
    pktClass tiny (by6 0xE0 3 0 0) = .oor ∧ pktClass tiny (by6 0x00 2 0 0) = .last ∧
    pktClass tiny (by6 0x00 1 0 0) = .row := by decide +kernel

/-- TableMasksMatchClasses: all four rows of the table, each hit by a packet that meets the premises. -/
theorem test_witness_TableMasksMatchClasses :
    Config.reference.wf ∧ Config.reference.rows = 60 ∧ Config.reference.discardValue = 15 ∧ refLow.wf ∧
    (tableBytes .reference 16 0xF33B).length = Config.reference.p ∧
    (tableRows .high).map (fun t => t.hits (headerWord (tableBytes .reference 16 0xF03C))) = [true, false] ∧
    (tableRows .high).map (fun t => t.hits (headerWord (tableBytes .reference 16 0xE03B))) = [false, true] ∧
    (tableRows .low).map (fun t => t.hits (headerWord (tableBytes .reference 16 0x0F3C))) = [true, false] ∧
    (tableRows .low).map (fun t => t.hits (headerWord (tableBytes .reference 16 0x003B))) = [false, true] ∧
    pktClass .reference (tableBytes .reference 16 0xE03B) ≠ .discard ∧
    pktClass refLow (tableBytes .reference 16 0x003B) ≠ .discard := by decide +kernel

theorem test_witness_StatusFieldBits :
    3 < 4 ∧ (statusField .reference 0x80).getLsbD 3 = true ∧ (statusField refLow 0x08).getLsbD 3 = true := by
  decide +kernel

/-- IgnoredBytesChangeNothing: both of its cases, with ignored bits, header, row and payload that differ. -/
theorem test_witness_IgnoredBytesChangeNothing :
    (pk 0xF 0 0 0).lengthOk tiny = true ∧ (⟨0xF, 0xA, 2, [0xDE, 0xAD], [9, 9]⟩ : Packet).lengthOk tiny = true ∧
    (pk 0xF 0 0 0).status.toNat = tiny.discardValue ∧
    (pk 0 2 1 2).lengthOk tiny = true ∧ (⟨0, 0xA, 2, [0xDE, 0xAD], [1, 2]⟩ : Packet).lengthOk tiny = true := by
  decide +kernel

theorem test_witness_PseudoPacketsHaveTheirClass :
    refLow.wf ∧ refLow.discardValue ≠ 0 ∧ (List.replicate 160 9#8).length = refLow.rowBytes ∧
    (rowPacket refLow 59 (.bytes (List.replicate 160 9#8))).length = refLow.p ∧
    pktClass refLow (rowPacket refLow 59 .zero) = .last ∧ pktClass refLow (rowPacket refLow 60 (.fill 1)) = .oor ∧ pktClass refLow (rowPacket refLow 59 (.ramp 59)) = .last ∧
    pktClass refLow (rowPacket refLow 60 (.ramp 1)) = .oor ∧ pktClass refLow (rowPacket refLow 58 (.ramp 1)) = .row := by
  decide +kernel

theorem test_witness_RowsLieInsideFrameBuffer :
    Config.reference.wf ∧ 59 < Config.reference.rows ∧ 79 < Config.reference.cols ∧ 1 < 2 := by decide +kernel

/-- The four PKT completions: an operand of each class with FATAL = 0. -/
theorem test_witness_PktCompletions :
    s0.cfg.wf ∧ s0.fatal = false ∧ (Instr.pktDiscard (pk 0xF 2 1 2)).wf s0.cfg = true ∧
    (Instr.pktOor (pk 0 3 1 2)).wf s0.cfg = true ∧ (Instr.pktLast (pk 0 2 1 2)).wf s0.cfg = true ∧
    (Instr.pktRow (pk 0 0 1 2)).wf s0.cfg = true ∧ (Instr.pktRow (pk 0 1 1 2)).wf s0.cfg = true := by decide +kernel

/-- PacketCommandIsStepPkt and CompletionIsPositional: a packet of each class, at its boundary row, answers a next state. -/
theorem test_witness_CompletionIsPositional :
    s0.cfg.wf ∧ ([by6 0xF0 2 0 0, by6 0 3 0 0, by6 0 2 0 0, by6 0 1 0 0] : List (List Byte)).map
      (fun b => (decide (b.length = s0.cfg.p), runsTo (runCommand (.pkt b) s0) (port (.pkt b) s0),
        (port (.pkt b) s0).rsp.done)) =
      [(true, true, false), (true, true, false), (true, true, true), (true, true, false)] := by decide +kernel

/-- OnlyValidInRangePacketsWrite: both instructions that write do change a byte. -/
theorem test_witness_OnlyValidInRangePacketsWrite :
    s0.cfg.wf ∧ runsTo (exec (.pktRow (pk 0 0 0x01 0x02)) s0) dirty = true ∧ dirty.fbAt 1 ≠ s0.fbAt 1 ∧
    runsTo (exec (.pktLast (pk 0 2 7 8)) s0) (go (.pktLast (pk 0 2 7 8)) s0) = true ∧
    (go (.pktLast (pk 0 2 7 8)) s0).fbAt 5 ≠ s0.fbAt 5 := by decide +kernel

/-- FrameBufferNeverInfluencesPackets: a packet that writes its row, over other contents. -/
theorem test_witness_FrameBufferNeverInfluencesPackets :
    s0.cfg.wf ∧ runsTo (runCommand (.pkt (by6 0 2 7 8)) s0) (port (.pkt (by6 0 2 7 8)) s0) = true ∧
    writesRow s0.cfg 2 (by6 0 2 7 8) = true ∧ 2 < s0.cfg.rows ∧ rowBase s0.cfg 2 ≤ 5 ∧
    5 < rowBase s0.cfg 2 + s0.cfg.rowBytes ∧ (by6 0 2 7 8).length = s0.cfg.p := by decide +kernel

/-- SamePacketTwiceIsIdempotent: a packet of each Valid class, twice. -/
theorem test_witness_SamePacketTwiceIsIdempotent :
    ([.pktRow (pk 0 1 1 2), .pktLast (pk 0 2 1 2), .pktOor (pk 0 3 1 2)] : List Instr).map
      (fun i => (i.wf s0.cfg, runsTo (exec i s0) (go i s0), runsTo (exec i (go i s0)) (go i (go i s0)))) =
      [(true, true, true), (true, true, true), (true, true, true)] := by decide +kernel

theorem test_witness_DifferentRowsCommute :
    s0.cfg.wf ∧ (by6 0 0 1 2).length = s0.cfg.p ∧ (by6 0 1 3 4).length = s0.cfg.p ∧
    writesRow s0.cfg 0 (by6 0 0 1 2) = true ∧ writesRow s0.cfg 0 (by6 0 1 3 4) = false ∧
    (let x := Command.pkt (by6 0 0 1 2)
     let y := Command.pkt (by6 0 1 3 4)
     runsTo (runCommand x s0) (port x s0) && runsTo (runCommand y (port x s0)) (port y (port x s0)) &&
       runsTo (runCommand y s0) (port y s0) && runsTo (runCommand x (port y s0)) (port x (port y s0))) = true := by
  decide +kernel

/-- LastWriterWins and FrameRoundTrip: packets for rows 0, 1 and 2 presented at power-up. -/
def frameBytes (r : Nat) : List Byte := by6 0 (BitVec.ofNat 8 r) 1 2

theorem test_witness_LastWriterWins :
    (let s := withIn s0 ([frameBytes 0, frameBytes 1, frameBytes 2].map fun b => .cmd (.pkt b))
     decide s.cfg.wf && !s.fatal && s.cyc.quiet && [frameBytes 0, frameBytes 1, frameBytes 2].all (fun b => b.length == 6) &&
       s.inputs == (List.range s.cfg.rows).map (fun r => .cmd (.pkt (frameBytes r))) &&
       (List.range s.cfg.rows).all (fun r => writesRow s.cfg r (frameBytes r))) = true := by decide +kernel

/-- DiagAffectsNothing: an instruction that answers, with HAS_DIAG = true; and without it a counter index. -/
theorem test_witness_DiagAffectsNothing :
    runsTo (exec (.pktLast (pk 0 2 7 8)) s0) (go (.pktLast (pk 0 2 7 8)) s0) = true ∧ s0.cfg.hasDiag = true ∧
    State.reset.cfg.hasDiag = false ∧ (6#3 : BitVec 3) ≠ 7#3 := by decide +kernel

/-- CountersPerPacket and AllRowsMeansEveryRowWritten: every class, and commands of the other ports, answer. -/
theorem test_witness_CountersPerPacket :
    s0.cfg.hasDiag = true ∧ ([.pktDiscard (pk 0xF 2 1 2), .pktOor (pk 0 3 1 2), .pktLast (pk 0 2 1 2), .pktRow (pk 0 1 1 2),
      .flush, .rd8 0 5, .rd16 0 4, .diagrd 6#3, .fatal 3#2] : List Instr).all
      (fun i => i.wf s0.cfg && runsTo (exec i s0) (go i s0)) = true := by decide +kernel

/-- DiagInvariantsKept: the counter before its wrap, and a LAST packet that counts as incomplete. -/
theorem test_witness_DiagInvariantsKept :
    (let s := { s0 with diag := { s0.diag with frameCnt := 0xFFFFFFFE, incompleteCnt := 0xFFFFFFFE } }
     let t := go (.pktLast (pk 0 2 1 2)) s
     (decide s.cfg.wf, s.diag.rowsSeen.length, runsTo (exec (.pktLast (pk 0 2 1 2)) s) t,
       decide (s.diag.pktCnt = s.diag.discardCnt + s.diag.oorCnt + s.diag.rowWrCnt),
       decide (s.diag.frameCnt ≠ BitVec.allOnes 32), t.diag.incompleteCnt, t.diag.frameCnt)) =
      (true, 3, true, true, true, 0xFFFFFFFF, 0xFFFFFFFF) := by decide +kernel

theorem test_witness_CountersMatchHistory :
    s0.Inv ∧ s0.CountersMatch ∧
    (let s := withIn s0 [.cmd (.pkt (by6 0 2 1 2))]; s.cfg.hasDiag = true ∧ runsTo (step s) (stp s) = true) :=
  ⟨test_tiny_inv, test_s0_counters, by decide +kernel⟩

/-- AllRowsMeansEveryRowWritten: a LAST packet where the counters match HIST. -/
theorem test_witness_AllRowsMeansEveryRowWritten :
    s0.CountersMatch ∧ s0.diag.rowsSeen.length = s0.cfg.rows ∧ (Instr.pktLast (pk 0 2 1 2)).wf s0.cfg = true ∧
    runsTo (exec (.pktLast (pk 0 2 1 2)) s0) (go (.pktLast (pk 0 2 1 2)) s0) = true :=
  ⟨test_s0_counters, by decide +kernel⟩

theorem test_witness_RowsSeenPopBounds :
    s0.Inv ∧ (Instr.pktLast (pk 0 2 1 2)).wf s0.cfg = true ∧
    runsTo (exec (.pktLast (pk 0 2 1 2)) s0) (go (.pktLast (pk 0 2 1 2)) s0) = true := ⟨test_tiny_inv, by decide +kernel⟩

/-- PacketCommandIsStepPkt, CountersMatchAfterReset, ResetStateMeetsInvariant: their one premise each. -/
theorem test_witness_one_premise : dead.cfg.wf ∧ dead.cfg.hasDiag = true ∧ refLow.wf := by decide +kernel

/-- DiagrdCompletes: the eight indices, each the premise of one clause. -/
theorem test_witness_DiagrdCompletes :
    (List.range 8).map (fun k => BitVec.ofNat 3 k) = [0#3, 1#3, 2#3, 3#3, 4#3, 5#3, 6#3, 7#3] := by decide +kernel

/-- DiagPortShowsCurrentCycle: an edge with an index, FATAL and reset with STATUS on the port, a counter on the port. -/
theorem test_witness_DiagPortShowsCurrentCycle :
    (let e := { quietEdge with diag := some 3#3, finish := true }
     e.rst = false ∧ e.diag = some 3#3 ∧ runsTo (clockEdge e inFlight) (edge e inFlight) = true ∧
     (edge e inFlight).diagRdata = 1) ∧
    (let s := go (.diagrd 7#3) s0; s.diagIdx = 7#3 ∧ (1#2 : BitVec 2) ≠ 0#2 ∧ s.fatal = false) ∧
    (let s := go (.diagrd 0#3) (port (.pkt (by6 0xF0 0 0 0)) s0)
     s.diagIdx ≠ 7#3 ∧ s.cfg.hasDiag = true ∧ s.diagRdata = 1) := by decide +kernel

/-- FlushCompletes: FATAL = 0 and FATAL = 1. -/
theorem test_witness_FlushCompletes : s0.fatal = false ∧ dead.fatal = true := by decide +kernel

/-- The reads: the first and last address of each clause, for the one reader of the reference configuration. -/
theorem test_witness_ReadsComplete :
    0 < State.reset.cfg.nReaders ∧ 9599 < State.reset.cfg.fbSize ∧ State.reset.cfg.fbSize ≤ 9600 ∧
    9598 % 2 = 0 ∧ 9598 + 1 < State.reset.cfg.fbSize ∧ 9599 % 2 = 1 ∧ State.reset.cfg.fbSize ≤ 9600 + 1 := by
  decide +kernel

/-- UnpresentableInputsStopByName: each clause at its first value. -/
theorem test_witness_UnpresentableInputsStopByName :
    s0.cfg.nReaders ≤ 1 ∧ 0 < s0.cfg.nReaders ∧ 2 ^ s0.cfg.fbAddrW ≤ 8 ∧ (pk 0 2 1 2).lengthOk s0.cfg = true ∧
    s0.fatal = false ∧ (pk 0 2 1 2).cls s0.cfg ≠ .row ∧ inFlight.cfg.wf ∧
    (withIn inFlight [.cmd .flush]).inputs = .cmd .flush :: [] ∧ waitsForIdle .flush = true ∧ inFlight.cyc.quiet = false := by
  decide +kernel

/-- ReadAfterFlushIsCurrent: a FLUSH of a dirty row, and the last addresses. -/
theorem test_dirty_inv : dirty.Inv := inv_of (by decide +kernel) True.intro

theorem test_witness_ReadAfterFlushIsCurrent :
    dirty.Inv ∧ runsTo (exec .flush dirty) (go .flush dirty) = true ∧ 0 < dirty.cfg.nReaders ∧ 5 < dirty.cfg.fbSize ∧
    4 % 2 = 0 ∧ 4 + 1 < dirty.cfg.fbSize := ⟨test_dirty_inv, by decide +kernel⟩

/-- FlushOrdersReads: a FLUSH, then a packet that writes the byte again; both values are seen. -/
theorem test_witness_FlushOrdersReads :
    (let s := withIn dirty [.cmd (.pkt (by6 0 0 9 9))]
     s.Inv ∧ runsTo (exec .flush s) (go .flush s) = true ∧ runsTo (core.run 1 (go .flush s)) (stp (go .flush s)) = true ∧
     (0x01 : Byte) ∈ (stp (go .flush s)).seenAt 0 ∧ (0x09 : Byte) ∈ (stp (go .flush s)).seenAt 0) :=
  ⟨inv_of (by decide +kernel) True.intro, by decide +kernel⟩

/-- SeenGrowsOnlyByWrites: a step after which a reader may see a value it could not. -/
theorem test_witness_SeenGrowsOnlyByWrites :
    (let s := withIn s0 [.cmd (.pkt (by6 0 0 9 9))]
     s.Inv ∧ runsTo (step s) (stp s) = true ∧ (0x09 : Byte) ∈ (stp s).seenAt 0) :=
  ⟨inv_of (by decide +kernel) True.intro, by decide +kernel⟩

theorem test_witness_ReadsChangeNoState :
    ([.rd8 0 5, .rd16 0 4, .rd16 0 5, .diagrd 7#3] : List Instr).all (fun i => runsTo (exec i dead) (go i dead)) =
      true := by decide +kernel

/-- FatalCompletes, RefusalsOnlyMark: both values of each clause. -/
theorem test_witness_FatalCompletes :
    (1#2 : BitVec 2) ≠ 0#2 ∧ ¬ ({ s0 with cfg := { tiny with rows := 257 } } : State).cfg.wf ∧
    (by6 0 0 0 0 ++ [0]).length ≠ s0.cfg.p ∧
    (let s := { s0 with refused := true }; runsTo (step s) (stp s) = true ∧ s.refused = true) := by decide +kernel

/-- NothingIsAcceptedWhileFatal: a dead state, a step of it, an edge of it, a packet and a reader. -/
theorem test_witness_NothingIsAcceptedWhileFatal :
    dead.Inv ∧ dead.fatal = true ∧ (pk 0 0 1 2).lengthOk dead.cfg = true ∧ runsTo (step dead) (stp dead) = true ∧
    runsTo (clockEdge { quietEdge with flushReq := true } dead) (edge { quietEdge with flushReq := true } dead) = true ∧
    0 < dead.cfg.nReaders := ⟨test_dead_inv, by decide +kernel⟩

theorem test_witness_OnlyResetClearsFatal :
    (let s := withIn dead [.reset]; s.fatal = true ∧ runsTo (step s) (stp s) = true ∧ (stp s).fatal = false) ∧
    (let s := withIn dead [.cmd (.fatal 2#2)]; s.fatal = true ∧ runsTo (step s) (stp s) = true ∧ (stp s).cause = 1#2) := by
  decide +kernel

theorem test_witness_ResetSetsResetValues :
    (let s := withIn dead [.reset]; s.cfg.wf ∧ s.inputs = .reset :: []) := by decide +kernel

/-- ResetDuringPacketWritesPartOfRow: a packet in range, one out of range and a discard packet. -/
theorem test_witness_ResetDuringPacketWritesPartOfRow :
    s0.cfg.wf ∧ s0.fatal = false ∧ s0.cyc.quiet = true ∧ (by6 0 2 7 8).length = s0.cfg.p ∧
    classify s0.cfg (by6 0 2 7 8) = .valid 2 [7, 8] ∧ classify s0.cfg (by6 0 3 7 8) = .valid 3 [7, 8] ∧
    classify s0.cfg (by6 0xFF 2 7 8) = .discard ∧ (by6 0xFF 2 7 8).length = s0.cfg.p ∧
    (withIn s0 [.resetDuringPkt (by6 0 2 7 8) [true]]).inputs = .resetDuringPkt (by6 0 2 7 8) [true] :: [] := by
  decide +kernel

/-- PowerUpHoldsInitialContents: the last byte of FB. -/
theorem test_witness_PowerUpHoldsInitialContents : tiny.wf ∧ 5 < tiny.fbSize ∧ s0.fbAt 5 = 0x55 := by decide +kernel

/-- StepRunsDecodedInstruction: a packet at quiet ports, and a read during a packet step. -/
theorem test_witness_StepRunsDecodedInstruction :
    s0.cfg.wf ∧ (withIn s0 [.cmd (.pkt (by6 0 2 1 2))]).inputs = .cmd (.pkt (by6 0 2 1 2)) :: [] ∧
    decode s0.cfg (.pkt (by6 0 2 1 2)) = .ok (.pktLast (pk 0 2 1 2)) ∧ s0.cyc.quiet = true ∧
    inFlight.cfg.wf ∧ decode inFlight.cfg (.rd 0 5 false) = .ok (.rd8 0 5) ∧ waitsForIdle (.rd 0 5 false) = false ∧
    inFlight.cyc.quiet = false := by decide +kernel

/-- EveryStepKeepsInvariant, ConfigurationAndHistoryPersist: a step that is not idle. -/
theorem test_witness_EveryStepKeepsInvariant :
    (let s := withIn inFlight [.clk { quietEdge with finish := true }]
     s.Inv ∧ runsTo (step s) (stp s) = true ∧ (stp s).rsp.wrote = true) := ⟨inv_of (by decide +kernel) ⟨by decide +kernel, by decide +kernel⟩, by decide +kernel⟩

theorem test_witness_IdleChangesNothing : dirty.cfg.wf ∧ dirty.inputs = [] := by decide +kernel

/-- HostAwaitingRows: a LAST packet, another packet, and a transport error. -/
theorem test_witness_HostAwaitingRows :
    s0.cfg.wf ∧ s0.cyc.quiet = true ∧ s0.host = .awaitingRows ∧ s0.fatal = false ∧
    (by6 0 2 0 0).length = s0.cfg.p ∧ (withIn s0 [.host (.bytes (by6 0 2 0 0))]).inputs = .host (.bytes (by6 0 2 0 0)) :: [] ∧
    (stp (withIn s0 [.host (.bytes (by6 0 2 0 0))])).host = .frameComplete ∧
    (stp (withIn s0 [.host (.bytes (by6 0 1 0 0))])).host = .awaitingRows ∧
    (stp (withIn s0 [.host .error])).host = .aborted ∧ (stp (withIn s0 [.host .error])).cause = 1#2 := by decide +kernel

/-- HostFlushesThenAwaits: a state in FRAME_COMPLETE and one in ABORTED, each reached. -/
theorem test_witness_HostFlushesThenAwaits :
    (let s := withIn (stp (withIn s0 [.host (.bytes (by6 0 2 0 0))])) [.host .error]
     s.cfg.wf ∧ s.cyc.quiet = true ∧ s.inputs = .host .error :: [] ∧ s.host = .frameComplete ∧ s.fatal = false) ∧
    (let s := withIn (stp (withIn s0 [.host .error])) [.host .error]
     s.cfg.wf ∧ s.cyc.quiet = true ∧ s.inputs = .host .error :: [] ∧ s.host = .aborted) := by decide +kernel

/-- HostSetupFailureIsFatal: before the setup is over, with a move and a second failure after it; when it is over; and
for each kind of input that ends the setup, a step. -/
theorem test_witness_HostSetupFailureIsFatal :
    (let s := withIn s0 [.hostSetup .sink, .host .error]
     s.cfg.wf ∧ s.inputs = .hostSetup .sink :: [.host .error] ∧ s.hostUp = false ∧ s.cyc.quiet = true ∧
     s.fatal = false ∧ (stp s).cause = 3#2) ∧
    (let s := withIn { s0 with hostUp := true } [.hostSetup .bus]
     s.cfg.wf ∧ s.inputs = .hostSetup .bus :: [] ∧ s.hostUp = true) ∧
    ([.cmd (.pkt (by6 0 0 0 0)), .resetDuringPkt (by6 0 0 0 0) [], .host .error, .hostSetup .bus,
      .together ⟨true, none, some [], false⟩, .clk { quietEdge with pkt := some [] }] : List Input).all
      (fun i => runsTo (step (withIn s0 [i])) (stp (withIn s0 [i])) && (stp (withIn s0 [i])).hostUp) = true := by
  decide +kernel

/-- CoincidingEventsHavePriority: each of its clauses, with everything below it presented too. -/
theorem test_witness_CoincidingEventsHavePriority :
    s0.cfg.wf ∧
    (stp (withIn s0 [.together ⟨true, some 1#2, some [0], true⟩])).inputs = [.reset] ∧
    (stp (withIn s0 [.together ⟨false, some 1#2, some [0], true⟩])).inputs = [.cmd (.fatal 1#2)] ∧
    (stp (withIn s0 [.together ⟨false, none, some [0], true⟩])).inputs = [.cmd (.pkt [0]), .cmd .flush] ∧
    (stp (withIn s0 [.together ⟨false, none, some [0], false⟩])).inputs = [.cmd (.pkt [0])] ∧
    (stp (withIn s0 [.together ⟨false, none, none, true⟩])).inputs = [.cmd .flush] ∧
    (stp (withIn s0 [.together ⟨false, none, none, false⟩, .pause])).inputs = [.pause] := by decide +kernel

/-- EdgeAcceptsByPriority: an edge that accepts a packet, one that begins a FLUSH, one that takes a strobe. -/
theorem test_witness_EdgeAcceptsByPriority :
    s0.cyc.phase = .idle ∧ runsTo (clockEdge { quietEdge with pkt := some (by6 0 1 0x0A 0x0B) } s0) inFlight = true ∧
    inFlight.cyc.phase = .packet (by6 0 1 0x0A 0x0B) ∧
    (edge { quietEdge with flushReq := true } s0).cyc.phase = .flush ∧
    (edge { quietEdge with flushReq := true, fatalReq := some 1#2 } s0).cyc.phase = .idle ∧ quietEdge.rst = false := by
  decide +kernel

/-- FatalStrobeIsHeld: a strobe in a packet step, and one with no step in progress; held strobes, of which the first
with a cause of 1 to 3 gives CAUSE. -/
theorem test_witness_FatalStrobeIsHeld :
    (let e := { quietEdge with fatalReq := some 1#2 }
     e.rst = false ∧ inFlight.cyc.phase ≠ .idle ∧ runsTo (clockEdge e inFlight) (edge e inFlight) = true ∧
     s0.cyc.phase = .idle ∧ runsTo (clockEdge e s0) (edge e s0) = true ∧
     (let s := { s0 with cyc := { s0.cyc with fatalPend := [0#2, 2#2] } }
      s.cyc.phase = .idle ∧ s.fatal = false ∧ runsTo (clockEdge e s) (edge e s) = true ∧
      (edge e s).cause = 2#2 ∧ (edge e s).hist = [.fatal 2#2, .fatal 1#2])) := by decide +kernel

/-- ResetEdgeIgnoresAllElse: no packet in progress; one in progress for the last row; one out of range; a discard. -/
theorem test_witness_ResetEdgeIgnoresAllElse :
    (let e := { quietEdge with rst := true, finish := true, flushReq := true, mask := [false, true] }
     let acc := fun b => withIn (edge { quietEdge with pkt := some b } s0) [.clk e]
     let s := acc (by6 0 2 7 8)
     s.cfg.wf ∧ e.rst = true ∧ s.inputs = .clk e :: [] ∧ s.cyc.phase = .packet (by6 0 2 7 8) ∧
     (by6 0 2 7 8).length = s.cfg.p ∧ classify s.cfg (by6 0 2 7 8) = .valid 2 [7, 8] ∧ 2 < s.cfg.rows ∧
     (stp s).fbAt 5 = 0x08 ∧ (stp s).fbAt 4 = 0x55 ∧
     (acc (by6 0 3 7 8)).cyc.phase = .packet (by6 0 3 7 8) ∧ classify s.cfg (by6 0 3 7 8) = .valid 3 [7, 8] ∧
     (acc (by6 0xFF 0 7 8)).cyc.phase = .packet (by6 0xFF 0 7 8) ∧ classify s.cfg (by6 0xFF 0 7 8) = .discard ∧
     (withIn s0 [.clk e]).inputs = .clk e :: [] ∧ s0.cyc.phase = .idle) := by decide +kernel

/-- ClockEdgesRefinePacketStep: an edge that writes half the row and takes a strobe, then the finishing edge. -/
theorem test_witness_ClockEdgesRefinePacketStep :
    inFlight.Inv ∧
    (let es := [{ quietEdge with mask := [true], fatalReq := some 1#2 }]
     let e := { quietEdge with finish := true }
     let t := nextOr (runEdges (es ++ [e]) inFlight) inFlight
     inFlight.cyc.phase = .packet (by6 0 1 0x0A 0x0B) ∧ (es.all fun x => !x.rst && !x.finish) = true ∧ e.rst = false ∧
     e.finish = true ∧ runsTo (runEdges (es ++ [e]) inFlight) t = true ∧
     runsTo (runCommand (.pkt (by6 0 1 0x0A 0x0B)) inFlight) (port (.pkt (by6 0 1 0x0A 0x0B)) inFlight) = true) :=
  ⟨test_inFlight_inv, by decide +kernel⟩

/-- ClockEdgesRefinePacketStep: a FLUSH of a dirty row in progress, an unfinished edge of it, then the finishing one; and
a FLUSH that was requested with a packet. -/
def flushing : State := edge { quietEdge with flushReq := true } dirty

theorem test_flushing_inv : flushing.Inv := inv_of (by decide +kernel) (by decide +kernel : flushing.fatal = false)

theorem test_witness_ClockEdgesRefineFlush :
    flushing.Inv ∧
    (let x := { quietEdge with fatalReq := some 1#2 }
     let e := { quietEdge with finish := true }
     let t := nextOr (runEdges ([x] ++ [e]) flushing) flushing
     flushing.cyc.phase = .flush ∧ x.rst = false ∧ x.finish = false ∧ runsTo (clockEdge x flushing) (edge x flushing) = true ∧
     e.rst = false ∧ e.finish = true ∧ runsTo (runEdges ([x] ++ [e]) flushing) t = true ∧
     runsTo (runCommand .flush flushing) (port .flush flushing) = true ∧
     flushing.seenAt 0 = [0x01, 0x55] ∧ t.seenAt 0 = [0x01] ∧ t.cyc.flushAck = true ∧ t.fatal = false ∧
     edgeA.cyc.flushPend = true ∧ edgeB.cyc.fatalPend = []) := ⟨test_flushing_inv, by decide +kernel⟩

/-- UnfinishedEdgeWritesOnlyNewBytes, the reader ports: a pending RD8 and RD16 served, one not served, a new request. -/
def asked : State :=
  edge { quietEdge with pkt := some (by6 0 1 0x0A 0x0B), rd := [⟨0, 2, true⟩, ⟨1, 6, false⟩] }
    (State.powerUp { tiny with nReaders := 3 })

theorem test_asked_inv : asked.Inv := inv_of (by decide +kernel) ⟨by decide +kernel, by decide +kernel⟩

theorem test_witness_reader_ports :
    asked.Inv ∧
    (let e := { quietEdge with serve := [1], rd := [⟨2, 0, false⟩] }
     let t := edge e asked
     e.rst = false ∧ asked.cyc.rdPend = [⟨0, 2, true⟩, ⟨1, 6, false⟩] ∧ 0 ∉ e.serve ∧ 1 ∈ e.serve ∧
     (asked.cyc.rdPend.find? fun p => p.agent == 1) = some ⟨1, 6, false⟩ ∧ runsTo (clockEdge e asked) t = true ∧
     t.cyc.rdAck = [1] ∧ t.cyc.rdPend = [⟨0, 2, true⟩, ⟨2, 0, false⟩] ∧ t.rdOut = [⟨false, 0⟩, ⟨true, 0⟩, ⟨false, 0⟩]) ∧
    (let e := { quietEdge with serve := [0] }
     runsTo (clockEdge e asked) (edge e asked) = true ∧ (edge e asked).rdOut[0]? = some ⟨false, 0x5555⟩ ∧
     (edge e asked).hist = [.read 0 2 0x55, .read 0 3 0x55]) := ⟨test_asked_inv, by decide +kernel⟩

theorem test_witness_UnfinishedEdgeWritesOnlyNewBytes :
    inFlight.Inv ∧
    (let e := { quietEdge with mask := [false, true] }
     inFlight.cyc.phase = .packet (by6 0 1 0x0A 0x0B) ∧ e.rst = false ∧ e.finish = false ∧
     runsTo (clockEdge e inFlight) (edge e inFlight) = true ∧ (edge e inFlight).fbAt 3 ≠ inFlight.fbAt 3 ∧
     inFlight.cfg.wf ∧ (by6 0 1 0x0A 0x0B).length = inFlight.cfg.p ∧
     classify inFlight.cfg (by6 0 1 0x0A 0x0B) = .valid 1 [0x0A, 0x0B] ∧ 1 < inFlight.cfg.rows ∧
     1 < inFlight.cfg.rowBytes ∧ e.mask.getD 1 false = true) :=
  ⟨test_inFlight_inv, by decide +kernel⟩

end Sys2Proof.Tests
end

section
/-! PROOFS. R39: DIAG affects nothing else. Two runs of one instruction, from states that differ in HAS_DIAG and DIAG only,
agree outside DIAG: shown once for each operand form, then for each instruction. -/

namespace Sys2Proof.Machine

/-- The same state with HAS_DIAG and DIAG at other values (R39). -/
def State.withDiag (h : Bool) (d : Diag) (s : State) : State :=
  { s with cfg := { s.cfg with hasDiag := h }, diag := d }

/-- What DIAG must not affect (R39): FB, SEEN, FATAL, CAUSE and the response fields other than `all_rows`. -/
structure AgreeOffDiag (t' t : State) : Prop where
  fb : t'.fb = t.fb
  stale : t'.stale = t.stale
  fatal : t'.fatal = t.fatal
  cause : t'.cause = t.cause
  kind : t'.rsp.kind = t.rsp.kind
  row : t'.rsp.row = t.rsp.row
  wrote : t'.rsp.wrote = t.rsp.wrote
  done : t'.rsp.done = t.rsp.done

section WithDiag

variable {h : Bool} {d : Diag} {s t : State}

namespace State

@[simp] theorem withDiag_fb : (s.withDiag h d).fb = s.fb := rfl
@[simp] theorem withDiag_stale : (s.withDiag h d).stale = s.stale := rfl
@[simp] theorem withDiag_fatal : (s.withDiag h d).fatal = s.fatal := rfl
@[simp] theorem withDiag_cause : (s.withDiag h d).cause = s.cause := rfl
@[simp] theorem withDiag_rsp : (s.withDiag h d).rsp = s.rsp := rfl
@[simp] theorem rowBase_withDiag (r : Nat) : rowBase (s.withDiag h d).cfg r = rowBase s.cfg r := rfl

end State

/-- A read changes nothing of what R39 speaks of (R224), so after it two states that differ in DIAG only still agree. -/
theorem SameButReads.agreeOffDiag {t' : State} (hs : SameButReads s t) (hs' : SameButReads (s.withDiag h d) t') :
    AgreeOffDiag t' t := by
  constructor <;> simp [hs.fb, hs.stale, hs.fatal, hs.cause, hs.rsp, hs'.fb, hs'.stale, hs'.fatal, hs'.cause, hs'.rsp]

theorem AgreeOffDiag.refuse : AgreeOffDiag (s.withDiag h d).refuse s.refuse := by
  constructor <;> simp

/-- Both keep the first cause, or both take the new one (R245). -/
theorem AgreeOffDiag.raiseFatal (c : BitVec 2) : AgreeOffDiag ((s.withDiag h d).raiseFatal c) (s.raiseFatal c) := by
  cases hf : s.fatal <;> constructor <;> simp [hf]

/-- A packet has the same length check, class and FATAL test whatever DIAG is, so only its effect is left to compare. -/
theorem onPacket_withDiag {cls : PktClass} {p : Packet} {k : State → State}
    (hk : AgreeOffDiag (k (s.withDiag h d)) (k s)) (ht : onPacket cls p s k = .next t) :
    ∃ t', onPacket cls p (s.withDiag h d) k = .next t' ∧ AgreeOffDiag t' t := by
  rcases onPacket_eq_next.mp ht with ⟨hl, rfl⟩ | ⟨hl, hf, hc, rfl⟩
  · exact ⟨_, onPacket_eq_next.mpr (.inl ⟨hl, rfl⟩), .refuse⟩
  · exact ⟨_, onPacket_eq_next.mpr (.inr ⟨hl, hf, hc, rfl⟩), hk⟩

/-- A reader exists or not whatever DIAG is, and a read leaves alone what R39 speaks of. -/
theorem onReader_withDiag {agent : Nat} {k : State → State}
    (hk : ∀ {u v : State}, onReader agent u k = .next v → SameButReads u v) (ht : onReader agent s k = .next t) :
    ∃ t', onReader agent (s.withDiag h d) k = .next t' ∧ AgreeOffDiag t' t := by
  have ht' : onReader agent (s.withDiag h d) k = .next (k (s.withDiag h d)) :=
    onReader_eq_next.mpr ⟨(onReader_eq_next.mp ht).1, rfl⟩
  exact ⟨_, ht', (hk ht).agreeOffDiag (hk ht')⟩

/-- Noninterference of DIAG (R39), instruction by instruction. -/
theorem exec_withDiag {i : Instr} (ht : exec i s = .next t) :
    ∃ t', exec i (s.withDiag h d) = .next t' ∧ AgreeOffDiag t' t := by
  cases i with
  | pktDiscard p =>
    refine onPacket_withDiag ?_ (show execPktDiscard p s = .next t from ht)
    constructor <;> simp
  | pktOor p =>
    refine onPacket_withDiag ?_ (show execPktOor p s = .next t from ht)
    constructor <;> simp
  | pktLast p =>
    refine onPacket_withDiag ?_ (show execPktLast p s = .next t from ht)
    constructor <;> simp [Resp.ofLast]
  | pktRow p =>
    refine onPacket_withDiag ?_ (show execPktRow p s = .next t from ht)
    constructor <;> simp
  | flush =>
    obtain ⟨hf, rfl⟩ := execFlush_eq_next.mp ht
    exact ⟨_, execFlush_eq_next.mpr ⟨hf, rfl⟩, by constructor <;> simp⟩
  | rd8 j a => exact onReader_withDiag execRd8_reads ht
  | rd16 j a => exact onReader_withDiag execRd16_reads ht
  | diagrd k => exact ⟨_, rfl, (execDiagrd_reads ht).agreeOffDiag (execDiagrd_reads rfl)⟩
  | fatal c =>
    rcases execFatal_eq_next.mp ht with ⟨hc, rfl⟩ | ⟨hc, rfl⟩
    · exact ⟨_, execFatal_eq_next.mpr (.inl ⟨hc, rfl⟩), .refuse⟩
    · exact ⟨_, execFatal_eq_next.mpr (.inr ⟨hc, rfl⟩), .raiseFatal c⟩

end WithDiag

/-- R39: without HAS_DIAG every index but STATUS reads 0. -/
theorem State.diagReg_eq_zero_of_noDiag {s : State} {k : BitVec 3} (hd : s.cfg.hasDiag = false) (hk : k ≠ 7#3) :
    s.diagReg k = 0 := by
  simp [State.diagReg, hd, hk]

/-- Settles O23: `exec_withDiag` compares the two runs; the other two clauses are the register space and the reference
values. -/
theorem diagAffectsNothing : Obligations.DiagAffectsNothing := by
  refine ⟨fun i s t h d ht => ?_, fun s k => State.diagReg_eq_zero_of_noDiag, rfl⟩
  obtain ⟨t', ht', ha⟩ := exec_withDiag (h := h) (d := d) ht
  exact ⟨t', ht', ha.fb, ha.stale, ha.fatal, ha.cause, ha.kind, ha.row, ha.wrote, ha.done⟩

end Sys2Proof.Machine
end

section
/-! PROOFS. R45: ROWS_SEEN_POP. Under the invariant ROWS_SEEN has at most 256 bits, so the count does not wrap in 32 bits. -/

namespace Sys2Proof.Machine

/-- The register is the count itself: a list of at most 256 bits has no more than 256 of them set. -/
theorem Diag.rowsSeenPop_toNat {d : Diag} (h : d.rowsSeen.length ≤ 256) :
    d.rowsSeenPop.toNat = d.rowsSeen.count true := by
  have hc : d.rowsSeen.count true ≤ d.rowsSeen.length := List.count_le_length
  simp only [Diag.rowsSeenPop, BitVec.toNat_ofNat]
  omega

theorem Diag.rowsSeenPop_toNat_le {d : Diag} (h : d.rowsSeen.length ≤ 256) :
    d.rowsSeenPop.toNat ≤ d.rowsSeen.length :=
  (Diag.rowsSeenPop_toNat h).trans_le List.count_le_length

theorem Diag.rowsSeenPop_getLsbD {d : Diag} (h : d.rowsSeen.length ≤ 256) {i : Nat} (hi : 9 ≤ i) :
    d.rowsSeenPop.getLsbD i = false := by
  have hlt : d.rowsSeenPop.toNat < 2 ^ i :=
    calc d.rowsSeenPop.toNat ≤ 256 := (Diag.rowsSeenPop_toNat_le h).trans h
      _ < 2 ^ 9 := by decide
      _ ≤ 2 ^ i := Nat.pow_le_pow_right (by decide) hi
  rw [← BitVec.testBit_toNat]
  exact Nat.testBit_lt_two_pow hlt

theorem Diag.rowsSeenPop_of_clear {d : Diag} {n : Nat} (h : d.rowsSeen = List.replicate n false) :
    d.rowsSeenPop = 0 := by
  simp [Diag.rowsSeenPop, h, List.count_replicate]

namespace State.Inv

variable {s : State} (hs : s.Inv)
include hs

theorem rowsSeen_length_le : s.diag.rowsSeen.length ≤ 256 := by
  obtain ⟨-, -, -, ⟨-, hrows⟩, -, -⟩ := hs.config
  exact hs.rowsSeen.trans_le hrows

/-- Without HAS_DIAG nothing is counted, and ROWS_SEEN stays clear. -/
theorem rowsSeen_of_noDiag (hd : s.cfg.hasDiag = false) : s.diag.rowsSeen = List.replicate s.cfg.rows false := by
  rw [hs.noDiag hd, Diag.zero]

/-- R50: reset clears ROWS_SEEN, and without HAS_DIAG it was clear. -/
theorem stepReset_rowsSeen : s.stepReset.diag.rowsSeen = List.replicate s.cfg.rows false := by
  cases hd : s.cfg.hasDiag with
  | true => simp [hd, Diag.zero]
  | false => simp [hd, hs.rowsSeen_of_noDiag hd]

/-- R172: a LAST packet clears ROWS_SEEN, and without HAS_DIAG it was clear. -/
theorem pktLast_rowsSeen {p : Packet} {t : State} (hw : (Instr.pktLast p).wf s.cfg = true)
    (ht : exec (.pktLast p) s = .next t) : t.diag.rowsSeen = List.replicate s.cfg.rows false := by
  have hl : p.lengthOk s.cfg = true := (Instr.wf_pktLast.mp hw).1
  rcases execPktLast_eq_next.mp ht with ⟨hl', -⟩ | ⟨-, -, -, rfl⟩
  · rw [hl] at hl'
    contradiction
  · cases hd : s.cfg.hasDiag with
    | true => simp [hd, Diag.countLast]
    | false => simp [hd, hs.rowsSeen_of_noDiag hd]

end State.Inv

/-- Settles O29: the count does not wrap for at most 256 rows, and reset and a LAST packet leave ROWS_SEEN clear. -/
theorem rowsSeenPopBounds : Obligations.RowsSeenPopBounds := by
  intro s hs
  have hle := hs.rowsSeen_length_le
  exact ⟨Diag.rowsSeenPop_toNat hle, (Diag.rowsSeenPop_toNat_le hle).trans_eq hs.rowsSeen,
    fun _ hi => Diag.rowsSeenPop_getLsbD hle hi, Diag.rowsSeenPop_of_clear hs.stepReset_rowsSeen,
    fun _ _ ht hw => Diag.rowsSeenPop_of_clear (hs.pktLast_rowsSeen hw ht)⟩

end Sys2Proof.Machine
end

section
/-! PROOFS. R71 and R163: where sample bytes and rows lie in FB. A sample is two bytes (R10), so a row's base and its
samples' addresses are counted in the same bytes; `Config.row_inside` keeps an in-range row inside FB. -/

namespace Sys2Proof.Machine

section Addresses

variable {c : Config} (hc : c.wf)
include hc

theorem rowBase_eq_of_wf (r : Nat) : rowBase c r = r * c.cols * 2 := by
  rw [rowBase, hc.rowBytes_eq, Nat.mul_comm 2, Nat.mul_assoc]

/-- A row's bytes are its samples' in order: byte `b` of sample `k` has offset `2k + b` in its row. -/
theorem fbAddr_eq_rowBase_add (r k b : Nat) : fbAddr c r k b = rowBase c r + (2 * k + b) := by
  rw [fbAddr, rowBase_eq_of_wf hc]
  ring

/-- The offset of a sample's byte is below ROW_BYTES. -/
theorem sampleOffset_lt_rowBytes {k b : Nat} (hk : k < c.cols) (hb : b < 2) : 2 * k + b < c.rowBytes := by
  rw [hc.rowBytes_eq]
  omega

end Addresses

/-- R163 with ROW_BYTES = 160: the base of a row at the reference values. -/
theorem rowBase_reference (r : Nat) : rowBase .reference r = 160 * r :=
  Nat.mul_comm r 160

/-- Settles O10: a sample's byte is its row's base plus an offset below ROW_BYTES, and the row ends inside FB. -/
theorem rowsLieInsideFrameBuffer : Obligations.RowsLieInsideFrameBuffer := by
  refine ⟨fun c r k b hc hr hk hb => ?_, rowBase_reference⟩
  have haddr := fbAddr_eq_rowBase_add hc r k
  have hoff := sampleOffset_lt_rowBytes hc hk hb
  refine ⟨rfl, rowBase_eq_of_wf hc r, haddr 0, ?_, ?_, Config.row_inside hr rfl⟩
  · rw [haddr]
    exact Nat.le_add_right ..
  · rw [haddr]
    exact Nat.add_lt_add_left hoff _

end Sys2Proof.Machine
end

section
/-! PROOFS. R102 to R108 and R135: the fields of a packet are read off its bytes, the class follows from the status field
and the row index, and the ignored bits and bytes have no effect. -/

namespace Sys2Proof

/-- Settles O7: under either nibble position the status field is the four bits of byte 0 from the field's offset on. -/
theorem statusFieldBits : Obligations.StatusFieldBits := by
  intro c b i hi
  cases hpos : c.nibblePos with
  | high => simp [statusField, hpos, hi, Nat.add_comm]
  | low => simp [statusField, hpos, hi]

/-! ### The fields of a packet, from its bytes -/

/-- R102: wherever byte 0 holds the status field, it is read from there. -/
theorem statusField_bytes (c : Config) (p : Packet) : statusField c (pktByte (p.bytes c) 0) = p.status :=
  statusField_byteZero c p.status p.spare

/-- R104: byte 1 is the row index. -/
theorem pktByte_one_bytes (c : Config) (p : Packet) : pktByte (p.bytes c) 1 = p.row := rfl

/-- R105: the payload is what follows the header. -/
theorem drop_hdrLen_bytes {c : Config} {p : Packet} (h : p.lengthOk c = true) : (p.bytes c).drop c.hdrLen = p.payload :=
  (Laws.EncodeForm.packet_form h).2.2

/-- Settles O4: P bytes are the bytes of a packet, which the decoder gives back in the packet's class. -/
theorem packetDecodingIsTotal : Obligations.PacketDecodingIsTotal := by
  intro c bytes hc hlen
  obtain ⟨p, rfl, hp, hdec⟩ := decodePacket_of_length hc hlen
  refine ⟨p, ?_, (statusField_bytes c p).symm, (pktByte_one_bytes c p).symm, (drop_hdrLen_bytes hp).symm,
    Packet.payload_length hc hp⟩
  rw [pktClass_bytes hc hp]
  exact hdec

/-- Settles O5: P bytes are the bytes of a packet, whose class has these conditions on its status field and row index. -/
theorem packetClassesByCondition : Obligations.PacketClassesByCondition := by
  intro c bytes hc hlen
  obtain ⟨p, -, rfl, hp⟩ := parsePacket_of_length hc hlen
  rw [pktClass_bytes hc hp, statusField_bytes, pktByte_one_bytes]
  exact ⟨Packet.cls_discard_iff, Packet.cls_oor_iff, Packet.cls_last_iff, Packet.cls_row_iff⟩

/-- R107: the class is decided by the status field, and by the row index unless the status field is the discard value. -/
theorem Packet.cls_congr {c : Config} {p q : Packet} (hs : p.status = q.status)
    (h : p.status.toNat = c.discardValue ∨ p.row = q.row) : p.cls c = q.cls c := by
  rcases h with hd | hr
  · rw [Packet.cls_discard_iff.mpr hd, Packet.cls_discard_iff.mpr (hs ▸ hd)]
  · simp only [Packet.cls, hs, hr]

namespace Machine

/-- A PKT operand is checked by its lengths and its class alone. -/
theorem onPacket_congr {cls : PktClass} {p q : Packet} {s : State} {k : State → State}
    (hp : p.lengthOk s.cfg = true) (hq : q.lengthOk s.cfg = true) (hcls : p.cls s.cfg = q.cls s.cfg) :
    onPacket cls p s k = onPacket cls q s k := by
  simp only [onPacket, hp, hq, hcls]

/-- The effect of PKT.DISCARD does not read the packet; the other three read its row index and payload. -/
theorem exec_ofClass_congr {cls : PktClass} {p q : Packet} {s : State} (hp : p.lengthOk s.cfg = true)
    (hq : q.lengthOk s.cfg = true) (hcls : p.cls s.cfg = q.cls s.cfg)
    (h : cls = .discard ∨ p.row = q.row ∧ p.payload = q.payload) :
    exec (Instr.ofClass p cls) s = exec (Instr.ofClass q cls) s := by
  cases cls with
  | discard =>
    simp only [Instr.ofClass, exec, execPktDiscard]
    exact onPacket_congr hp hq hcls
  | oor =>
    obtain ⟨hr, -⟩ := h.resolve_left (by decide)
    simp only [Instr.ofClass, exec, execPktOor, hr]
    exact onPacket_congr hp hq hcls
  | last =>
    obtain ⟨hr, hd⟩ := h.resolve_left (by decide)
    simp only [Instr.ofClass, exec, execPktLast, hr, hd]
    exact onPacket_congr hp hq hcls
  | row =>
    obtain ⟨hr, hd⟩ := h.resolve_left (by decide)
    simp only [Instr.ofClass, exec, execPktRow, hr, hd]
    exact onPacket_congr hp hq hcls

/-- Settles O8: the two packets have one class, whose effect reads no more than the row index and payload they share. -/
theorem ignoredBytesChangeNothing : Obligations.IgnoredBytesChangeNothing := by
  intro s p q hp hq hs h
  have hcls : p.cls s.cfg = q.cls s.cfg := Packet.cls_congr hs (h.imp_right And.left)
  rw [← hcls]
  exact exec_ofClass_congr hp hq hcls (h.imp_left Packet.cls_discard_iff.mpr)

end Machine
end Sys2Proof
end

section
/-! PROOFS. R164 to R173 and R78: what a packet step does, said once for each class (`State.afterPacket`), and what the
write of a row does to FB and SEEN (`RowReplaced`). The PKT instructions complete in the states the rules give. -/

namespace Sys2Proof

theorem Config.wf.rows_bounds {c : Config} (h : c.wf) : 1 ≤ c.rows ∧ c.rows ≤ 256 := by
  obtain ⟨-, -, -, hrows, -⟩ := h
  exact hrows

/-- A PKT instruction is well-formed when its packet has the right lengths and is of its class (R107). -/
theorem Instr.wf_ofClass_iff {c : Config} {p : Packet} {cls : PktClass} :
    (Instr.ofClass p cls).wf c = true ↔ p.lengthOk c = true ∧ p.cls c = cls := by
  cases cls with
  | discard => exact Instr.wf_pktDiscard
  | oor => exact Instr.wf_pktOor
  | last => exact Instr.wf_pktLast
  | row => exact Instr.wf_pktRow

/-- The two classes that write are those of a Valid packet whose row is in range (R162). -/
theorem Packet.cls_writes_iff {c : Config} {p : Packet} :
    p.cls c = .row ∨ p.cls c = .last ↔ p.status.toNat ≠ c.discardValue ∧ p.row.toNat < c.rows := by
  rw [Packet.cls_row_iff, Packet.cls_last_iff]
  omega

namespace Machine

/-! ### The effect of a packet, by class -/

theorem State.count_eq (f : Diag → Diag) (s : State) :
    s.count f = { s with diag := if s.cfg.hasDiag then f s.diag else s.diag } := by
  unfold State.count
  split <;> rfl

/-- What a packet of class `cls` counts (R174, R175). -/
def Diag.countPacket (r rows : Nat) : PktClass → Diag → Diag
  | .discard => Diag.countDiscard
  | .oor => Diag.countOor
  | .last => Diag.countLast r rows
  | .row => Diag.countRow r

/-- The state after a packet step with FATAL = 0 (R170 to R173). -/
def State.afterPacket (p : Packet) (cls : PktClass) (s : State) : State :=
  match cls with
  | .discard => (s.count Diag.countDiscard).respond .ofDiscard
  | .oor => (s.count Diag.countOor).respond (.ofOor p.row)
  | .last =>
    ((s.memWrite (rowBase s.cfg p.row.toNat) p.payload).count (Diag.countLast p.row.toNat s.cfg.rows)).respond
      (.ofLast p.row (s.allRows p.row.toNat))
  | .row =>
    ((s.count (Diag.countRow p.row.toNat)).memWrite (rowBase s.cfg p.row.toNat) p.payload).respond (.ofRow p.row)

/-- A packet of the right lengths has this one next state, and has it exactly when FATAL = 0 and the class is its own. -/
theorem exec_ofClass_eq_next {p : Packet} {cls : PktClass} {s t : State} (hl : p.lengthOk s.cfg = true) :
    exec (Instr.ofClass p cls) s = .next t ↔ s.fatal = false ∧ p.cls s.cfg = cls ∧ t = s.afterPacket p cls := by
  cases cls with
  | discard => exact execPktDiscard_eq_next.trans (by simp [hl, State.afterPacket])
  | oor => exact execPktOor_eq_next.trans (by simp [hl, State.afterPacket])
  | last => exact execPktLast_eq_next.trans (by simp [hl, State.afterPacket])
  | row => exact execPktRow_eq_next.trans (by simp [hl, State.afterPacket])

theorem exec_ofClass_of_wf {p : Packet} {cls : PktClass} {s : State} (hw : (Instr.ofClass p cls).wf s.cfg = true)
    (hf : s.fatal = false) : exec (Instr.ofClass p cls) s = .next (s.afterPacket p cls) := by
  obtain ⟨hl, hcls⟩ := Instr.wf_ofClass_iff.mp hw
  exact (exec_ofClass_eq_next hl).mpr ⟨hf, hcls, rfl⟩

/-- The packet port runs the packet's instruction (R108). -/
theorem runCommand_bytes {p : Packet} {s : State} (hl : p.lengthOk s.cfg = true) :
    runCommand (.pkt (p.bytes s.cfg)) s = exec (Instr.ofClass p (p.cls s.cfg)) s := by
  simp [runCommand, decode, decodePacket_bytes hl]

section AfterPacket

variable (p : Packet) (cls : PktClass) (s : State)

@[simp] theorem State.afterPacket_cfg : (s.afterPacket p cls).cfg = s.cfg := by
  cases cls <;> simp [State.afterPacket]

@[simp] theorem State.afterPacket_fatal : (s.afterPacket p cls).fatal = s.fatal := by
  cases cls <;> simp [State.afterPacket]

@[simp] theorem State.afterPacket_cyc : (s.afterPacket p cls).cyc = s.cyc := by
  cases cls <;> simp [State.afterPacket]

@[simp] theorem State.afterPacket_inputs : (s.afterPacket p cls).inputs = s.inputs := by
  cases cls <;> simp [State.afterPacket]

@[simp] theorem State.afterPacket_diag :
    (s.afterPacket p cls).diag =
      if s.cfg.hasDiag then Diag.countPacket p.row.toNat s.cfg.rows cls s.diag else s.diag := by
  cases cls <;> (simp only [State.afterPacket, State.count_eq]; rfl)

end AfterPacket

/-! ### The write of a row -/

/-- R164, R165, R78: row `r` holds the payload, every other byte is as before, and SEEN gains exactly the values
written. -/
structure RowReplaced (s t : State) (r : Nat) (payload : List Byte) : Prop where
  inside : ∀ i, i < s.cfg.rowBytes → t.fbAt (rowBase s.cfg r + i) = payload.getD i 0
  outside : ∀ a, a < rowBase s.cfg r ∨ rowBase s.cfg r + s.cfg.rowBytes ≤ a → t.fbAt a = s.fbAt a
  seen : ∀ a v, v ∈ t.seenAt a ↔
    v ∈ s.seenAt a ∨ rowBase s.cfg r ≤ a ∧ a < rowBase s.cfg r + s.cfg.rowBytes ∧ v = t.fbAt a

theorem rowReplaced_memWrite {s : State} {r : Nat} {payload : List Byte} (hl : payload.length = s.cfg.rowBytes) :
    RowReplaced s (s.memWrite (rowBase s.cfg r) payload) r payload where
  inside i hi := Mem.read_write_inside (hl ▸ hi)
  outside a ha := Mem.read_write_outside (hl ▸ ha)
  seen a v := by
    rw [State.mem_memWrite_seenAt, State.memWrite_fbAt, hl]
    by_cases ha : rowBase s.cfg r ≤ a ∧ a < rowBase s.cfg r + s.cfg.rowBytes
    · simp [ha]
    · simp [ha, ← and_assoc]

/-- What `RowReplaced` says is about FB and SEEN alone. -/
theorem RowReplaced.of_eq {s t u : State} {r : Nat} {payload : List Byte} (h : RowReplaced s t r payload)
    (hf : u.fb = t.fb) (hs : u.stale = t.stale) : RowReplaced s u r payload where
  inside i hi := (State.fbAt_of_fb hf _).trans (h.inside i hi)
  outside a ha := (State.fbAt_of_fb hf _).trans (h.outside a ha)
  seen a v := by rw [State.seenAt_of_eq hf hs, State.fbAt_of_fb hf, h.seen]

/-- PKT.ROW and PKT.LAST replace their row (R171, R172). -/
theorem rowReplaced_afterPacket {p : Packet} {cls : PktClass} {s : State} (hc : s.cfg.wf)
    (hl : p.lengthOk s.cfg = true) (h : cls = .row ∨ cls = .last) :
    RowReplaced s (s.afterPacket p cls) p.row.toNat p.payload := by
  have hw := rowReplaced_memWrite (r := p.row.toNat) (Packet.payload_length hc hl)
  rcases h with rfl | rfl
  · exact hw.of_eq (by simp [State.afterPacket]) (by simp [State.afterPacket])
  · exact hw.of_eq (by simp [State.afterPacket]) (by simp [State.afterPacket])

/-- PKT.DISCARD and PKT.OOR leave FB alone (R170, R173). -/
theorem afterPacket_fb_of_noWrite {p : Packet} {cls : PktClass} {s : State} (h : cls = .discard ∨ cls = .oor) :
    (s.afterPacket p cls).fb = s.fb := by
  rcases h with rfl | rfl
  · simp [State.afterPacket]
  · simp [State.afterPacket]

/-! ### The four instructions -/

/-- Settles O13: PKT.ROW replaces its row, counts it and responds. -/
theorem pktRowCompletes : Obligations.PktRowCompletes := by
  intro p s hc hw hf
  have hrow := rowReplaced_afterPacket hc (Instr.wf_pktRow.mp hw).1 (.inl rfl)
  refine ⟨_, exec_ofClass_of_wf (cls := .row) hw hf, hrow.inside, hrow.outside, hrow.seen, ?_⟩
  simp only [State.afterPacket, State.count_eq]
  rfl

/-- Settles O14: PKT.LAST replaces the last row, since its row index is ROWS - 1, counts the frame and responds. -/
theorem pktLastCompletes : Obligations.PktLastCompletes := by
  intro p s hc hw hf
  obtain ⟨hl, hcls⟩ := Instr.wf_pktLast.mp hw
  have hr : p.row.toNat = s.cfg.rows - 1 := Nat.eq_sub_of_add_eq (Packet.cls_last_iff.mp hcls).2
  have hrow := rowReplaced_afterPacket hc hl (.inr rfl)
  rw [hr] at hrow
  refine ⟨_, exec_ofClass_of_wf (cls := .last) hw hf, hr, hrow.inside, hrow.outside, hrow.seen, ?_⟩
  simp only [State.afterPacket, State.count_eq, hr]
  rfl

/-- Settles O11: PKT.DISCARD counts the packet and responds. -/
theorem pktDiscardCompletes : Obligations.PktDiscardCompletes := by
  intro p s hw hf
  refine (exec_ofClass_of_wf (cls := .discard) hw hf).trans ?_
  simp only [State.afterPacket, State.count_eq]
  rfl

/-- Settles O12: PKT.OOR counts the packet and responds. -/
theorem pktOorCompletes : Obligations.PktOorCompletes := by
  intro p s hw hf
  refine (exec_ofClass_of_wf (cls := .oor) hw hf).trans ?_
  simp only [State.afterPacket, State.count_eq]
  rfl

end Machine
end Sys2Proof
end

section
/-! PROOFS. R162, R166 to R169 and R177: the response of a packet step is positional, only a Valid packet in range writes,
and the same packet twice leaves FB and SEEN as once. -/

namespace Sys2Proof.Machine

/-- An instruction that gives a next state is refused as ill-formed, takes a packet step with FATAL = 0, or is no packet
and leaves FB and DIAG alone. -/
theorem exec_packet_cases {i : Instr} {s t : State} (h : exec i s = .next t) :
    (i.wf s.cfg = false ∧ t = s.refuse) ∨
    (∃ p cls, i = Instr.ofClass p cls ∧ s.fatal = false ∧ p.lengthOk s.cfg = true ∧ p.cls s.cfg = cls ∧
      t = s.afterPacket p cls) ∨
    (∀ p cls, i ≠ Instr.ofClass p cls) ∧ t.fb = s.fb ∧ t.diag = s.diag := by
  rcases exec_cases h with hr |
    ⟨hf, p, hi, hl, hcls, ht⟩ | ⟨hf, p, hi, hl, hcls, ht⟩ | ⟨hf, p, hi, hl, hcls, ht⟩ |
    ⟨hf, p, hi, hl, hcls, ht⟩ | ⟨-, rfl, rfl⟩ | ⟨c, rfl, -, rfl⟩ | ⟨hi, hs⟩
  · exact .inl hr
  · exact .inr (.inl ⟨p, .discard, hi, hf, hl, hcls, ht⟩)
  · exact .inr (.inl ⟨p, .oor, hi, hf, hl, hcls, ht⟩)
  · exact .inr (.inl ⟨p, .last, hi, hf, hl, hcls, ht⟩)
  · exact .inr (.inl ⟨p, .row, hi, hf, hl, hcls, ht⟩)
  · exact .inr (.inr ⟨fun p cls => by cases cls <;> simp [Instr.ofClass], by simp⟩)
  · exact .inr (.inr ⟨fun p cls => by cases cls <;> simp [Instr.ofClass], by simp⟩)
  · refine .inr (.inr ⟨fun p cls he => ?_, hs.fb, hs.diag⟩)
    cases cls <;> simp [he, Instr.ofClass] at hi

/-- The fields of the response of a packet step (R166, R167, R169). -/
theorem afterPacket_rsp {p : Packet} {cls : PktClass} {s : State} :
    (s.afterPacket p cls).rsp =
      { kind := decide (cls ≠ .discard)
        row := if cls = .discard then 0 else p.row
        wrote := decide (cls = .row ∨ cls = .last)
        done := decide (cls = .last)
        allRows := decide (cls = .last) && s.allRows p.row.toNat } := by
  cases cls <;> rfl

/-- Settles O16: P bytes are the bytes of a packet, and each field of the response is a condition on its class. -/
theorem completionIsPositional : Obligations.CompletionIsPositional := by
  intro s t bytes hc hlen ht
  obtain ⟨p, -, rfl, hl⟩ := parsePacket_of_length hc hlen
  rw [runCommand_bytes hl, exec_ofClass_eq_next hl] at ht
  obtain ⟨-, -, rfl⟩ := ht
  have hrows := hc.rows_bounds.1
  have hlast : p.cls s.cfg = .last ↔ p.status.toNat ≠ s.cfg.discardValue ∧ p.row.toNat = s.cfg.rows - 1 := by
    rw [Packet.cls_last_iff]
    omega
  rw [statusField_bytes, pktByte_one_bytes, afterPacket_rsp]
  refine ⟨decide_eq_true_iff.trans hlast, decide_eq_true_iff.trans Packet.cls_discard_iff.not,
    decide_eq_true_iff.trans Packet.cls_writes_iff, if_congr Packet.cls_discard_iff rfl rfl, ?_⟩
  by_cases h : p.cls s.cfg = .last
  · rw [(hlast.mp h).2, Bool.and_assoc]
    rfl
  · simp [h]

/-- Settles O17: what changes FB is a packet step of a writing class, and it leaves the bytes outside its row. -/
theorem onlyValidInRangePacketsWrite : Obligations.OnlyValidInRangePacketsWrite := by
  intro i s t a hc h hne
  have hfb : t.fb ≠ s.fb := fun he => hne (State.fbAt_of_fb he a)
  rcases exec_packet_cases h with ⟨-, rfl⟩ | ⟨p, cls, rfl, -, hl, hcls, rfl⟩ | ⟨-, he, -⟩
  · exact absurd rfl hfb
  · have hw : cls = .row ∨ cls = .last := by
      by_contra hn
      refine hfb (afterPacket_fb_of_noWrite ?_)
      cases cls <;> simp at hn ⊢
    obtain ⟨hs, hr⟩ := Packet.cls_writes_iff.mp (hcls ▸ hw)
    have hin : ¬(a < rowBase s.cfg p.row.toNat ∨ rowBase s.cfg p.row.toNat + s.cfg.rowBytes ≤ a) :=
      fun ha => hne ((rowReplaced_afterPacket hc hl hw).outside a ha)
    refine ⟨p, hw.imp (congrArg (Instr.ofClass p)) (congrArg (Instr.ofClass p)), hs, hr, by omega, by omega⟩
  · exact absurd he hfb

/-! ### The same packet twice -/

/-- A second write of the same bytes makes no other value visible (R78). -/
theorem mem_memWrite_twice_seenAt {s : State} {a : Nat} {bs : List Byte} {x : Nat} {v : Byte} :
    v ∈ ((s.memWrite a bs).memWrite a bs).seenAt x ↔ v ∈ (s.memWrite a bs).seenAt x := by
  simp only [State.mem_memWrite_seenAt]
  tauto

section Twice

variable {p : Packet} {cls : PktClass} {s : State}

theorem afterPacket_twice_fb : ((s.afterPacket p cls).afterPacket p cls).fb = (s.afterPacket p cls).fb := by
  cases cls <;> simp [State.afterPacket, Mem.write_write]

theorem afterPacket_twice_seenAt {a : Nat} {v : Byte} :
    v ∈ ((s.afterPacket p cls).afterPacket p cls).seenAt a ↔ v ∈ (s.afterPacket p cls).seenAt a := by
  cases cls with
  | discard => rw [State.seenAt_of_eq] <;> simp [State.afterPacket]
  | oor => rw [State.seenAt_of_eq] <;> simp [State.afterPacket]
  | last => simpa [State.afterPacket, State.seenAt] using mem_memWrite_twice_seenAt
  | row => simpa [State.afterPacket, State.seenAt] using mem_memWrite_twice_seenAt

end Twice

/-- A Valid packet adds 1 to PKT_CNT and to one of ROW_WR_CNT and OOR_CNT (R174). -/
theorem Diag.countPacket_valid {r rows : Nat} {cls : PktClass} {d : Diag} (h : cls ≠ .discard) :
    (d.countPacket r rows cls).pktCnt = d.pktCnt + 1 ∧
      (d.countPacket r rows cls).rowWrCnt + (d.countPacket r rows cls).oorCnt = d.rowWrCnt + d.oorCnt + 1 := by
  cases cls with
  | discard => exact absurd rfl h
  | oor => exact ⟨rfl, (add_assoc ..).symm⟩
  | last => exact ⟨rfl, add_right_comm ..⟩
  | row => exact ⟨rfl, add_right_comm ..⟩

/-- Settles O19: both steps are the packet's, and its effect on FB and SEEN is idempotent. -/
theorem samePacketTwiceIsIdempotent : Obligations.SamePacketTwiceIsIdempotent := by
  intro p i s t u hi hw ht hu
  obtain ⟨cls, rfl, hv⟩ : ∃ cls, i = Instr.ofClass p cls ∧ cls ≠ .discard := by
    rcases hi with rfl | rfl | rfl
    · exact ⟨.row, rfl, by decide⟩
    · exact ⟨.last, rfl, by decide⟩
    · exact ⟨.oor, rfl, by decide⟩
  have hl := (Instr.wf_ofClass_iff.mp hw).1
  obtain ⟨-, -, rfl⟩ := (exec_ofClass_eq_next hl).mp ht
  obtain ⟨-, -, rfl⟩ := (exec_ofClass_eq_next (by simpa using hl)).mp hu
  refine ⟨afterPacket_twice_fb, fun a v => afterPacket_twice_seenAt, ?_, fun h => ?_, fun hd => ?_⟩
  · simp only [afterPacket_rsp]
  · simp only [afterPacket_rsp]
    have hall : cls = .last → s.cfg.hasDiag = false := fun hcls => h.resolve_right (by simp [hcls, Instr.ofClass])
    by_cases hcls : cls = .last
    · simp [State.allRows, hall hcls]
    · simp [hcls]
  · obtain ⟨h1, h2⟩ := Diag.countPacket_valid (r := p.row.toNat) (rows := s.cfg.rows) (d := s.diag) hv
    obtain ⟨h3, h4⟩ := Diag.countPacket_valid (r := p.row.toNat) (rows := s.cfg.rows)
      (d := s.diag.countPacket p.row.toNat s.cfg.rows cls) hv
    simp only [State.afterPacket_diag, State.afterPacket_cfg, hd, if_true]
    rw [h3, h1, h4, h2, add_assoc, add_assoc]
    exact ⟨rfl, rfl⟩

end Sys2Proof.Machine
end

section
/-! PROOFS. R174 to R176: what a packet does to each counter and to ROWS_SEEN, by its class, and the invariants of the
diagnostic state that follow. -/

namespace Sys2Proof.Machine

/-- DIAG after an instruction is as before, or a packet was counted, with HAS_DIAG (R174). -/
theorem exec_diag_cases {i : Instr} {s t : State} (h : exec i s = .next t) :
    t.diag = s.diag ∨ ∃ r cls, t.diag = s.diag.countPacket r s.cfg.rows cls := by
  rcases exec_packet_cases h with ⟨-, rfl⟩ | ⟨p, cls, -, -, -, -, rfl⟩ | ⟨-, -, hd⟩
  · exact .inl rfl
  · rw [State.afterPacket_diag]
    split
    · exact .inr ⟨_, _, rfl⟩
    · exact .inl rfl
  · exact .inl hd

/-- Settles O24: a packet counts as its class says, and no other instruction touches DIAG. -/
theorem countersPerPacket : Obligations.CountersPerPacket := by
  intro i s t hw h
  rcases exec_packet_cases h with ⟨hn, -⟩ | ⟨p, cls, rfl, -, -, -, rfl⟩ | ⟨hi, -, hd⟩
  · exact absurd hw (by simp [hn])
  · refine ⟨fun _ hd => ?_, fun hn => ?_, fun hd => by simp [hd]⟩
    · rw [State.afterPacket_diag, if_pos hd, afterPacket_rsp]
      cases cls with
      | discard => simp [Instr.ofClass, Diag.countPacket, Diag.countDiscard]
      | oor => simp [Instr.ofClass, Diag.countPacket, Diag.countOor]
      | row => simp [Instr.ofClass, Diag.countPacket, Diag.countRow, Diag.see]
      | last =>
        simp only [Instr.ofClass, Diag.countPacket, Diag.countLast, State.allRows, hd]
        cases (s.diag.see p.row.toNat).full <;> simp
    · cases cls <;> simp [Instr.ofClass] at hn
  · refine ⟨fun ⟨p, hp⟩ => ?_, fun _ => hd, fun _ => hd⟩
    rcases hp with hp | hp | hp | hp
    · exact absurd hp (hi p .discard)
    · exact absurd hp (hi p .oor)
    · exact absurd hp (hi p .last)
    · exact absurd hp (hi p .row)

/-! ### The invariants of R176 -/

section CountPacket

variable {d : Diag} {r rows : Nat} (cls : PktClass)

theorem Diag.countPacket_sum (h : d.pktCnt = d.discardCnt + d.oorCnt + d.rowWrCnt) :
    (d.countPacket r rows cls).pktCnt = (d.countPacket r rows cls).discardCnt +
      (d.countPacket r rows cls).oorCnt + (d.countPacket r rows cls).rowWrCnt := by
  cases cls with
  | discard =>
    show d.pktCnt + 1 = d.discardCnt + 1 + d.oorCnt + d.rowWrCnt
    rw [h]
    ring
  | oor =>
    show d.pktCnt + 1 = d.discardCnt + (d.oorCnt + 1) + d.rowWrCnt
    rw [h]
    ring
  | last =>
    show d.pktCnt + 1 = d.discardCnt + d.oorCnt + (d.rowWrCnt + 1)
    rw [h, add_assoc]
  | row =>
    show d.pktCnt + 1 = d.discardCnt + d.oorCnt + (d.rowWrCnt + 1)
    rw [h, add_assoc]

/-- An incomplete frame is a frame. -/
theorem Diag.countPacket_frameCnt (h : (d.countPacket r rows cls).incompleteCnt ≠ d.incompleteCnt) :
    (d.countPacket r rows cls).frameCnt = d.frameCnt + 1 := by
  cases cls with
  | last => rfl
  | _ => exact absurd rfl h

/-- Of a frame that does not wrap FRAME_CNT, at most 1 is added to INCOMPLETE_CNT too. -/
theorem Diag.countPacket_incomplete_le (hw : d.frameCnt ≠ BitVec.allOnes 32)
    (h : d.incompleteCnt.toNat ≤ d.frameCnt.toNat) :
    (d.countPacket r rows cls).incompleteCnt.toNat ≤ (d.countPacket r rows cls).frameCnt.toNat := by
  cases cls with
  | last =>
    have hf : (d.frameCnt + 1).toNat = d.frameCnt.toNat + 1 := by
      have hne : d.frameCnt.toNat ≠ 2 ^ 32 - 1 := fun he => hw (BitVec.eq_of_toNat_eq (he.trans BitVec.toNat_allOnes.symm))
      have hlt := d.frameCnt.isLt
      exact BitVec.toNat_add_of_lt (show d.frameCnt.toNat + 1 < 2 ^ 32 by omega)
    simp only [Diag.countPacket, Diag.countLast, hf]
    split
    · omega
    · bv_omega
  | _ => exact h

theorem Diag.countPacket_rowsSeen_length (h : d.rowsSeen.length = rows) :
    (d.countPacket r rows cls).rowsSeen.length = rows := by
  cases cls with
  | last => exact List.length_replicate
  | row => exact List.length_set.trans h
  | _ => exact h

end CountPacket

/-- Settles O25: each class of packet keeps the invariants, and everything else leaves DIAG alone or clears it. -/
theorem diagInvariantsKept : Obligations.DiagInvariantsKept := by
  refine ⟨fun i s t hc hlen h => ?_, fun s hd => by simp [hd, Diag.zero], fun c => rfl⟩
  have hrows := hc.rows_bounds.2
  have hpop : ∀ d : Diag, d.rowsSeen.length = s.cfg.rows → d.rowsSeenPop.toNat ≤ s.cfg.rows :=
    fun d hd => (Diag.rowsSeenPop_toNat_le (hd.trans_le hrows)).trans_eq hd
  rcases exec_diag_cases h with he | ⟨r, cls, he⟩
  · rw [he]
    exact ⟨id, fun hn => absurd rfl hn, fun _ h => h, hpop _ hlen⟩
  · rw [he]
    exact ⟨Diag.countPacket_sum cls, Diag.countPacket_frameCnt cls, Diag.countPacket_incomplete_le cls,
      hpop _ (Diag.countPacket_rowsSeen_length cls hlen)⟩

/-! ### What `all_rows` means -/

/-- ROWS_SEEN is all ones once bit `r` is set when every other bit was set. -/
theorem Diag.full_see_iff {d : Diag} {r : Nat} :
    (d.see r).full = true ↔ ∀ k, k < d.rowsSeen.length → k = r ∨ d.rowsSeen[k]? = some true := by
  have hget : ∀ k (hk : k < d.rowsSeen.length), (d.rowsSeen.set r true)[k]'(by simpa using hk) = true ↔
      k = r ∨ d.rowsSeen[k]? = some true := by
    intro k hk
    rw [List.getElem_set, List.getElem?_eq_getElem hk]
    by_cases hr : r = k
    · simp [hr]
    · simp [hr, Ne.symm hr]
  simp only [Diag.full, Diag.see, List.all_eq_true, id, List.forall_mem_iff_getElem, List.length_set]
  exact forall₂_congr hget

/-- Settles O28: `all_rows` is read from ROWS_SEEN with the last row's bit set, and the other bits match HIST. -/
theorem allRowsMeansEveryRowWritten : Obligations.AllRowsMeansEveryRowWritten := by
  intro i s t hd hw h
  rcases exec_packet_cases h with ⟨hn, -⟩ | ⟨p, cls, rfl, -, -, hcls, rfl⟩ | ⟨hi, -, hdiag⟩
  · exact absurd hw (by simp [hn])
  · refine ⟨?_, fun q hq hlen hm => ?_⟩
    · rw [State.afterPacket_diag, if_pos hd]
      cases cls <;> rfl
    · have hlast : cls = .last := by
        cases cls <;> simp [Instr.ofClass] at hq ⊢
      have hr : p.row.toNat + 1 = s.cfg.rows := (Packet.cls_last_iff.mp (hcls.trans hlast)).2
      have hall : (s.afterPacket p cls).rsp.allRows = (s.diag.see p.row.toNat).full := by
        simp [afterPacket_rsp, hlast, State.allRows, hd]
      rw [hall, Diag.full_see_iff, hlen]
      refine forall₂_congr fun k hk => or_congr (by omega) ?_
      rw [hm.rows k hk, Option.some.injEq]
  · refine ⟨?_, fun q hq => absurd hq (hi q .last)⟩
    rw [hdiag]
    cases i with
    | pktRow p => exact absurd rfl (hi p .row)
    | pktLast p => exact absurd rfl (hi p .last)
    | _ => rfl

end Sys2Proof.Machine
end

section
/-! PROOFS. R178 and R179: after a sequence of packets each row holds the payload of its last packet, by induction on the
sequence; a whole frame is such a sequence. -/

namespace Sys2Proof.Machine

/-- A packet writes row `r` when it is Valid and has that row index. -/
theorem writesRow_bytes_iff {c : Config} {p : Packet} {r : Nat} (hc : c.wf) (hl : p.lengthOk c = true) :
    writesRow c r (p.bytes c) = true ↔ p.status.toNat ≠ c.discardValue ∧ p.row.toNat = r := by
  rw [writesRow, classify_bytes hc hl]
  by_cases hd : p.status.toNat = c.discardValue <;> simp [hd]

/-- Only packets of one row write a row. -/
theorem writesRow_unique {c : Config} {bytes : List Byte} {r r' : Nat} (h : writesRow c r bytes = true)
    (h' : writesRow c r' bytes = true) : r = r' := by
  unfold writesRow at h h'
  cases hcl : classify c bytes with
  | discard => simp [hcl] at h
  | valid x payload =>
    simp only [hcl, beq_iff_eq] at h h'
    exact h.symm.trans h'

/-- Byte `i` of the payload is byte `HDR_LEN + i` of the packet (R105). -/
theorem payload_getD {c : Config} {p : Packet} (hl : p.lengthOk c = true) (i : Nat) :
    p.payload.getD i 0 = pktByte (p.bytes c) (c.hdrLen + i) := by
  simp [← drop_hdrLen_bytes hl, pktByte, List.getD]

/-- Different rows share no byte (R163). -/
theorem rowBase_add_outside {c : Config} {r r' i : Nat} (hne : r ≠ r') (hi : i < c.rowBytes) :
    rowBase c r + i < rowBase c r' ∨ rowBase c r' + c.rowBytes ≤ rowBase c r + i := by
  have hstep : ∀ {a b : Nat}, a < b → rowBase c a + c.rowBytes ≤ rowBase c b := fun {a b} hab =>
    calc rowBase c a + c.rowBytes = (a + 1) * c.rowBytes := (Nat.succ_mul ..).symm
      _ ≤ b * c.rowBytes := Nat.mul_le_mul_right _ hab
  rcases Nat.lt_or_gt_of_ne hne with h | h
  · have := hstep h
    omega
  · have := hstep h
    omega

/-- What a packet at idle ports with FATAL = 0 does to what the next packet depends on, and to the bytes of every row. -/
structure PacketTaken (s t : State) (bytes : List Byte) : Prop where
  cfg : t.cfg = s.cfg
  fatal : t.fatal = s.fatal
  cyc : t.cyc = s.cyc
  inputs : t.inputs = s.inputs
  byte : ∀ r i, r < s.cfg.rows → i < s.cfg.rowBytes →
    t.fbAt (rowBase s.cfg r + i) =
      if writesRow s.cfg r bytes then pktByte bytes (s.cfg.hdrLen + i) else s.fbAt (rowBase s.cfg r + i)

/-- The bytes of a row after a packet step: the payload's if the packet writes the row, else as before. -/
theorem afterPacket_byte {p : Packet} {s : State} (hc : s.cfg.wf) (hl : p.lengthOk s.cfg = true) {r i : Nat}
    (hr : r < s.cfg.rows) (hi : i < s.cfg.rowBytes) :
    (s.afterPacket p (p.cls s.cfg)).fbAt (rowBase s.cfg r + i) =
      if writesRow s.cfg r (p.bytes s.cfg) then pktByte (p.bytes s.cfg) (s.cfg.hdrLen + i)
      else s.fbAt (rowBase s.cfg r + i) := by
  by_cases hw : p.cls s.cfg = .row ∨ p.cls s.cfg = .last
  · have hrow := rowReplaced_afterPacket hc hl hw
    by_cases hp : p.row.toNat = r
    · rw [if_pos ((writesRow_bytes_iff hc hl).mpr ⟨(Packet.cls_writes_iff.mp hw).1, hp⟩), ← hp, hrow.inside i hi,
        payload_getD hl]
    · rw [if_neg fun h => hp ((writesRow_bytes_iff hc hl).mp h).2]
      exact hrow.outside _ (rowBase_add_outside (Ne.symm hp) hi)
  · have hno : p.cls s.cfg = .discard ∨ p.cls s.cfg = .oor := by
      cases hcls : p.cls s.cfg <;> simp [hcls] at hw ⊢
    rw [if_neg fun h => ?_]
    · exact State.fbAt_of_fb (afterPacket_fb_of_noWrite hno) _
    · obtain ⟨hs, rfl⟩ := (writesRow_bytes_iff hc hl).mp h
      exact hw (Packet.cls_writes_iff.mpr ⟨hs, hr⟩)

theorem runCommand_pkt_taken {s : State} {bytes : List Byte} (hc : s.cfg.wf) (hf : s.fatal = false)
    (hlen : bytes.length = s.cfg.p) : ∃ t, runCommand (.pkt bytes) s = .next t ∧ PacketTaken s t bytes := by
  obtain ⟨p, -, rfl, hl⟩ := parsePacket_of_length hc hlen
  refine ⟨s.afterPacket p (p.cls s.cfg), ?_, by simp, by simp, by simp, by simp, fun r i => afterPacket_byte hc hl⟩
  rw [runCommand_bytes hl, exec_ofClass_eq_next hl]
  exact ⟨hf, rfl, rfl⟩

/-- A step that takes a packet from the inputs, at idle ports. -/
theorem step_pkt_taken {s : State} {bytes : List Byte} {rest : List Input} (hc : s.cfg.wf) (hf : s.fatal = false)
    (hq : s.cyc.quiet = true) (hlen : bytes.length = s.cfg.p) (hin : s.inputs = .cmd (.pkt bytes) :: rest) :
    ∃ t, step s = .next t ∧ PacketTaken { s with inputs := rest } t bytes := by
  obtain ⟨t, ht, hk⟩ :=
    runCommand_pkt_taken (s := State.enterLoop (.cmd (.pkt bytes)) { s with inputs := rest }) hc hf hlen
  refine ⟨t, ?_, ⟨hk.cfg, hk.fatal, hk.cyc, hk.inputs, hk.byte⟩⟩
  rw [step, advance, if_pos hc, hin]
  exact present_eq_next.mpr ⟨by simp [hq], ht⟩

theorem run_succ {s t : State} (h : step s = .next t) (n : Nat) : core.run (n + 1) s = core.run n t := by
  have hs : core.step s = .next t := h
  simp only [Host.Core.run, hs]

/-- Byte `i` of row `r` after some packets: of the last one that writes the row, else as before. -/
def lastWritten (s : State) (pkts : List (List Byte)) (r i : Nat) : Byte :=
  (pkts.filter (writesRow s.cfg r)).getLast?.elim (s.fbAt (rowBase s.cfg r + i)) fun b => pktByte b (s.cfg.hdrLen + i)

/-- A packet in front matters where no later one writes the row. -/
theorem lastWritten_cons {s t : State} {b : List Byte} (h : PacketTaken s t b) (pkts : List (List Byte)) {r i : Nat}
    (hr : r < s.cfg.rows) (hi : i < s.cfg.rowBytes) : lastWritten s (b :: pkts) r i = lastWritten t pkts r i := by
  rw [lastWritten, lastWritten, h.cfg, h.byte r i hr hi, List.filter_cons]
  split
  · rw [List.getLast?_cons]
    cases (pkts.filter (writesRow s.cfg r)).getLast? <;> rfl
  · rfl

/-- R178: a sequence of packets, taken one after another. -/
theorem run_packets {pkts : List (List Byte)} {s : State} (hc : s.cfg.wf) (hf : s.fatal = false)
    (hq : s.cyc.quiet = true) (hlen : ∀ b ∈ pkts, b.length = s.cfg.p)
    (hin : s.inputs = pkts.map (fun b => .cmd (.pkt b))) :
    ∃ t, core.run pkts.length s = .next t ∧ t.cfg = s.cfg ∧ t.fatal = false ∧
      ∀ r i, r < s.cfg.rows → i < s.cfg.rowBytes → t.fbAt (rowBase s.cfg r + i) = lastWritten s pkts r i := by
  induction pkts generalizing s with
  | nil => exact ⟨s, rfl, rfl, hf, fun _ _ _ _ => rfl⟩
  | cons b pkts ih =>
    obtain ⟨m, hm, hk⟩ := step_pkt_taken hc hf hq (hlen b (by simp)) hin
    have hcfg : m.cfg = s.cfg := hk.cfg
    obtain ⟨t, ht, htc, htf, hbyte⟩ := ih (hcfg ▸ hc) (hk.fatal.trans hf) (by rw [hk.cyc]; exact hq)
      (fun x hx => by rw [hcfg]; exact hlen x (by simp [hx])) hk.inputs
    refine ⟨t, (run_succ hm _).trans ht, htc.trans hcfg, htf, fun r i hr hi => ?_⟩
    rw [hcfg] at hbyte
    exact (hbyte r i hr hi).trans (lastWritten_cons hk pkts hr hi).symm

/-- Settles O21: `run_packets`, with `lastWritten` written out. -/
theorem lastWriterWins : Obligations.LastWriterWins := by
  intro s pkts hc hf hq hlen hin
  obtain ⟨t, ht, -, -, hbyte⟩ := run_packets hc hf hq hlen hin
  refine ⟨t, ht, fun r i hr hi => ?_⟩
  rw [hbyte r i hr hi, lastWritten]
  cases (pkts.filter (writesRow s.cfg r)).getLast? <;> rfl

/-! ### A whole frame -/

/-- Of one packet for each row, the packet of row `r` is the only one that writes it. -/
theorem filter_writesRow_frame {c : Config} {b : Nat → List Byte} (hb : ∀ r, r < c.rows → writesRow c r (b r) = true)
    {r : Nat} (hr : r < c.rows) : ((List.range c.rows).map b).filter (writesRow c r) = [b r] := by
  have hpred : ∀ k ∈ List.range c.rows, (writesRow c r ∘ b) k = (k == r) := by
    intro k hk
    by_cases hkr : k = r
    · simp [hkr, hb r hr]
    · have : writesRow c r (b k) ≠ true := fun h => hkr (writesRow_unique (hb k (List.mem_range.mp hk)) h)
      simp [hkr, this]
  rw [List.filter_map, List.filter_congr hpred, List.filter_beq,
    List.count_eq_one_of_mem List.nodup_range (List.mem_range.mpr hr)]
  rfl

/-- Settles O22: every row holds its packet's payload, in which sample `k` is the bytes `2k` and `2k + 1`; a FLUSH then
leaves each byte its current value only. -/
theorem frameRoundTrip : Obligations.FrameRoundTrip := by
  intro s b hc hf hq hb hin
  have hlen : ∀ x ∈ (List.range s.cfg.rows).map b, x.length = s.cfg.p := by
    intro x hx
    obtain ⟨r, hr, rfl⟩ := List.mem_map.mp hx
    exact (hb r (List.mem_range.mp hr)).1
  obtain ⟨t, ht, htc, htf, hbyte⟩ := run_packets hc hf hq hlen (by rw [hin, List.map_map]; rfl)
  refine ⟨t, by simpa using ht, fun r k hr hk => ?_,
    t.clearSeen.emit .flushDone, execFlush_eq_next.mpr ⟨htf, rfl⟩, fun a => rfl⟩
  have hrow : ∀ i, i < s.cfg.rowBytes → t.fbAt (rowBase s.cfg r + i) = pktByte (b r) (s.cfg.hdrLen + i) := by
    intro i hi
    rw [hbyte r i hr hi, lastWritten, filter_writesRow_frame (fun r hr => (hb r hr).2) hr]
    rfl
  have hsample : ∀ x, x < 2 → t.fbAt (fbAddr s.cfg r k x) = pktByte (b r) (s.cfg.hdrLen + (2 * k + x)) := by
    intro x hx
    rw [fbAddr_eq_rowBase_add hc]
    exact hrow _ (sampleOffset_lt_rowBytes hc hk hx)
  unfold State.sampleValue
  rw [htc, hsample 0 (by decide), hsample 1 (by decide)]
  rfl

end Sys2Proof.Machine
end

section
/-! PROOFS. R201, R202 and R205: the host's move in AWAITING_ROWS, as the command it presents and the control state it
then goes to. -/

namespace Sys2Proof.Machine

/-- A step that takes a move of the host's loop from the inputs: the setup is over from it on (R206). -/
theorem step_host {s : State} {x : Transfer} {rest : List Input} (hc : s.cfg.wf) (hin : s.inputs = .host x :: rest) :
    step s = hostMove x { s with inputs := rest, hostUp := true } := by
  rw [step, advance, if_pos hc, hin]
  simp only [runInput, State.enterLoop, Input.entersLoop, Bool.or_true]

@[simp] theorem State.afterPacket_hostUp (p : Packet) (cls : PktClass) (s : State) :
    (s.afterPacket p cls).hostUp = s.hostUp := by
  cases cls <;> simp [State.afterPacket]

/-- A packet of P bytes while FATAL = 0 gets a response, whose `done` says that it is a LAST packet (R169). -/
theorem runCommand_pkt_done {s : State} {bytes : List Byte} (hc : s.cfg.wf) (hf : s.fatal = false)
    (hlen : bytes.length = s.cfg.p) :
    ∃ u, runCommand (.pkt bytes) s = .next u ∧ u.hostUp = s.hostUp ∧
      u.rsp.done = decide (pktClass s.cfg bytes = .last) := by
  obtain ⟨p, -, rfl, hl⟩ := parsePacket_of_length hc hlen
  refine ⟨s.afterPacket p (p.cls s.cfg), ?_, s.afterPacket_hostUp .., ?_⟩
  · rw [runCommand_bytes hl, exec_ofClass_eq_next hl]
    exact ⟨hf, rfl, rfl⟩
  · rw [afterPacket_rsp, pktClass_bytes hc hl]

/-- R242: a FATAL of a cause other than 0 always completes. -/
theorem exec_fatal_completes {s : State} {cause : BitVec 2} (hcause : cause ≠ 0#2) :
    ∃ u, exec (.fatal cause) s = .next u ∧ u.hostUp = s.hostUp :=
  ⟨s.raiseFatal cause, execFatal_eq_next.mpr (.inr ⟨hcause, rfl⟩), s.raiseFatal_hostUp cause⟩

section AwaitingRows

variable {s u : State}

/-- R202: the transferred packet is presented, and `done` of its response ends the frame. -/
theorem hostMove_bytes {b : List Byte} (hrun : runCommand (.pkt b) s = .next u) (hq : s.cyc.quiet = true)
    (hh : s.host = .awaitingRows) (hlen : b.length = s.cfg.p) :
    hostMove (.bytes b) s = .next { u with host := if u.rsp.done then .frameComplete else .awaitingRows } := by
  have hpres : present (.pkt b) s = .next u := present_eq_next.mpr ⟨by simp [hq], hrun⟩
  simp only [hostMove, hh, hlen, hpres, ne_eq, not_true, if_false, andThen_next]

/-- R202, R205: a transport error is presented as FATAL 1, and the host aborts. -/
theorem hostMove_error (hrun : exec (.fatal 1#2) s = .next u) (hq : s.cyc.quiet = true) (hh : s.host = .awaitingRows) :
    hostMove .error s = .next { u with host := .aborted } := by
  have hpres : present (.fatal 1#2) s = .next u := present_eq_next.mpr ⟨by simp [hq], hrun⟩
  simp only [hostMove, hh, hpres, andThen_next]

end AwaitingRows

/-- Settles O52: the move runs the command it presents with the setup over, and `done` is the response of a LAST packet
only. -/
theorem hostAwaitingRows : Obligations.HostAwaitingRows := by
  intro s rest hc hq hh
  refine ⟨fun b hf hlen hin => ?_, fun hin => ?_⟩
  · obtain ⟨u, hrun, hup, hdone⟩ :=
      runCommand_pkt_done (s := { s with inputs := rest, hostUp := true }) hc hf hlen
    refine ⟨u, hup ▸ hrun, ?_⟩
    rw [step_host hc hin, hostMove_bytes hrun hq hh hlen, hdone]
    simp only [decide_eq_true_eq]
  · obtain ⟨u, hrun, hup⟩ :=
      exec_fatal_completes (s := { s with inputs := rest, hostUp := true }) (cause := 1#2) (by decide)
    refine ⟨u, hup ▸ hrun, ?_⟩
    rw [step_host hc hin, hostMove_error hrun hq hh]

end Sys2Proof.Machine
end

section
/-! PROOFS. R220 to R224: the sink ports. A read draws its bytes from SEEN, and no read changes what a packet or a FLUSH
works on. -/

namespace Sys2Proof.Machine

/-- Settles O31: the byte given is the draw from SEEN[addr]. -/
theorem rd8Completes : Obligations.Rd8Completes := by
  refine fun j addr s hj => ⟨fun ha => ?_, fun ha => execRd8_eq_next.mpr ⟨hj, .inr ⟨ha, rfl⟩⟩⟩
  exact ⟨s.drawAt addr, s.draws + 1, s.drawAt_mem addr, execRd8_eq_next.mpr ⟨hj, .inl ⟨ha, rfl⟩⟩⟩

/-- R222: two reads by one reader add their events in order and use up two draws. -/
theorem State.recordRead_recordRead {j a b : Nat} {v w : Byte} {s : State} :
    (s.recordRead j a v).recordRead j b w =
      { s with hist := s.hist ++ [.read j a v, .read j b w], draws := s.draws + 2 } := by
  simp [recordRead, emit]

/-- Settles O32: the second byte is drawn after the first is recorded, which leaves SEEN alone. -/
theorem rd16Completes : Obligations.Rd16Completes := by
  refine fun j addr s hj => ⟨fun heven ha => ?_, fun herr => execRd16_eq_next.mpr ⟨hj, .inr ⟨by omega, rfl⟩⟩⟩
  have hv1 : (s.recordRead j addr (s.drawAt addr)).drawAt (addr + 1) ∈ s.seenAt (addr + 1) := State.drawAt_mem ..
  refine ⟨_, _, s.draws + 2, s.drawAt_mem addr, hv1, _, BitVec.extractLsb'_append_eq_right,
    BitVec.extractLsb'_append_eq_left, execRd16_eq_next.mpr ⟨hj, .inl ⟨⟨heven, ha⟩, ?_⟩⟩⟩
  rw [State.recordRead_recordRead]
  rfl

namespace State

variable {s : State}

/-- R42, R39: the register of a counter index is its counter, or 0 without HAS_DIAG. -/
theorem diagReg_eq_ite {k : BitVec 3} {w : Word32} (hk : k ≠ 7#3) (hw : s.cfg.hasDiag = true → s.diagReg k = w) :
    s.diagReg k = if s.cfg.hasDiag then w else 0 := by
  split
  next hd => exact hw hd
  next hd => exact diagReg_eq_zero_of_noDiag (Bool.eq_false_iff.mpr hd) hk

/-! ### STATUS, field by field (R43) -/

theorem diagReg_status : s.diagReg 7#3 = s.status := rfl

theorem status_getLsbD_fatal : s.status.getLsbD 0 = s.fatal := by
  rw [status, BitVec.getLsbD_setWidth, BitVec.getLsbD_append]
  simp

theorem status_extractLsb'_cause : s.status.extractLsb' 1 2 = s.cause := by
  rw [status, BitVec.extractLsb'_setWidth_of_le (by decide), BitVec.extractLsb'_append_eq_of_le (by decide)]
  exact BitVec.extractLsb'_append_eq_right

theorem status_getLsbD_diagPresent : s.status.getLsbD 3 = s.cfg.hasDiag := by
  rw [status, BitVec.getLsbD_setWidth, BitVec.getLsbD_append, BitVec.getLsbD_append]
  simp

theorem status_extractLsb'_high : s.status.extractLsb' 4 28 = 0 := by
  ext i
  simp [status]

end State

/-- Settles O37: the register is read off the state, and STATUS is taken apart by its fields. -/
theorem diagrdCompletes : Obligations.DiagrdCompletes := by
  refine fun k s => ⟨s.diagReg k, _, execDiagrd_next k s, rfl, rfl, ?_, ?_, ?_, ?_, ?_, ?_, ?_, ?status⟩ <;> rintro rfl
  case status =>
    rw [State.diagReg_status]
    exact ⟨State.status_getLsbD_fatal, State.status_extractLsb'_cause, State.status_getLsbD_diagPresent,
      State.status_extractLsb'_high⟩
  all_goals exact State.diagReg_eq_ite (by decide) fun hd => by simp [State.diagReg, Diag.rowsSeenPop, hd]

/-- R224: a reader's or a diagnostic read leaves the cycle-level registers alone, and all that `SameButReads` lists. -/
theorem exec_read_frame {i : Instr} {s t : State} (hi : (∃ j a, i = .rd8 j a ∨ i = .rd16 j a) ∨ ∃ k, i = .diagrd k)
    (h : exec i s = .next t) : SameButReads s t ∧ t.cyc = s.cyc := by
  rcases hi with ⟨j, a, rfl | rfl⟩ | ⟨k, rfl⟩
  · rcases execRd8_eq_next.mp h with ⟨-, ⟨-, ht⟩ | ⟨-, ht⟩⟩ <;> exact ⟨execRd8_reads h, by simp [ht]⟩
  · rcases execRd16_eq_next.mp h with ⟨-, ⟨-, ht⟩ | ⟨-, ht⟩⟩ <;> exact ⟨execRd16_reads h, by simp [ht]⟩
  · cases h
    exact ⟨execDiagrd_reads rfl, rfl⟩

/-- Settles O39: what a read leaves alone, with SEEN given by FB and the listed pairs. -/
theorem readsChangeNoState : Obligations.ReadsChangeNoState := by
  intro i s t hi h
  obtain ⟨hr, hcyc⟩ := exec_read_frame hi h
  exact ⟨hr.fb, State.seenAt_of_eq hr.fb hr.stale, hr.fatal, hr.cause, hr.diag, hr.refused, hr.rsp, hcyc, hr.cfg,
    hr.inputs, hr.host⟩

/-- R243: a FLUSH while FATAL = 1 has no step. -/
theorem execFlush_of_fatal {s : State} (hf : s.fatal = true) : execFlush s = .fault .stuckFatal := by
  simp [execFlush, hf]

/-- Settles O30: a FLUSH empties the list of values that are not current, so each SEEN set is the byte alone. -/
theorem flushCompletes : Obligations.FlushCompletes := by
  refine fun s => ⟨fun hf => ?_, execFlush_of_fatal⟩
  exact ⟨s.clearSeen.emit .flushDone, execFlush_eq_next.mpr ⟨hf, rfl⟩, s.clearSeen_seenAt, rfl⟩

end Sys2Proof.Machine
end

section
/-! PROOFS. R243 to R245 and R256: while FATAL = 1 no packet and no FLUSH runs, so a command or a strobe leaves FATAL,
CAUSE, FB and SEEN alone. What is left of a step is a reset, and the row bytes of a packet in progress, which
the invariant excludes. -/

namespace Sys2Proof.Machine

/-! ### What stays while FATAL = 1 -/

/-- What PCFR leaves alone while FATAL = 1: FATAL itself and its first cause (R244, R245), FB and SEEN, and the
acknowledge of a FLUSH (R243). -/
structure StaysFatal (s t : State) : Prop where
  fatal : t.fatal = true
  cause : t.cause = s.cause
  fb : t.fb = s.fb
  stale : t.stale = s.stale
  flushAck : t.cyc.flushAck = s.cyc.flushAck

theorem StaysFatal.trans {s t u : State} (h : StaysFatal s t) (g : StaysFatal t u) : StaysFatal s u :=
  ⟨g.fatal, g.cause.trans h.cause, g.fb.trans h.fb, g.stale.trans h.stale, g.flushAck.trans h.flushAck⟩

/-- The host's control state is none of it. -/
theorem StaysFatal.withHost {s t : State} (h : StaysFatal s t) (c : HostCtl) (up : Bool) :
    StaysFatal s { t with host := c, hostUp := up } := ⟨h.fatal, h.cause, h.fb, h.stale, h.flushAck⟩

@[simp] theorem rowProgress_fatal (e : Edge) (s : State) : (rowProgress e s).fatal = s.fatal := by
  rcases rowProgress_cases e s with h | ⟨b, m, -, h⟩ <;> simp [h]

@[simp] theorem rowProgress_cause (e : Edge) (s : State) : (rowProgress e s).cause = s.cause := by
  rcases rowProgress_cases e s with h | ⟨b, m, -, h⟩ <;> simp [h]

theorem rowProgress_of_idle (e : Edge) {s : State} (hp : s.cyc.phase = .idle) : rowProgress e s = s := by
  simp [rowProgress, hp]

section

variable {s t : State} (hf : s.fatal = true)
include hf

theorem StaysFatal.refl : StaysFatal s s := ⟨hf, rfl, rfl, rfl, rfl⟩

theorem StaysFatal.refuse : StaysFatal s s.refuse := ⟨hf, rfl, rfl, rfl, rfl⟩

theorem StaysFatal.onCyc {f : Cycle → Cycle} (h : (f s.cyc).flushAck = s.cyc.flushAck) : StaysFatal s (s.onCyc f) :=
  ⟨hf, rfl, rfl, rfl, h⟩

/-! ### Commands -/

/-- R243: a packet of P bytes has no step. -/
theorem exec_ofClass_of_fatal {p : Packet} (hl : p.lengthOk s.cfg = true) (cls : PktClass) :
    exec (Instr.ofClass p cls) s = .fault .stuckFatal := by
  have hstuck (k : State → State) : onPacket cls p s k = .fault .stuckFatal := by simp [onPacket, hl, hf]
  cases cls <;> simp only [Instr.ofClass, exec, execPktDiscard, execPktOor, execPktLast, execPktRow, hstuck]

/-- An instruction that has a next state is a refused one, a further FATAL, or a read. -/
theorem exec_staysFatal {i : Instr} (h : exec i s = .next t) : StaysFatal s t := by
  have hne : s.fatal ≠ false := by simp [hf]
  rcases exec_cases h with ⟨-, rfl⟩ | ⟨hf', -⟩ | ⟨hf', -⟩ | ⟨hf', -⟩ | ⟨hf', -⟩ | ⟨hf', -⟩ | ⟨c, -, -, rfl⟩ | ⟨hi, hr⟩
  · exact .refuse hf
  iterate 5 exact absurd hf' hne
  · constructor <;> simp [hf]
  · exact ⟨hr.fatal.trans hf, hr.cause, hr.fb, hr.stale, by rw [(exec_read_frame hi h).2]⟩

theorem runCommand_staysFatal {c : Command} (h : runCommand c s = .next t) : StaysFatal s t := by
  rcases runCommand_eq_next.mp h with ⟨i, -, hi⟩ | ⟨-, rfl⟩
  · exact exec_staysFatal hf hi
  · exact .refuse hf

/-- A move of the host's loop presents at most one command. -/
theorem hostMove_staysFatal {x : Transfer} (h : hostMove x s = .next t) : StaysFatal s t := by
  have present_staysFatal {c : Command} {f : State → HostCtl}
      (h : andThen (present c s) (fun u => .next { u with host := f u }) = .next t) : StaysFatal s t := by
    obtain ⟨u, hu, ht⟩ := andThen_eq_next.mp h
    cases ht
    exact (runCommand_staysFatal hf (present_eq_next.mp hu).2).withHost (f u) u.hostUp
  unfold hostMove at h
  split at h
  · split at h
    · cases h
      exact .refuse hf
    · exact present_staysFatal h
  · exact present_staysFatal (f := fun _ => .aborted) h
  · exact present_staysFatal (f := fun _ => .awaitingRows) h
  · cases h
    exact .refl hf

/-! ### Clock edges -/

theorem diagPort_staysFatal {e : Edge} (h : diagPort e s = .next t) : StaysFatal s t := by
  unfold diagPort at h
  split at h
  · cases h
    exact .refl hf
  · exact runCommand_staysFatal hf h

theorem serveReaders_staysFatal {qs : List RdReq} (h : serveReaders qs s = .next t) : StaysFatal s t := by
  induction qs generalizing s with
  | nil =>
    cases h
    exact .refl hf
  | cons q qs ih =>
    obtain ⟨m, hm, ht⟩ := andThen_eq_next.mp h
    obtain ⟨n, hn, hm⟩ := andThen_eq_next.mp hm
    cases hm
    have hsn : StaysFatal s n := runCommand_staysFatal hf hn
    exact (hsn.trans (.onCyc hsn.fatal rfl)).trans (ih hsn.fatal ht)

theorem readerPorts_staysFatal {e : Edge} (h : readerPorts e s = .next t) : StaysFatal s t := by
  obtain ⟨m, hm, ht⟩ := andThen_eq_next.mp h
  cases ht
  have hsm : StaysFatal s m := serveReaders_staysFatal hf hm
  exact hsm.trans (.onCyc hsm.fatal rfl)

theorem takeFatals_staysFatal {cs : List (BitVec 2)} (h : takeFatals cs s = .next t) : StaysFatal s t := by
  induction cs generalizing s with
  | nil =>
    cases h
    exact .refl hf
  | cons c cs ih =>
    obtain ⟨m, hm, ht⟩ := andThen_eq_next.mp h
    have hsm : StaysFatal s m := runCommand_staysFatal hf hm
    exact hsm.trans (ih hsm.fatal ht)

/-- The packet, flush and fatal ports: held strobes are taken, nothing is accepted, and a FLUSH in progress cannot end. -/
theorem hostPorts_staysFatal {e : Edge} (h : hostPorts e s = .next t) : StaysFatal s t := by
  have hhold : StaysFatal s (holdFatal e s) := .onCyc hf rfl
  have hidle : StaysFatal s ((holdFatal e s).onCyc fun y => { y with phase := .idle }) :=
    hhold.trans (.onCyc hhold.fatal rfl)
  unfold hostPorts at h
  split at h
  · rcases idleEdge_eq_next h with ⟨-, h⟩ | ⟨-, ⟨-, rfl⟩ | ⟨hf', -⟩⟩
    · exact (StaysFatal.onCyc hf rfl).trans (takeFatals_staysFatal hf h)
    · exact .refl hf
    · simp [hf] at hf'
  · rcases packetEdge_eq_next h with ⟨-, rfl⟩ | ⟨-, u, hu, rfl⟩
    · exact hhold
    · have hsu := hidle.trans (runCommand_staysFatal hidle.fatal hu)
      exact hsu.trans (.onCyc hsu.fatal rfl)
  · rcases flushEdge_eq_next h with ⟨-, rfl⟩ | ⟨-, u, hu, -⟩
    · exact hhold
    · exact absurd (runCommand_flush hu).1 (by simp [hhold.fatal])

/-- An edge without `rst`: the pulses end, and of what follows only the row bytes of a packet in progress can change FB
or SEEN. -/
theorem clockEdge_of_fatal {e : Edge} (hr : e.rst = false) (h : clockEdge e s = .next t) :
    ∃ m, StaysFatal s.clearPulses m ∧ m.cyc.phase = s.cyc.phase ∧ StaysFatal (rowProgress e m) t := by
  rw [clockEdge, hr] at h
  obtain ⟨m, hm, h⟩ := andThen_eq_next.mp h
  obtain ⟨n, hn, ht⟩ := andThen_eq_next.mp h
  have hsm : StaysFatal s.clearPulses m := diagPort_staysFatal hf hm
  have hmn : StaysFatal (rowProgress e m) n := readerPorts_staysFatal ((rowProgress_fatal e m).trans hsm.fatal) hn
  exact ⟨m, hsm, (diagPort_reads hm).phase, hmn.trans (hostPorts_staysFatal hmn.fatal ht)⟩

/-- With no step in progress an edge leaves FB and SEEN alone, a reset too (R272), and pulses no `flush_ack`. -/
theorem clockEdge_of_fatal_idle {e : Edge} (hp : s.cyc.phase = .idle) (h : clockEdge e s = .next t) :
    t.fb = s.fb ∧ t.stale = s.stale ∧ t.cyc.flushAck = false := by
  cases hr : e.rst with
  | true =>
    rw [clockEdge, if_pos hr] at h
    cases h
    simp [resetEdge, hp, Cycle.reset]
  | false =>
    obtain ⟨m, hsm, hphase, hmt⟩ := clockEdge_of_fatal hf hr h
    rw [rowProgress_of_idle e (hphase.trans hp)] at hmt
    have hst := hsm.trans hmt
    exact ⟨hst.fb, hst.stale, hst.flushAck⟩

/-! ### Steps -/

/-- An input that is no reset and no clock edge runs at most one command. -/
theorem runInput_staysFatal {i : Input} (h : runInput i s = .next t) : StaysFatal s t ∨ i = .reset ∨ ∃ e, i = .clk e := by
  cases i with
  | cmd c => exact .inl (runCommand_staysFatal hf (present_eq_next.mp h).2)
  | reset => exact .inr (.inl rfl)
  | resetDuringPkt b m =>
    rcases resetDuringPkt_eq_next h with ⟨-, ⟨-, rfl⟩ | ⟨-, hf', -⟩⟩
    · exact .inl (.refuse hf)
    · simp [hf] at hf'
  | host x => exact .inl (hostMove_staysFatal hf h)
  | hostSetup f =>
    obtain ⟨-, u, hu, rfl⟩ := hostSetupFailure_eq_next.mp h
    exact .inl ((runCommand_staysFatal hf (present_eq_next.mp hu).2).withHost .aborted true)
  | pause =>
    cases h
    exact .inl (.refl hf)
  | together x =>
    cases h
    exact .inl ⟨hf, rfl, rfl, rfl, rfl⟩
  | clk e => exact .inr (.inr ⟨e, rfl⟩)

/-- One step from a state with FATAL = 1: all stays, unless the input is a reset, which leaves FB and SEEN alone (R272),
or a clock edge. -/
theorem step_of_fatal (h : step s = .next t) :
    StaysFatal s t ∨
    (∃ rest, s.inputs = .reset :: rest ∧ t.fb = s.fb ∧ t.stale = s.stale) ∨
    ∃ e rest u, s.inputs = .clk e :: rest ∧ StaysFatal s u ∧ u.cyc.phase = s.cyc.phase ∧ clockEdge e u = .next t := by
  unfold step advance at h
  split at h
  next =>
    split at h
    next =>
      cases h
      exact .inl (.refl hf)
    next i rest hin =>
      have hsu : StaysFatal s (State.enterLoop i { s with inputs := rest }) := ⟨hf, rfl, rfl, rfl, rfl⟩
      rcases runInput_staysFatal hsu.fatal h with hut | rfl | ⟨e, rfl⟩
      · exact .inl (hsu.trans hut)
      · cases h
        exact .inr (.inl ⟨rest, hin, rfl, rfl⟩)
      · exact .inr (.inr ⟨e, rest, _, hin, hsu, rfl, h⟩)
  next =>
    cases h
    exact .inl ⟨hf, rfl, rfl, rfl, rfl⟩

end

/-- A read by a reader that exists is answered, whatever FATAL is. -/
theorem exec_rd_completes {agent addr : Nat} {s : State} (hj : agent < s.cfg.nReaders) :
    (∃ t, exec (.rd8 agent addr) s = .next t) ∧ ∃ t, exec (.rd16 agent addr) s = .next t := by
  simp only [exec, execRd8, execRd16, onReader_eq_next, hj, true_and, exists_eq, and_self]

/-- Under the invariant no packet step and no FLUSH is in progress while FATAL = 1 (R246). -/
theorem State.Inv.idle_of_fatal {s : State} (hs : s.Inv) (hf : s.fatal = true) : s.cyc.phase = .idle := by
  have hcyc := hs.cycle
  cases hp : s.cyc.phase with
  | idle => rfl
  | packet b => simp [State.cycleOk, hp, hf] at hcyc
  | flush => simp [State.cycleOk, hp, hf] at hcyc

/-- Settles O42: packets and FLUSH meet their guards; a step that is no clock edge leaves FB and SEEN alone, and under
the invariant an edge finds nothing in progress. -/
theorem nothingIsAcceptedWhileFatal : Obligations.NothingIsAcceptedWhileFatal := by
  intro s hf
  refine ⟨execFlush_of_fatal hf, fun p hl => ?_, by simp [State.pktReady, hf], fun t hs h => ?_, fun e t hs h => ?_,
    fun j a hj => exec_rd_completes hj, fun k => ⟨_, execDiagrd_next k s⟩⟩
  · have hstuck := exec_ofClass_of_fatal hf hl
    exact ⟨hstuck .discard, hstuck .oor, hstuck .last, hstuck .row⟩
  · rcases step_of_fatal hf h with hst | ⟨-, -, hfb, hstale⟩ | ⟨e, rest, u, -, hsu, hphase, hedge⟩
    · exact ⟨hst.fb, hst.stale⟩
    · exact ⟨hfb, hstale⟩
    · obtain ⟨hfb, hstale, -⟩ := clockEdge_of_fatal_idle hsu.fatal (hphase.trans (hs.idle_of_fatal hf)) hedge
      exact ⟨hfb.trans hsu.fb, hstale.trans hsu.stale⟩
  · exact (clockEdge_of_fatal_idle hf (hs.idle_of_fatal hf) h).2.2

/-- Settles O43: of the steps that are not a reset only a clock edge can write FB, and the row bytes it writes are no
part of FATAL and CAUSE. -/
theorem onlyResetClearsFatal : Obligations.OnlyResetClearsFatal := by
  intro s t hf h
  rcases step_of_fatal hf h with hst | ⟨rest, hin, -⟩ | ⟨e, rest, u, hin, hsu, -, hedge⟩
  · exact .inl ⟨hst.fatal, hst.cause⟩
  · exact .inr ⟨rest, .inl hin⟩
  · cases hr : e.rst with
    | true => exact .inr ⟨rest, .inr ⟨e, hr, hin⟩⟩
    | false =>
      obtain ⟨m, hum, -, hmt⟩ := clockEdge_of_fatal hsu.fatal hr hedge
      exact .inl ⟨hmt.fatal, hmt.cause.trans ((rowProgress_cause e m).trans (hum.cause.trans hsu.cause))⟩

/-- Settles O51: with no input `advance` answers the state itself. -/
theorem idleChangesNothing : Obligations.IdleChangesNothing := by
  intro s hc hin
  rw [step, advance, if_pos hc, hin]

end Sys2Proof.Machine
end

section
/-! PROOFS. R271 to R274: reset, a packet cut off by reset, and power-up. What a cut-off packet does to FB and SEEN is
said once, of `State.partialRow`; reset then changes neither. -/

namespace Sys2Proof.Machine

/-- A step takes the next input from the list and has its effect. -/
theorem step_input {s : State} {i : Input} {rest : List Input} (hc : s.cfg.wf) (hin : s.inputs = i :: rest) :
    step s = runInput i (State.enterLoop i { s with inputs := rest }) := by
  rw [step, advance, if_pos hc, hin]

/-! ### Reset -/

theorem step_reset {s : State} {rest : List Input} (hc : s.cfg.wf) (hin : s.inputs = .reset :: rest) :
    step s = .next ({ s with inputs := rest } : State).stepReset := by
  rw [step_input hc hin]
  simp only [runInput, State.enterLoop, Input.entersLoop, Bool.or_false]

/-- R115: after a reset a packet can be accepted. -/
theorem State.stepReset_pktReady (s : State) : s.stepReset.pktReady false = true := rfl

/-- Settles O44: the step is `stepReset`, which leaves every field that it does not name. -/
theorem resetSetsResetValues : Obligations.ResetSetsResetValues :=
  fun _ _ hc hin => ⟨_, step_reset hc hin, State.stepReset_pktReady _, rfl⟩

/-! ### A packet cut off by reset -/

/-- The payload of a Valid packet of P bytes is one row (R105). -/
theorem classify_valid_payload_length {c : Config} {bytes payload : List Byte} {r : Byte} (hc : c.wf)
    (hlen : bytes.length = c.p) (hcl : classify c bytes = .valid r payload) : payload.length = c.rowBytes := by
  obtain ⟨p, -, rfl, hl⟩ := parsePacket_of_length hc hlen
  rw [classify_bytes hc hl] at hcl
  split at hcl
  · cases hcl
  · cases hcl
    exact Packet.payload_length hc hl

/-- R78: SEEN after a write is SEEN with the current byte of each address added. -/
theorem State.mem_memWrite_seenAt_iff_fbAt {s : State} {a : Nat} {bs : List Byte} {x : Nat} {v : Byte} :
    v ∈ (s.memWrite a bs).seenAt x ↔ v ∈ s.seenAt x ∨ v = (s.memWrite a bs).fbAt x := by
  rw [State.mem_memWrite_seenAt, State.memWrite_fbAt]
  by_cases hx : a ≤ x ∧ x < a + bs.length
  · simp [hx]
  · have hold : v = s.fbAt x → v ∈ s.seenAt x := fun h => h ▸ s.fbAt_mem_seenAt x
    simpa [hx] using hold

/-- R273: what a packet cut off by reset leaves of its row: each byte new where the mask says and old elsewhere, SEEN
with the new value where FB took it, and every other byte as before. -/
structure RowPartlyWritten (s t : State) (bytes : List Byte) (mask : List Bool) : Prop where
  discard : classify s.cfg bytes = .discard → t.fb = s.fb ∧ t.stale = s.stale
  inside : ∀ r payload, classify s.cfg bytes = .valid r payload → r.toNat < s.cfg.rows → ∀ i, i < s.cfg.rowBytes →
    t.fbAt (rowBase s.cfg r.toNat + i) =
      if mask.getD i false then payload.getD i 0 else s.fbAt (rowBase s.cfg r.toNat + i)
  outside : ∀ r payload, classify s.cfg bytes = .valid r payload → ∀ a,
    s.cfg.rows ≤ r.toNat ∨ a < rowBase s.cfg r.toNat ∨ rowBase s.cfg r.toNat + s.cfg.rowBytes ≤ a →
      t.fbAt a = s.fbAt a
  seen : ∀ a v, v ∈ t.seenAt a ↔ v ∈ s.seenAt a ∨ v = t.fbAt a

section PartialRow

variable {s : State} {bytes payload : List Byte} {r : Byte} (mask : List Bool)

theorem State.partialRow_of_discard (hcl : classify s.cfg bytes = .discard) : s.partialRow bytes mask = s := by
  simp only [State.partialRow, hcl]

theorem State.partialRow_of_outOfRange (hcl : classify s.cfg bytes = .valid r payload) (hr : s.cfg.rows ≤ r.toNat) :
    s.partialRow bytes mask = s := by
  simp [State.partialRow, hcl, inRange, Nat.not_lt.mpr hr]

/-- An in-range row is replaced by its old bytes mixed with the payload. -/
theorem State.partialRow_rowReplaced (hc : s.cfg.wf) (hlen : bytes.length = s.cfg.p)
    (hcl : classify s.cfg bytes = .valid r payload) (hr : r.toNat < s.cfg.rows) :
    RowReplaced s (s.partialRow bytes mask) r.toNat
      (State.mixBytes (Mem.readBytes s.fb (rowBase s.cfg r.toNat) s.cfg.rowBytes) payload mask) := by
  have hpart : s.partialRow bytes mask = s.memWrite (rowBase s.cfg r.toNat)
      (State.mixBytes (Mem.readBytes s.fb (rowBase s.cfg r.toNat) s.cfg.rowBytes) payload mask) := by
    simp [State.partialRow, hcl, inRange, hr, classify_valid_payload_length hc hlen hcl, rowBase]
  rw [hpart]
  exact rowReplaced_memWrite (by rw [State.length_mixBytes, Mem.length_readBytes])

theorem State.mem_partialRow_seenAt {a : Nat} {v : Byte} :
    v ∈ (s.partialRow bytes mask).seenAt a ↔ v ∈ s.seenAt a ∨ v = (s.partialRow bytes mask).fbAt a := by
  rcases State.partialRow_cases bytes mask s with h | ⟨r, payload, -, -, h⟩
  · rw [h, iff_self_or]
    rintro rfl
    exact s.fbAt_mem_seenAt a
  · rw [h]
    exact State.mem_memWrite_seenAt_iff_fbAt

theorem rowPartlyWritten_partialRow (hc : s.cfg.wf) (hlen : bytes.length = s.cfg.p) :
    RowPartlyWritten s (s.partialRow bytes mask) bytes mask where
  discard hcl := by simp [State.partialRow_of_discard mask hcl]
  inside r payload hcl hr i hi := by
    have hpay := classify_valid_payload_length hc hlen hcl
    rw [(State.partialRow_rowReplaced mask hc hlen hcl hr).inside i hi]
    refine (State.getD_mixBytes _ _ _ i ?_ ?_).trans ?_
    · rwa [Mem.length_readBytes]
    · rw [Mem.length_readBytes, hpay]
    · rw [Mem.getD_readBytes _ _ _ _ hi]
      rfl
  outside r payload hcl a ha := by
    rcases Nat.lt_or_ge r.toNat s.cfg.rows with hr | hr
    · exact (State.partialRow_rowReplaced mask hc hlen hcl hr).outside a (ha.resolve_left (Nat.not_le.mpr hr))
    · rw [State.partialRow_of_outOfRange mask hcl hr]
  seen _ _ := State.mem_partialRow_seenAt mask

/-- A row partly written is a change of FB and SEEN alone. -/
theorem State.partialRow_eq :
    s.partialRow bytes mask =
      { s with fb := (s.partialRow bytes mask).fb, stale := (s.partialRow bytes mask).stale } := by
  rcases State.partialRow_cases bytes mask s with h | ⟨r, payload, -, -, h⟩
  · rw [h]
  · rw [h]
    rfl

end PartialRow

/-- A packet that PCFR would accept, cut off by reset: part of its row is written, then `step_reset` (R273). -/
theorem step_resetDuringPkt {s : State} {bytes : List Byte} {mask : List Bool} {rest : List Input} (hc : s.cfg.wf)
    (hf : s.fatal = false) (hq : s.cyc.quiet = true) (hlen : bytes.length = s.cfg.p)
    (hin : s.inputs = .resetDuringPkt bytes mask :: rest) :
    step s = .next (({ s with inputs := rest, hostUp := true } : State).partialRow bytes mask).stepReset := by
  rw [step_input hc hin]
  simp [runInput, State.enterLoop, Input.entersLoop, resetDuringPkt, hf, hq, hlen]

/-- Settles O45: FB and SEEN are those of the row partly written, and the rest is `stepReset`, which depends on
neither. -/
theorem resetDuringPacketWritesPartOfRow : Obligations.ResetDuringPacketWritesPartOfRow := by
  intro s bytes mask rest hc hf hq hlen hin
  have hrow := rowPartlyWritten_partialRow (s := { s with inputs := rest, hostUp := true }) mask hc hlen
  refine ⟨_, step_resetDuringPkt hc hf hq hlen hin, hrow.discard,
    fun r payload hcl => ⟨hrow.inside r payload hcl, hrow.outside r payload hcl⟩, hrow.seen, ?_⟩
  rw [State.partialRow_eq]
  rfl

/-! ### Power-up -/

/-- R274: FB holds FB_INIT. -/
theorem State.powerUp_fbAt {c : Config} {a : Nat} (ha : a < c.fbSize) :
    (State.powerUp c).fbAt a = c.fbInit.getD a 0 := by
  refine (Mem.read_cells 0 _ a).trans ?_
  by_cases hlt : a < c.fbInit.length <;> simp [List.getD, ha, hlt]

/-- R274: every SEEN set is the singleton of its current byte. -/
theorem State.powerUp_seenAt (c : Config) (a : Nat) : (State.powerUp c).seenAt a = [(State.powerUp c).fbAt a] := rfl

/-- Settles O46: the registers are those of `powerUp` as it is written, and FB is read back from its cells. -/
theorem powerUpHoldsInitialContents : Obligations.PowerUpHoldsInitialContents := by
  refine fun c _ => ⟨rfl, rfl, rfl, rfl, rfl, rfl, rfl, rfl, fun a ha => ⟨State.powerUp_fbAt ha, ?_⟩⟩
  rw [State.powerUp_seenAt, State.powerUp_fbAt ha]

end Sys2Proof.Machine
end

section
/-! PROOFS. R102 to R124: the encoder and the decoder are each other's inverse, opcode_table.json's match and mask pairs
are the packet classes, and the pseudo-commands stand for packets of their class. -/

namespace Sys2Proof

/-! ### Decoding and encoding -/

/-- The packet classes share one encoding, the packet's bytes. -/
theorem encode_ofClass (c : Config) (p : Packet) (cls : PktClass) :
    encode c (Instr.ofClass p cls) = .pkt (p.bytes c) := by
  cases cls <;> rfl

theorem decode_encode_ofClass {c : Config} {p : Packet} {cls : PktClass} (hw : (Instr.ofClass p cls).wf c = true) :
    decode c (encode c (Instr.ofClass p cls)) = .ok (Instr.ofClass p cls) := by
  obtain ⟨hl, rfl⟩ := Instr.wf_ofClass_iff.mp hw
  rw [encode_ofClass]
  exact decodePacket_bytes hl

/-- R111, R254: a reader port carries the requests of its reader with an address of FB_ADDR_W bits. -/
theorem decodeRead_eq_ok {c : Config} {agent addr : Nat} {size : Bool} {i : Instr} :
    decodeRead c agent addr size = .ok i ↔
      agent < c.nReaders ∧ addr < 2 ^ c.fbAddrW ∧ i = if size then .rd16 agent addr else .rd8 agent addr := by
  unfold decodeRead
  split
  next h => simp [Nat.not_lt.mpr h]
  next h =>
    split
    next h' => simp [Nat.not_lt.mpr h']
    next h' => simp [Nat.not_le.mp h, Nat.not_le.mp h', eq_comm]

/-- Settles O2: a packet is read back from its bytes in its class, and every other operand stands in its own port
value. -/
theorem decodeOfEncode : Obligations.DecodeOfEncode := by
  intro c i _ hw
  cases i with
  | pktDiscard p => exact decode_encode_ofClass (cls := .discard) hw
  | pktOor p => exact decode_encode_ofClass (cls := .oor) hw
  | pktLast p => exact decode_encode_ofClass (cls := .last) hw
  | pktRow p => exact decode_encode_ofClass (cls := .row) hw
  | flush => rfl
  | rd8 agent addr =>
    obtain ⟨hj, ha⟩ : agent < c.nReaders ∧ addr < 2 ^ c.fbAddrW := by simpa [Instr.wf] using hw
    exact decodeRead_eq_ok.mpr ⟨hj, ha, rfl⟩
  | rd16 agent addr =>
    obtain ⟨hj, ha⟩ : agent < c.nReaders ∧ addr < 2 ^ c.fbAddrW := by simpa [Instr.wf] using hw
    exact decodeRead_eq_ok.mpr ⟨hj, ha, rfl⟩
  | diagrd idx => rfl
  | fatal cause =>
    have hcause : cause ≠ 0#2 := by simpa [Instr.wf] using hw
    exact if_neg hcause

/-- R120: only P bytes are a packet. -/
theorem length_of_decodePacket {c : Config} {bytes : List Byte} {i : Instr} (h : decodePacket c bytes = .ok i) :
    bytes.length = c.p := by
  by_contra hne
  simp [decodePacket, hne] at h

/-- The encoding of what a port value decodes to is that port value: no bit of it is dropped (R124). -/
theorem encode_of_decode {c : Config} {cmd : Command} {i : Instr} (hc : c.wf) (h : decode c cmd = .ok i) :
    encode c i = cmd := by
  cases cmd with
  | pkt bytes =>
    obtain ⟨p, hbytes, -, hdec⟩ := decodePacket_of_length hc (length_of_decodePacket h)
    obtain rfl : Instr.ofClass p (p.cls c) = i := Except.ok.inj (hdec.symm.trans h)
    rw [encode_ofClass, hbytes]
  | flush =>
    cases h
    rfl
  | rd agent addr size =>
    obtain ⟨-, -, rfl⟩ := decodeRead_eq_ok.mp h
    cases size <;> rfl
  | diag idx =>
    cases h
    rfl
  | fatal cause =>
    simp only [decode] at h
    split at h
    · cases h
    · cases h
      rfl

/-- Settles O3: `Machine.decode_wf` and `encode_of_decode`. -/
theorem decodedEncodesBack : Obligations.DecodedEncodesBack :=
  fun _ _ _ hc h => ⟨Machine.decode_wf hc h, encode_of_decode hc h⟩

/-- Settles O1: the decoder computes these. -/
theorem tableWordsDecode : Obligations.TableWordsDecode := by
  unfold Obligations.TableWordsDecode
  decide +kernel

/-! ### The match and mask pairs of opcode_table.json -/

theorem ofBytes_inj {b0 b1 v0 v1 : Byte} : Half.ofBytes b0 b1 = Half.ofBytes v0 v1 ↔ b0 = v0 ∧ b1 = v1 := by
  refine ⟨fun h => ⟨?_, ?_⟩, fun ⟨h0, h1⟩ => by rw [h0, h1]⟩
  · simpa only [BitVec.extractLsb'_append_eq_left] using congrArg (BitVec.extractLsb' 8 8) h
  · simpa only [BitVec.extractLsb'_append_eq_right] using congrArg (BitVec.extractLsb' 0 8) h

/-- A match on the header word is a match on each of its two bytes. -/
theorem ofBytes_and_eq_iff {b0 b1 m0 m1 v0 v1 : Byte} :
    Half.ofBytes b0 b1 &&& Half.ofBytes m0 m1 = Half.ofBytes v0 v1 ↔ b0 &&& m0 = v0 ∧ b1 &&& m1 = v1 := by
  rw [BitVec.and_append, ofBytes_inj]

theorem discardRow_high_hits (b0 b1 : Byte) :
    Half.ofBytes b0 b1 &&& 0xF000#16 = 0xF000#16 ↔ (b0.extractLsb' 4 4).toNat = 15 := by
  refine (ofBytes_and_eq_iff (m0 := 0xF0#8) (m1 := 0#8) (v0 := 0xF0#8) (v1 := 0#8)).trans ?_
  rw [and_iff_left (BitVec.and_zero ..)]
  revert b0
  decide

theorem discardRow_low_hits (b0 b1 : Byte) :
    Half.ofBytes b0 b1 &&& 0x0F00#16 = 0x0F00#16 ↔ (b0.extractLsb' 0 4).toNat = 15 := by
  refine (ofBytes_and_eq_iff (m0 := 0x0F#8) (m1 := 0#8) (v0 := 0x0F#8) (v1 := 0#8)).trans ?_
  rw [and_iff_left (BitVec.and_zero ..)]
  revert b0
  decide

theorem lastRow_hits (b0 b1 : Byte) : Half.ofBytes b0 b1 &&& 0x00FF#16 = 0x003B#16 ↔ b1.toNat + 1 = 60 := by
  refine (ofBytes_and_eq_iff (m0 := 0#8) (m1 := 0xFF#8) (v0 := 0#8) (v1 := 0x3B#8)).trans ?_
  rw [and_iff_right (BitVec.and_zero ..)]
  revert b1
  decide

/-- Each row of the table is PKT.DISCARD's, which tests the status field, or PKT.LAST's, which tests the row index. -/
theorem tableRow_cases {c : Config} {t : TableRow} (ht : t ∈ tableRows c.nibblePos) (bytes : List Byte) :
    t.cls = .discard ∧ (t.hits (headerWord bytes) = true ↔ (statusField c (pktByte bytes 0)).toNat = 15) ∨
      t.cls = .last ∧ (t.hits (headerWord bytes) = true ↔ (pktByte bytes 1).toNat + 1 = 60) := by
  cases hpos : c.nibblePos with
  | high =>
    simp only [hpos, tableRows, List.mem_cons, List.not_mem_nil, or_false] at ht
    rcases ht with rfl | rfl
    · exact .inl ⟨rfl, by simpa [TableRow.hits, headerWord, statusField, hpos] using discardRow_high_hits _ _⟩
    · exact .inr ⟨rfl, by simpa [TableRow.hits, headerWord] using lastRow_hits _ _⟩
  | low =>
    simp only [hpos, tableRows, List.mem_cons, List.not_mem_nil, or_false] at ht
    rcases ht with rfl | rfl
    · exact .inl ⟨rfl, by simpa [TableRow.hits, headerWord, statusField, hpos] using discardRow_low_hits _ _⟩
    · exact .inr ⟨rfl, by simpa [TableRow.hits, headerWord] using lastRow_hits _ _⟩

/-- Settles O6: the masks test the status field and the row index, which decide the class (R107). -/
theorem tableMasksMatchClasses : Obligations.TableMasksMatchClasses := by
  intro c bytes t hc hrows hdv hlen ht
  obtain ⟨hdiscard, -, hlast, -⟩ := packetClassesByCondition c bytes hc hlen
  rw [hdv] at hdiscard hlast
  rw [hrows] at hlast
  rcases tableRow_cases ht bytes with ⟨hcls, hhits⟩ | ⟨hcls, hhits⟩
  · exact ⟨fun _ => hhits.trans hdiscard.symm, fun h => by simp [hcls] at h⟩
  · refine ⟨fun h => by simp [hcls] at h, fun _ hnot => hhits.trans ?_⟩
    rw [hlast, and_iff_right (fun h => hnot (hdiscard.mpr h))]

/-! ### Pseudo-commands -/

open Machine

/-- R122: a payload specifier stands for ROW_BYTES bytes. -/
theorem PayloadSpec.length_expand {c : Config} (hc : c.wf) {pl : PayloadSpec}
    (h : ∀ vs, pl = .bytes vs → vs.length = c.rowBytes) : (pl.expand c).length = c.rowBytes := by
  cases pl with
  | bytes vs => exact h vs rfl
  | zero => simp [PayloadSpec.expand, hc.rowBytes_eq]
  | fill hhll => simp [PayloadSpec.expand, hc.rowBytes_eq, Nat.mul_comm]
  | ramp n => simp [PayloadSpec.expand, hc.rowBytes_eq, Nat.mul_comm]

/-- R123: the packet of a pseudo-command has P bytes. -/
theorem plainPacket_length {c : Config} (hc : c.wf) (b0 b1 : Byte) {pl : PayloadSpec}
    (h : (pl.expand c).length = c.rowBytes) : (plainPacket c b0 b1 pl).length = c.p := by
  obtain ⟨hp, hhdr, -⟩ := hc
  simp only [plainPacket, List.length_cons, List.length_append, List.length_replicate, h, hp, Config.rowBytes]
  omega

/-- The same nibble twice is the status field under both readings of NIBBLE_POS. -/
theorem statusField_append_self (c : Config) (x : Nibble) : statusField c (x ++ x) = x := by
  cases hpos : c.nibblePos with
  | high => simp only [statusField, hpos, BitVec.extractLsb'_append_eq_left]
  | low => simp only [statusField, hpos, BitVec.extractLsb'_append_eq_right]

/-- Settles O9: the status field is the discard value, or 0, at both nibble positions, and the class follows from it and
the row index (R107). -/
theorem pseudoPacketsHaveTheirClass : Obligations.PseudoPacketsHaveTheirClass := by
  intro c hc
  have hlen : (discardPacket c).length = c.p :=
    plainPacket_length hc _ _ (PayloadSpec.length_expand hc fun vs h => by cases h)
  refine ⟨hlen, ?_, fun hdv r pl hpl => ?_⟩
  · have hle : c.discardValue ≤ 15 := hc.2.2.2.2.2
    have hstatus : statusField c (pktByte (discardPacket c) 0) = BitVec.ofNat 4 c.discardValue :=
      statusField_append_self c _
    rw [(packetClassesByCondition c _ hc hlen).1, hstatus, BitVec.toNat_ofNat]
    omega
  · have hlen : (rowPacket c r pl).length = c.p := plainPacket_length hc _ _ (PayloadSpec.length_expand hc hpl)
    have hstatus : statusField c (pktByte (rowPacket c r pl) 0) = 0#4 := statusField_append_self c 0#4
    have hrow : pktByte (rowPacket c r pl) 1 = r := rfl
    have hvalid : (0#4).toNat ≠ c.discardValue := Ne.symm hdv
    obtain ⟨-, hoor, hlast, hrowc⟩ := packetClassesByCondition c _ hc hlen
    rw [hstatus, hrow, and_iff_right hvalid] at hoor hlast hrowc
    exact ⟨hlen, hoor, hlast, hrowc⟩

end Sys2Proof
end

section
/-! PROOFS. What every step keeps: the configuration, the events in HIST, the mark REFUSED and the state invariant. Most
of it is kept by every move a step is made of; the clause about the step in progress is followed input by input. -/

namespace Sys2Proof.Machine

/-! ### What an instruction leaves alone -/

section AfterPacket

variable (p : Packet) (cls : PktClass) (s : State)

@[simp] theorem State.afterPacket_cause : (s.afterPacket p cls).cause = s.cause := by
  cases cls <;> simp [State.afterPacket]

@[simp] theorem State.afterPacket_refused : (s.afterPacket p cls).refused = s.refused := by
  cases cls <;> simp [State.afterPacket]

@[simp] theorem State.afterPacket_diagIdx : (s.afterPacket p cls).diagIdx = s.diagIdx := by
  cases cls <;> simp [State.afterPacket]

/-- R36: the one event of a packet step is its response. -/
theorem State.afterPacket_hist : (s.afterPacket p cls).hist = s.hist ++ [.resp (s.afterPacket p cls).rsp] := by
  cases cls <;> simp [State.afterPacket]

end AfterPacket

/-- What an instruction does, with the packet steps taken together. -/
theorem exec_next_cases {i : Instr} {s t : State} (h : exec i s = .next t) :
    t = s.refuse ∨
    (∃ p cls, i = Instr.ofClass p cls ∧ s.fatal = false ∧ p.lengthOk s.cfg = true ∧ p.cls s.cfg = cls ∧
      t = s.afterPacket p cls) ∨
    (i = .flush ∧ s.fatal = false ∧ t = s.clearSeen.emit .flushDone) ∨
    (∃ cause, i = .fatal cause ∧ cause ≠ 0#2 ∧ t = s.raiseFatal cause) ∨
    ((∃ j a, i = .rd8 j a ∨ i = .rd16 j a) ∨ ∃ k, i = .diagrd k) ∧ SameButReads s t := by
  rcases exec_cases h with ⟨-, ht⟩ | ⟨hf, p, hi, hl, hcls, ht⟩ | ⟨hf, p, hi, hl, hcls, ht⟩ | ⟨hf, p, hi, hl, hcls, ht⟩ |
    ⟨hf, p, hi, hl, hcls, ht⟩ | ⟨hf, hi, ht⟩ | hfatal | hread
  · exact .inl ht
  · exact .inr (.inl ⟨p, .discard, hi, hf, hl, hcls, ht⟩)
  · exact .inr (.inl ⟨p, .oor, hi, hf, hl, hcls, ht⟩)
  · exact .inr (.inl ⟨p, .last, hi, hf, hl, hcls, ht⟩)
  · exact .inr (.inl ⟨p, .row, hi, hf, hl, hcls, ht⟩)
  · exact .inr (.inr (.inl ⟨hi, hf, ht⟩))
  · exact .inr (.inr (.inr (.inl hfatal)))
  · exact .inr (.inr (.inr (.inr hread)))

/-- No instruction touches the cycle-level registers. -/
theorem exec_cyc {i : Instr} {s t : State} (h : exec i s = .next t) : t.cyc = s.cyc := by
  rcases exec_next_cases h with rfl | ⟨p, cls, -, -, -, -, rfl⟩ | ⟨-, -, rfl⟩ | ⟨c, -, -, rfl⟩ | ⟨hi, -⟩
  · rfl
  · simp
  · rfl
  · simp
  · exact (exec_read_frame hi h).2

theorem runCommand_cyc {c : Command} {s t : State} (h : runCommand c s = .next t) : t.cyc = s.cyc := by
  rcases runCommand_eq_next.mp h with ⟨i, -, hi⟩ | ⟨-, rfl⟩
  · exact exec_cyc hi
  · rfl

/-- What every strobe taken keeps, a sequence of them keeps. -/
theorem takeFatals_keeps {P : State → Prop} (hcmd : ∀ {c u v}, runCommand (.fatal c) u = .next v → P u → P v)
    {cs : List (BitVec 2)} {s t : State} (h : takeFatals cs s = .next t) (hs : P s) : P t := by
  induction cs generalizing s with
  | nil =>
    cases h
    exact hs
  | cons c cs ih =>
    obtain ⟨m, hm, ht⟩ := andThen_eq_next.mp h
    exact ih ht (hcmd hm hs)

theorem takeFatals_cyc {cs : List (BitVec 2)} {s t : State} (h : takeFatals cs s = .next t) : t.cyc = s.cyc :=
  takeFatals_keeps (P := fun u => u.cyc = s.cyc) (fun hm hu => (runCommand_cyc hm).trans hu) h rfl

/-! ### HIST and REFUSED -/

/-- R37: no move takes an event out of HIST. -/
theorem Move.hist {L : List Byte → Prop} {s t : State} (h : Move L s t) : ∃ es, t.hist = s.hist ++ es := by
  cases h with
  | exec hw h =>
    rcases exec_next_cases h with rfl | ⟨p, cls, -, -, -, -, rfl⟩ | ⟨-, -, rfl⟩ | ⟨c, -, -, rfl⟩ | ⟨-, hr⟩
    · exact ⟨[], by simp⟩
    · exact ⟨_, State.afterPacket_hist ..⟩
    · exact ⟨_, rfl⟩
    · exact ⟨_, State.raiseFatal_hist ..⟩
    · obtain ⟨es, hes, -⟩ := hr.hist
      exact ⟨es, hes⟩
  | reset => exact ⟨_, rfl⟩
  | _ => exact ⟨[], by simp⟩

theorem Moves.hist {L : List Byte → Prop} {s t : State} (h : Moves L s t) : ∃ es, t.hist = s.hist ++ es := by
  induction h with
  | refl => exact ⟨[], by simp⟩
  | tail _ hm ih =>
    obtain ⟨es, hes⟩ := ih
    obtain ⟨fs, hfs⟩ := hm.hist
    exact ⟨es ++ fs, by rw [hfs, hes, List.append_assoc]⟩

/-- Settles O50: both are so for every move. -/
theorem configurationAndHistoryPersist : Obligations.ConfigurationAndHistoryPersist := by
  intro s t h
  have hm : Moves (fun _ => True) s t := step_moves (fun _ _ => trivial) (fun _ _ => trivial) h
  exact ⟨hm.cfg, hm.hist⟩

/-- R49: no move clears REFUSED. -/
theorem Move.refused {L : List Byte → Prop} {s t : State} (h : Move L s t) (hs : s.refused = true) :
    t.refused = true := by
  cases h with
  | exec hw h =>
    rcases exec_next_cases h with rfl | ⟨p, cls, -, -, -, -, rfl⟩ | ⟨-, -, rfl⟩ | ⟨c, -, -, rfl⟩ | ⟨-, hr⟩
    · rfl
    · simpa using hs
    · exact hs
    · simpa using hs
    · exact hr.refused.trans hs
  | refuse => rfl
  | _ => simpa using hs

/-- R120: a packet of another length is refused. -/
theorem runCommand_pkt_of_length_ne {bytes : List Byte} {s : State} (h : bytes.length ≠ s.cfg.p) :
    runCommand (.pkt bytes) s = .next s.refuse := by
  simp [runCommand, decode, decodePacket, h]

/-- Settles O41: the two refused commands are computed, and no move clears the mark. -/
theorem refusalsOnlyMark : Obligations.RefusalsOnlyMark := by
  refine fun s => ⟨fun hc => ⟨_, if_neg hc, rfl⟩, fun bytes => runCommand_pkt_of_length_ne, rfl, fun t h => ?_⟩
  exact step_keeps (P := fun u => u.refused = true) Move.refused h

/-! ### The invariant, but for the step in progress -/

/-- The clauses of `State.Inv` that every move keeps: all but the one about the step in progress. -/
structure State.CoreInv (s : State) : Prop where
  config : s.cfg.wf
  memory : Mem.wf s.cfg.fbSize s.fb
  visible : Stale.wf s.cfg.fbSize s.fb s.stale
  fatalCause : s.fatal = false ↔ s.cause = 0#2
  rowsSeen : s.diag.rowsSeen.length = s.cfg.rows
  noDiag : s.cfg.hasDiag = false → s.diag = Diag.zero s.cfg.rows
  counters : s.diag.pktCnt = s.diag.discardCnt + s.diag.oorCnt + s.diag.rowWrCnt
  readers : s.rdOut.length = s.cfg.nReaders

theorem State.Inv.core {s : State} (h : s.Inv) : s.CoreInv :=
  ⟨h.config, h.memory, h.visible, h.fatalCause, h.rowsSeen, h.noDiag, h.counters, h.readers⟩

namespace State.CoreInv

variable {s : State}

theorem inv (h : s.CoreInv) (hcyc : s.cycleOk) : s.Inv :=
  ⟨h.config, h.memory, h.visible, h.fatalCause, h.rowsSeen, h.noDiag, h.counters, h.readers, hcyc⟩

variable (h : s.CoreInv)
include h

theorem memWrite {r : Nat} {bs : List Byte} (hr : r < s.cfg.rows) (hl : bs.length = s.cfg.rowBytes) :
    (s.memWrite (rowBase s.cfg r) bs).CoreInv :=
  ⟨h.config, Mem.wf_write h.memory (Config.row_inside hr hl), Stale.wf_write h.visible (Config.row_inside hr hl),
    h.fatalCause, h.rowsSeen, h.noDiag, h.counters, h.readers⟩

theorem countPacket (r : Nat) (cls : PktClass) : (s.count (Diag.countPacket r s.cfg.rows cls)).CoreInv := by
  rw [State.count_eq]
  cases hd : s.cfg.hasDiag with
  | false => simpa using h
  | true =>
    exact ⟨h.config, h.memory, h.visible, h.fatalCause, Diag.countPacket_rowsSeen_length cls h.rowsSeen,
      fun hn => absurd (hd.symm.trans hn) (by decide), Diag.countPacket_sum cls h.counters, h.readers⟩

theorem emit (e : Event) : (s.emit e).CoreInv :=
  ⟨h.config, h.memory, h.visible, h.fatalCause, h.rowsSeen, h.noDiag, h.counters, h.readers⟩

theorem refuse : s.refuse.CoreInv :=
  ⟨h.config, h.memory, h.visible, h.fatalCause, h.rowsSeen, h.noDiag, h.counters, h.readers⟩

theorem respond (r : Resp) : (s.respond r).CoreInv :=
  ⟨h.config, h.memory, h.visible, h.fatalCause, h.rowsSeen, h.noDiag, h.counters, h.readers⟩

theorem afterPacket {p : Packet} {cls : PktClass} (hl : p.lengthOk s.cfg = true) (hcls : p.cls s.cfg = cls) :
    (s.afterPacket p cls).CoreInv := by
  have hpay := Packet.payload_length h.config hl
  cases cls with
  | discard => exact (h.countPacket p.row.toNat .discard).respond _
  | oor => exact (h.countPacket p.row.toNat .oor).respond _
  | last =>
    have hr := (Packet.cls_writes_iff.mp (.inr hcls)).2
    exact ((h.memWrite hr hpay).countPacket p.row.toNat .last).respond _
  | row =>
    have hr := (Packet.cls_writes_iff.mp (.inl hcls)).2
    have hc := (h.countPacket p.row.toNat .row).memWrite (r := p.row.toNat) (by simpa using hr) (by simpa using hpay)
    rw [State.count_cfg] at hc
    exact hc.respond _

theorem clearSeen : s.clearSeen.CoreInv :=
  ⟨h.config, h.memory, Stale.wf_nil .., h.fatalCause, h.rowsSeen, h.noDiag, h.counters, h.readers⟩

/-- R35: the cause that is kept is not 0. -/
theorem raiseFatal {cause : BitVec 2} (hcause : cause ≠ 0#2) : (s.raiseFatal cause).CoreInv where
  config := by simpa using h.config
  memory := by simpa using h.memory
  visible := by simpa using h.visible
  fatalCause := by
    cases hf : s.fatal with
    | false => simpa [hf] using hcause
    | true => simpa [hf] using h.fatalCause
  rowsSeen := by simpa using h.rowsSeen
  noDiag := by simpa using h.noDiag
  counters := by simpa using h.counters
  readers := by simpa using h.readers

theorem stepReset : s.stepReset.CoreInv where
  config := h.config
  memory := h.memory
  visible := h.visible
  fatalCause := by simp
  rowsSeen := by
    cases hd : s.cfg.hasDiag with
    | false => simpa [hd] using h.rowsSeen
    | true => simp [hd, Diag.zero]
  noDiag hd := by
    change (if s.cfg.hasDiag then Diag.zero s.cfg.rows else s.diag) = Diag.zero s.cfg.rows
    rw [h.noDiag hd, ite_self]
  counters := by
    cases hd : s.cfg.hasDiag with
    | false => simpa [hd] using h.counters
    | true => simp [hd, Diag.zero]
  readers := h.readers

theorem sameButReads {t : State} (hr : SameButReads s t) : t.CoreInv where
  config := by simpa [hr.cfg] using h.config
  memory := by simpa [hr.cfg, hr.fb] using h.memory
  visible := by simpa [hr.cfg, hr.fb, hr.stale] using h.visible
  fatalCause := by simpa [hr.fatal, hr.cause] using h.fatalCause
  rowsSeen := by simpa [hr.diag, hr.cfg] using h.rowsSeen
  noDiag := by simpa [hr.cfg, hr.diag] using h.noDiag
  counters := by simpa [hr.diag] using h.counters
  readers := by simpa [hr.rdOut, hr.cfg] using h.readers

theorem partialRow {bytes : List Byte} (hlen : bytes.length = s.cfg.p) (mask : List Bool) :
    (s.partialRow bytes mask).CoreInv := by
  rcases State.partialRow_cases bytes mask s with he | ⟨r, payload, hcl, hr, he⟩
  · rwa [he]
  · rw [he]
    refine h.memWrite (r := r.toNat) (by simpa [inRange] using hr) ?_
    rw [State.length_mixBytes, Mem.length_readBytes, classify_valid_payload_length h.config hlen hcl]

end State.CoreInv

/-- The moves of a step keep the invariant but for the step in progress. -/
theorem Move.coreInv {c : Config} {s t : State} (hm : Move (fun b => b.length = c.p) s t) (hs : s.cfg = c ∧ s.CoreInv) :
    t.cfg = c ∧ t.CoreInv := by
  obtain ⟨rfl, h⟩ := hs
  refine ⟨hm.cfg, ?_⟩
  cases hm with
  | exec hw hx =>
    rcases exec_next_cases hx with rfl | ⟨p, cls, -, -, hl, hcls, rfl⟩ | ⟨-, -, rfl⟩ | ⟨c, -, hc, rfl⟩ | ⟨-, hr⟩
    · exact h.refuse
    · exact h.afterPacket hl hcls
    · exact h.clearSeen.emit _
    · exact h.raiseFatal hc
    · exact h.sameButReads hr
  | reset => exact h.stepReset
  | partialRow hl mask => exact h.partialRow hl mask
  | _ => exact ⟨h.config, h.memory, h.visible, h.fatalCause, h.rowsSeen, h.noDiag, h.counters, h.readers⟩

/-! ### The step in progress -/

theorem Cycle.phase_of_quiet {y : Cycle} (h : y.quiet = true) : y.phase = .idle := by
  simp only [Cycle.quiet, Bool.and_eq_true, beq_iff_eq] at h
  obtain ⟨⟨hp, -⟩, -⟩ := h
  exact hp

theorem State.cycleOk_of_idle {s : State} (h : s.cyc.phase = .idle) : s.cycleOk := by
  simp [State.cycleOk, h]

theorem State.cycleOk_of_no_packet {s : State} (hf : s.fatal = false) (h : ∀ b, s.cyc.phase ≠ .packet b) :
    s.cycleOk := by
  unfold State.cycleOk
  split
  next => trivial
  next b hp => exact absurd hp (h b)
  next => exact hf

theorem State.cycleOk_of_eq {s t : State} (h : s.cycleOk) (hc : t.cfg = s.cfg) (hf : t.fatal = s.fatal)
    (hp : t.cyc.phase = s.cyc.phase) : t.cycleOk := by
  unfold State.cycleOk
  rw [hp, hc, hf]
  exact h

/-- What a packet command does, whatever the configuration: a refusal, or the step of a packet with FATAL = 0. -/
theorem runCommand_pkt_cases {bytes : List Byte} {s t : State} (h : runCommand (.pkt bytes) s = .next t) :
    t = s.refuse ∨ s.fatal = false ∧ ∃ p cls, t = s.afterPacket p cls := by
  rcases runCommand_eq_next.mp h with ⟨i, hdec, hi⟩ | ⟨-, ht⟩
  · obtain ⟨q, cls, rfl⟩ : ∃ q cls, i = Instr.ofClass q cls := by
      simp only [decode, decodePacket] at hdec
      split at hdec
      · split at hdec
        · cases hdec
          exact ⟨_, _, rfl⟩
        · cases hdec
      · cases hdec
    rcases exec_packet_cases hi with ⟨-, ht⟩ | ⟨p, cls, -, hf, -, -, ht⟩ | ⟨hn, -⟩
    · exact .inl ht
    · exact .inr ⟨hf, p, cls, ht⟩
    · exact absurd rfl (hn q cls)
  · exact .inl ht

theorem runCommand_pkt_fatal {bytes : List Byte} {s t : State} (h : runCommand (.pkt bytes) s = .next t) :
    t.fatal = s.fatal := by
  rcases runCommand_pkt_cases h with rfl | ⟨-, p, cls, rfl⟩
  · rfl
  · simp

/-- A command of the host's ports finds no step in progress and begins none; the other commands leave it as it is. -/
theorem present_cycleOk {c : Command} {s t : State} (hs : s.cycleOk) (h : present c s = .next t) : t.cycleOk := by
  obtain ⟨hq, hrun⟩ := present_eq_next.mp h
  have hwait (hw : waitsForIdle c = true) : t.cycleOk := by
    have hquiet : s.cyc.quiet = true := by simpa [hw] using hq
    exact State.cycleOk_of_idle (by rw [runCommand_cyc hrun, Cycle.phase_of_quiet hquiet])
  have hread (hr : SameButReads s t) : t.cycleOk := State.cycleOk_of_eq hs hr.cfg hr.fatal hr.phase
  cases c with
  | pkt bytes => exact hwait rfl
  | flush => exact hwait rfl
  | fatal cause => exact hwait rfl
  | rd agent addr size => exact hread (runCommand_rd hrun)
  | diag idx => exact hread (runCommand_diag hrun)

theorem hostMove_cycleOk {x : Transfer} {s t : State} (hs : s.cycleOk) (h : hostMove x s = .next t) : t.cycleOk := by
  have presented {c : Command} {f : State → HostCtl}
      (h : andThen (present c s) (fun u => .next { u with host := f u }) = .next t) : t.cycleOk := by
    obtain ⟨u, hu, ht⟩ := andThen_eq_next.mp h
    cases ht
    have huok : u.cycleOk := present_cycleOk hs hu
    exact huok
  unfold hostMove at h
  split at h
  · split at h
    · cases h
      exact hs
    · exact presented h
  · exact presented (f := fun _ => .aborted) h
  · exact presented (f := fun _ => .awaitingRows) h
  · cases h
    exact hs

theorem hostPorts_of_idle {e : Edge} {s : State} (hp : s.cyc.phase = .idle) : hostPorts e s = idleEdge e s := by
  simp only [hostPorts, hp]

theorem hostPorts_of_packet {e : Edge} {s : State} {bytes : List Byte} (hp : s.cyc.phase = .packet bytes) :
    hostPorts e s = packetEdge bytes e s := by
  simp only [hostPorts, hp]

theorem hostPorts_of_flush {e : Edge} {s : State} (hp : s.cyc.phase = .flush) : hostPorts e s = flushEdge e s := by
  simp only [hostPorts, hp]

/-- A step in progress is begun with FATAL = 0, and a packet with P bytes (R115, R117). -/
theorem hostPorts_cycleOk {e : Edge} {s t : State} (hs : s.cycleOk) (h : hostPorts e s = .next t) : t.cycleOk := by
  cases hp : s.cyc.phase with
  | idle =>
    rw [hostPorts_of_idle hp] at h
    rcases idleEdge_eq_next h with ⟨-, h⟩ | ⟨-, ⟨-, rfl⟩ | ⟨hf, ⟨-, rfl⟩ | ⟨-, ⟨b, -, hlen, rfl⟩ | ⟨b, -, -, rfl⟩ |
      ⟨-, -, rfl⟩ | ⟨-, -, rfl⟩⟩⟩⟩
    · exact State.cycleOk_of_idle (by rw [takeFatals_cyc h]; exact hp)
    · exact hs
    · exact hf
    · exact ⟨hlen, hf⟩
    · exact hs
    · exact hf
    · exact hs
  | packet bytes =>
    rw [hostPorts_of_packet hp] at h
    have hf : s.fatal = false := by
      simp only [State.cycleOk, hp] at hs
      exact hs.2
    rcases packetEdge_eq_next h with ⟨-, rfl⟩ | ⟨-, u, hu, rfl⟩
    · exact hs
    · have huf : u.fatal = false := (runCommand_pkt_fatal hu).trans hf
      have hup : u.cyc.phase = .idle := by rw [runCommand_cyc hu]; rfl
      refine State.cycleOk_of_no_packet huf fun b => ?_
      simp only [State.onCyc_cyc, hup]
      split <;> simp
  | flush =>
    rw [hostPorts_of_flush hp] at h
    rcases flushEdge_eq_next h with ⟨-, rfl⟩ | ⟨-, u, hu, rfl⟩
    · exact hs
    · exact State.cycleOk_of_idle (by simp [runCommand_cyc hu])

theorem resetEdge_cyc (e : Edge) (s : State) : (resetEdge e s).cyc = .reset := by
  rcases resetEdge_cases e s with ⟨-, h⟩ | ⟨bytes, -, h⟩ <;> rw [h] <;> rfl

@[simp] theorem rowProgress_cfg (e : Edge) (s : State) : (rowProgress e s).cfg = s.cfg := by
  rcases rowProgress_cases e s with h | ⟨b, m, -, h⟩ <;> simp [h]

@[simp] theorem rowProgress_cyc (e : Edge) (s : State) : (rowProgress e s).cyc = s.cyc := by
  rcases rowProgress_cases e s with h | ⟨b, m, -, h⟩ <;> simp [h]

theorem clockEdge_cycleOk {e : Edge} {s t : State} (hs : s.cycleOk) (h : clockEdge e s = .next t) : t.cycleOk := by
  rcases clockEdge_eq_next h with ⟨-, rfl⟩ | ⟨-, m, n, hm, hn, ht⟩
  · exact State.cycleOk_of_idle (by rw [resetEdge_cyc]; rfl)
  · have hmok : (rowProgress e m).cycleOk :=
      State.cycleOk_of_eq (State.cycleOk_of_eq hs hm.cfg hm.fatal hm.phase) (by simp) (by simp) (by simp)
    exact hostPorts_cycleOk (State.cycleOk_of_eq hmok hn.cfg hn.fatal hn.phase) ht

theorem runInput_cycleOk {i : Input} {s t : State} (hs : s.cycleOk) (h : runInput i s = .next t) : t.cycleOk := by
  cases i with
  | cmd c => exact present_cycleOk hs h
  | reset =>
    cases h
    exact State.cycleOk_of_idle rfl
  | resetDuringPkt bytes mask =>
    rcases resetDuringPkt_eq_next h with ⟨-, ⟨-, rfl⟩ | ⟨-, -, rfl⟩⟩
    · exact hs
    · exact State.cycleOk_of_idle rfl
  | host x => exact hostMove_cycleOk hs h
  | hostSetup f =>
    obtain ⟨-, u, hu, rfl⟩ := hostSetupFailure_eq_next.mp h
    have huok : u.cycleOk := present_cycleOk hs hu
    exact huok
  | pause =>
    cases h
    exact hs
  | together x =>
    cases h
    exact hs
  | clk e => exact clockEdge_cycleOk hs h

theorem step_cycleOk {s t : State} (hs : s.cycleOk) (h : step s = .next t) : t.cycleOk := by
  unfold step advance at h
  split at h
  next =>
    split at h
    next =>
      cases h
      exact hs
    next i rest _ =>
      have hu : (State.enterLoop i { s with inputs := rest }).cycleOk := hs
      exact runInput_cycleOk hu h
  next =>
    cases h
    exact hs

/-- A packet in progress has P bytes. -/
theorem State.Inv.length_of_packet {s : State} (hs : s.Inv) {bytes : List Byte} (hp : s.cyc.phase = .packet bytes) :
    bytes.length = s.cfg.p := by
  have h := hs.cycle
  simp only [State.cycleOk, hp] at h
  exact h.1

/-- Settles O49: every move keeps the rest, and the step in progress is followed input by input. -/
theorem everyStepKeepsInvariant : Obligations.EveryStepKeepsInvariant := by
  intro s t hs h
  have hcore := step_keeps_of_sized (P := fun u => u.cfg = s.cfg ∧ u.CoreInv) Move.coreInv
    (fun b hb => hs.length_of_packet hb) h ⟨rfl, hs.core⟩
  exact hcore.2.inv (step_cycleOk hs.cycle h)

/-- Settles O47: at power-up FB is the cells of FB_INIT inside FB_SIZE and everything else is at its reset value; a reset
keeps the invariant. -/
theorem resetStateMeetsInvariant : Obligations.ResetStateMeetsInvariant := by
  have hpower : ∀ c : Config, c.wf → (State.powerUp c).CoreInv := fun c hc =>
    ⟨hc, Mem.wf_cells (by simp [State.powerUp]), Stale.wf_nil .., by simp [State.powerUp],
      by simp [State.powerUp, Diag.zero], fun _ => rfl, rfl, by simp [State.powerUp]⟩
  have hreset : State.reset = (State.powerUp .reference).stepReset := rfl
  refine ⟨fun c hc => (hpower c hc).inv (State.cycleOk_of_idle rfl), ?_, ⟨rfl, rfl⟩, hreset⟩
  rw [hreset]
  exact (hpower .reference (by decide)).stepReset.inv (State.cycleOk_of_idle rfl)

end Sys2Proof.Machine
end

section
/-! PROOFS. R40, R41, R174 and R175: the counters and ROWS_SEEN are what HIST says they count. Only a packet step records a
response and only it counts, so every move keeps this. -/

namespace Sys2Proof.Machine

/-! ### The events since the last stop -/

theorem eventsSince_append {stop : Event → Bool} (h : List Event) {es : List Event} (hes : ∀ e ∈ es, stop e = false) :
    eventsSince stop (h ++ es) = eventsSince stop h ++ es := by
  rw [eventsSince, List.reverse_append, List.takeWhile_append_of_pos (by simpa using hes), List.reverse_append,
    List.reverse_reverse]
  rfl

theorem eventsSince_append_stop {stop : Event → Bool} (h : List Event) {e : Event} (he : stop e = true) :
    eventsSince stop (h ++ [e]) = [] := by
  simp [eventsSince, he]

section Records

variable {s t : State}

/-- A response is counted where it satisfies the predicate. -/
theorem State.respCount_of_resp {r : Resp} (h : t.hist = s.hist ++ [.resp r]) (f : Resp → Bool) :
    t.respCount f = s.respCount f + if f r then 1 else 0 := by
  rw [State.respCount, h, eventsSince_append _ (by simp [Event.isReset]), List.countP_append, List.countP_singleton]
  rfl

/-- A response marks its row where it wrote one, unless it ends the frame. -/
theorem State.rowWritten_of_resp {r : Resp} (h : t.hist = s.hist ++ [.resp r]) (k : Nat) :
    t.rowWritten k = (!r.done && (s.rowWritten k || r.wrote && r.row.toNat == k)) := by
  unfold State.rowWritten
  rw [h]
  cases hd : r.done with
  | true => rw [eventsSince_append_stop _ (show Event.endsFrame (.resp r) = true from hd)]; rfl
  | false => rw [eventsSince_append _ (by simpa [Event.endsFrame] using hd)]; simp [Event.isResp]

/-- Events that are no reset, no end of a frame and no response count nothing. -/
theorem State.CountersMatch.of_uncounted {es : List Event} (h : s.CountersMatch) (hd : t.diag = s.diag)
    (hc : t.cfg = s.cfg) (hh : t.hist = s.hist ++ es)
    (hes : ∀ e ∈ es, e.isReset = false ∧ e.endsFrame = false ∧ ∀ f, e.isResp f = false) : t.CountersMatch := by
  have hcount : ∀ f, t.respCount f = s.respCount f := by
    intro f
    have hzero : es.countP (Event.isResp f) = 0 := List.countP_eq_zero.mpr fun e he => by simp [(hes e he).2.2 f]
    rw [State.respCount, hh, eventsSince_append _ fun e he => (hes e he).1, List.countP_append, hzero]
    rfl
  have hrow : ∀ r, t.rowWritten r = s.rowWritten r := by
    intro r
    have hnone : (es.any (Event.isResp fun x => x.wrote && x.row.toNat == r)) = false :=
      List.any_eq_false.mpr fun e he => by simp [(hes e he).2.2]
    rw [State.rowWritten, hh, eventsSince_append _ fun e he => (hes e he).2.1, List.any_append, hnone, Bool.or_false]
    rfl
  obtain ⟨h1, h2, h3, h4, h5, h6, h7⟩ := h
  constructor <;> simp only [hd, hc, hcount, hrow] <;> assumption

/-- After a reset nothing is counted (R50). -/
theorem State.countersMatch_of_reset (hd : t.diag = Diag.zero t.cfg.rows)
    (hcount : ∀ stop, (∀ e, Event.isReset e = true → stop e = true) → eventsSince stop t.hist = []) :
    t.CountersMatch := by
  have hnone : ∀ f, t.respCount f = 0 := fun f => by rw [State.respCount, hcount _ fun _ => id]; rfl
  have hend : ∀ e, Event.isReset e = true → Event.endsFrame e = true := fun e => by
    cases e <;> simp [Event.isReset, Event.endsFrame]
  have hrow : ∀ r, t.rowWritten r = false := fun r => by rw [State.rowWritten, hcount _ hend]; rfl
  constructor
  case rows => exact fun r hr => by simp [hd, hrow, Diag.zero, hr]
  all_goals simp [hd, hnone, Diag.zero]

end Records

theorem State.stepReset_countersMatch {s : State} (hd : s.cfg.hasDiag = true) : s.stepReset.CountersMatch :=
  State.countersMatch_of_reset (by simp [hd]) fun _ hstop => eventsSince_append_stop s.hist (hstop .reset rfl)

/-- Settles O27: a reset clears the counters and stops every count of HIST; at power-up HIST is empty. -/
theorem countersMatchAfterReset : Obligations.CountersMatchAfterReset :=
  ⟨fun _ hd => State.stepReset_countersMatch hd, fun _ => State.countersMatch_of_reset rfl fun _ _ => rfl⟩

/-! ### A packet step -/

/-- What a packet of each class adds to each counter (R174, R175). -/
theorem Diag.countPacket_counters (d : Diag) (r rows : Nat) (cls : PktClass) :
    (d.countPacket r rows cls).pktCnt = d.pktCnt + 1 ∧
    (d.countPacket r rows cls).discardCnt = d.discardCnt + (if cls = .discard then 1 else 0) ∧
    (d.countPacket r rows cls).oorCnt = d.oorCnt + (if cls = .oor then 1 else 0) ∧
    (d.countPacket r rows cls).rowWrCnt = d.rowWrCnt + (if cls = .row ∨ cls = .last then 1 else 0) ∧
    (d.countPacket r rows cls).frameCnt = d.frameCnt + (if cls = .last then 1 else 0) ∧
    (d.countPacket r rows cls).incompleteCnt =
      d.incompleteCnt + (if cls = .last ∧ (d.see r).full = false then 1 else 0) := by
  cases cls with
  | discard => simp [Diag.countPacket, Diag.countDiscard]
  | oor => simp [Diag.countPacket, Diag.countOor]
  | row => simp [Diag.countPacket, Diag.countRow, Diag.see]
  | last => cases hf : (d.see r).full <;> simp [Diag.countPacket, Diag.countLast, hf]

/-- ROWS_SEEN after a packet: the bit of a written row is set, and a LAST packet clears them all (R175). -/
theorem Diag.countPacket_rowsSeen {d : Diag} {r rows k : Nat} (cls : PktClass) {b : Bool}
    (hlen : d.rowsSeen.length = rows) (hk : k < rows) (hb : d.rowsSeen[k]? = some b) :
    (d.countPacket r rows cls).rowsSeen[k]? =
      some (decide (cls ≠ .last) && (b || decide (cls = .row) && r == k)) := by
  cases cls with
  | discard => simpa [Diag.countPacket, Diag.countDiscard] using hb
  | oor => simpa [Diag.countPacket, Diag.countOor] using hb
  | last => simp [Diag.countPacket, Diag.countLast, hk]
  | row =>
    by_cases hr : r = k
    · simp [Diag.countPacket, Diag.countRow, Diag.see, hr, hlen, hk]
    · simp [Diag.countPacket, Diag.countRow, Diag.see, hr, hb]

/-- The counters after a packet count its response too, and ROWS_SEEN marks its row. -/
theorem State.CountersMatch.afterPacket {p : Packet} {cls : PktClass} {s : State} (h : s.CountersMatch)
    (hd : s.cfg.hasDiag = true) (hlen : s.diag.rowsSeen.length = s.cfg.rows) : (s.afterPacket p cls).CountersMatch := by
  have hh := State.afterPacket_hist p cls s
  have hdiag := State.afterPacket_diag p cls s
  rw [if_pos hd] at hdiag
  have hcount : ∀ f, BitVec.ofNat 32 ((s.afterPacket p cls).respCount f) =
      BitVec.ofNat 32 (s.respCount f) + if f (s.afterPacket p cls).rsp then 1 else 0 := by
    intro f
    rw [State.respCount_of_resp hh, BitVec.ofNat_add]
    split <;> rfl
  obtain ⟨hpkt, hdiscard, hoor, hrowWr, hframe, hincomplete⟩ :=
    Diag.countPacket_counters s.diag p.row.toNat s.cfg.rows cls
  constructor
  case pkt => rw [hdiag, hcount, hpkt, h.pkt]; rfl
  case discard => rw [hdiag, hcount, hdiscard, h.discard, afterPacket_rsp]; cases cls <;> rfl
  case oor => rw [hdiag, hcount, hoor, h.oor, afterPacket_rsp]; cases cls <;> rfl
  case rowWr => rw [hdiag, hcount, hrowWr, h.rowWr, afterPacket_rsp]; cases cls <;> rfl
  case frame => rw [hdiag, hcount, hframe, h.frame, afterPacket_rsp]; cases cls <;> rfl
  case incomplete =>
    rw [hdiag, hcount, hincomplete, h.incomplete, afterPacket_rsp]
    cases cls <;> simp [State.allRows, hd]
  case rows =>
    intro k hk
    rw [State.afterPacket_cfg] at hk
    rw [hdiag, Diag.countPacket_rowsSeen cls hlen hk (h.rows k hk), State.rowWritten_of_resp hh, afterPacket_rsp]
    cases cls <;> simp

/-! ### Every move -/

/-- What the counters need of the state to be kept: HAS_DIAG, and a bit of ROWS_SEEN for each row. -/
structure State.Counting (s : State) : Prop where
  hasDiag : s.cfg.hasDiag = true
  rowsSeen : s.diag.rowsSeen.length = s.cfg.rows
  counters : s.CountersMatch

theorem Move.counting {L : List Byte → Prop} {s t : State} (hm : Move L s t) (h : s.Counting) : t.Counting := by
  obtain ⟨hd, hlen, hmatch⟩ := h
  have uncounted {es : List Event} (hdiag : t.diag = s.diag) (hh : t.hist = s.hist ++ es)
      (hes : ∀ e ∈ es, e.isReset = false ∧ e.endsFrame = false ∧ ∀ f, e.isResp f = false) : t.Counting :=
    ⟨by rw [hm.cfg]; exact hd, by rw [hdiag, hm.cfg]; exact hlen, hmatch.of_uncounted hdiag hm.cfg hh hes⟩
  cases hm with
  | exec hw hx =>
    rcases exec_next_cases hx with rfl | ⟨p, cls, -, -, -, -, rfl⟩ | ⟨-, -, rfl⟩ | ⟨c, -, -, rfl⟩ | ⟨-, hr⟩
    · exact uncounted (es := []) rfl (by simp) (by simp)
    · refine ⟨by simpa using hd, ?_, hmatch.afterPacket hd hlen⟩
      rw [State.afterPacket_diag, if_pos hd, State.afterPacket_cfg]
      exact Diag.countPacket_rowsSeen_length cls hlen
    · exact uncounted rfl rfl (by simp [Event.isReset, Event.endsFrame, Event.isResp])
    · exact uncounted (by simp) (s.raiseFatal_hist c) (by simp [Event.isReset, Event.endsFrame, Event.isResp])
    · obtain ⟨es, hh, hes⟩ := hr.hist
      exact uncounted hr.diag hh hes
  | reset => exact ⟨hd, by simp [hd, Diag.zero], State.stepReset_countersMatch hd⟩
  | _ => exact uncounted (es := []) (by simp) (by simp) (by simp)

/-- Settles O26: every move keeps the match. -/
theorem countersMatchHistory : Obligations.CountersMatchHistory :=
  fun _ _ hs hd hm h => (step_keeps (P := State.Counting) Move.counting h ⟨hd, hs.rowsSeen, hm⟩).counters

end Sys2Proof.Machine
end

section
/-! PROOFS. R83, R160 and R178: a packet command is the pseudocode's packet step, FB and SEEN do not influence it, and
packets of different rows commute. -/

namespace Sys2Proof.Machine

/-! ### The pseudocode's packet step -/

/-- Two updates of DIAG one after the other are one. -/
theorem State.count_count (f g : Diag → Diag) (s : State) : (s.count f).count g = s.count (g ∘ f) := by
  rw [State.count_eq, State.count_eq, State.count_eq]
  cases s.cfg.hasDiag <;> rfl

/-- Line by line, the pseudocode counts and answers what the class of the packet says. -/
theorem stepPkt_bytes {p : Packet} {s : State} (hc : s.cfg.wf) (hl : p.lengthOk s.cfg = true) (hf : s.fatal = false) :
    stepPkt (p.bytes s.cfg) s = .next (s.afterPacket p (p.cls s.cfg)) := by
  have hlen := Packet.bytes_length hl
  cases hcls : p.cls s.cfg with
  | discard =>
    have hs := Packet.cls_discard_iff.mp hcls
    simp only [stepPkt, hlen, hf, State.count_cfg, classify_bytes hc hl, hs, ne_eq, not_true, if_false, if_true,
      Bool.false_eq_true, State.count_count]
    rfl
  | oor =>
    obtain ⟨hs, hr⟩ := Packet.cls_oor_iff.mp hcls
    simp only [stepPkt, hlen, hf, State.count_cfg, classify_bytes hc hl, hs, ne_eq, not_true, if_false,
      Bool.false_eq_true, State.count_count, inRange, Nat.not_lt.mpr hr, decide_false]
    rfl
  | last =>
    obtain ⟨hs, hr⟩ := Packet.cls_last_iff.mp hcls
    have hin : p.row.toNat < s.cfg.rows := by omega
    simp only [stepPkt, hlen, hf, State.count_cfg, classify_bytes hc hl, hs, ne_eq, not_true, if_false,
      Bool.false_eq_true, inRange, hin, decide_true]
    simp only [State.count_eq, State.afterPacket, State.memWrite, State.allRows]
    cases hd : s.cfg.hasDiag <;> simp [hr] <;> rfl
  | row =>
    obtain ⟨hs, hr⟩ := Packet.cls_row_iff.mp hcls
    have hin : p.row.toNat < s.cfg.rows := by omega
    have hne : (p.row.toNat + 1 == s.cfg.rows) = false := beq_false_of_ne (by omega)
    simp only [stepPkt, hlen, hf, State.count_cfg, classify_bytes hc hl, hs, ne_eq, not_true, if_false,
      Bool.false_eq_true, inRange, hin, decide_true]
    simp only [State.count_eq, State.afterPacket, State.memWrite]
    cases hd : s.cfg.hasDiag <;> simp [hne] <;> rfl

/-- Settles O15: other lengths are refused, FATAL = 1 is stuck, and else `stepPkt_bytes`. -/
theorem packetCommandIsStepPkt : Obligations.PacketCommandIsStepPkt := by
  intro s bytes hc
  by_cases hlen : bytes.length = s.cfg.p
  · obtain ⟨p, -, rfl, hl⟩ := parsePacket_of_length hc hlen
    rw [runCommand_bytes hl]
    cases hf : s.fatal with
    | true =>
      rw [exec_ofClass_of_fatal hf hl]
      simp [stepPkt, hlen, hf]
    | false => rw [stepPkt_bytes hc hl hf, exec_ofClass_of_wf (Instr.wf_ofClass hl) hf]
  · rw [runCommand_pkt_of_length_ne hlen]
    simp [stepPkt, hlen]

/-! ### What a packet writes -/

/-- All bytes of a packet's in-range row are written, as by a packet step (R164). -/
def State.wholeRow (bytes : List Byte) (s : State) : State :=
  s.partialRow bytes (List.replicate s.cfg.rowBytes true)

/-- With every bit of the mask set the new bytes are left. -/
theorem mixBytes_replicate_true {os ns : List Byte} {n : Nat} (ho : os.length = n) (hn : ns.length = n) :
    State.mixBytes os ns (List.replicate n true) = ns := by
  induction n generalizing os ns with
  | zero =>
    rw [List.length_eq_zero_iff.mp ho, List.length_eq_zero_iff.mp hn]
    rfl
  | succ n ih =>
    obtain ⟨o, os, rfl⟩ := List.exists_cons_of_length_eq_add_one ho
    obtain ⟨v, ns, rfl⟩ := List.exists_cons_of_length_eq_add_one hn
    simp only [List.replicate_succ, State.mixBytes, if_true]
    rw [ih (by simpa using ho) (by simpa using hn)]

section WholeRow

variable {s : State} {bytes payload : List Byte} {r : Byte}

theorem State.wholeRow_eq_memWrite (hc : s.cfg.wf) (hlen : bytes.length = s.cfg.p)
    (hcl : classify s.cfg bytes = .valid r payload) (hr : r.toNat < s.cfg.rows) :
    s.wholeRow bytes = s.memWrite (rowBase s.cfg r.toNat) payload := by
  have hpay := classify_valid_payload_length hc hlen hcl
  have hmix := mixBytes_replicate_true (Mem.length_readBytes s.fb (rowBase s.cfg r.toNat) _) hpay
  simp only [State.wholeRow, State.partialRow, hcl, inRange, hr, decide_true, if_true, hpay]
  exact congrArg (s.memWrite _) hmix

/-- A packet step has the effect of its whole row on FB and SEEN. -/
theorem afterPacket_wholeRow {p : Packet} (hc : s.cfg.wf) (hl : p.lengthOk s.cfg = true) :
    (s.afterPacket p (p.cls s.cfg)).fb = (s.wholeRow (p.bytes s.cfg)).fb ∧
      (s.afterPacket p (p.cls s.cfg)).stale = (s.wholeRow (p.bytes s.cfg)).stale := by
  have hcl := classify_bytes hc hl
  have writes (hw : p.status.toNat ≠ s.cfg.discardValue ∧ p.row.toNat < s.cfg.rows) :
      s.wholeRow (p.bytes s.cfg) = s.memWrite (rowBase s.cfg p.row.toNat) p.payload := by
    rw [if_neg hw.1] at hcl
    exact State.wholeRow_eq_memWrite hc (Packet.bytes_length hl) hcl hw.2
  cases hcls : p.cls s.cfg with
  | discard =>
    rw [if_pos (Packet.cls_discard_iff.mp hcls)] at hcl
    rw [State.wholeRow, State.partialRow_of_discard _ hcl]
    simp [State.afterPacket]
  | oor =>
    obtain ⟨hs, hr⟩ := Packet.cls_oor_iff.mp hcls
    rw [if_neg hs] at hcl
    rw [State.wholeRow, State.partialRow_of_outOfRange _ hcl hr]
    simp [State.afterPacket]
  | last =>
    rw [writes (Packet.cls_writes_iff.mp (.inr hcls))]
    simp [State.afterPacket]
  | row =>
    rw [writes (Packet.cls_writes_iff.mp (.inl hcls))]
    simp [State.afterPacket]

/-- A packet of P bytes that is answered takes its packet's step. -/
theorem runCommand_pkt_of_length {t : State} (hc : s.cfg.wf) (hlen : bytes.length = s.cfg.p)
    (h : runCommand (.pkt bytes) s = .next t) :
    s.fatal = false ∧ ∃ p, p.lengthOk s.cfg = true ∧ p.bytes s.cfg = bytes ∧ t = s.afterPacket p (p.cls s.cfg) := by
  obtain ⟨p, -, rfl, hl⟩ := parsePacket_of_length hc hlen
  rw [runCommand_bytes hl, exec_ofClass_eq_next hl] at h
  obtain ⟨hf, -, rfl⟩ := h
  exact ⟨hf, p, hl, rfl, rfl⟩

theorem runCommand_pkt_completes {p : Packet} (hl : p.lengthOk s.cfg = true) (hf : s.fatal = false) :
    runCommand (.pkt (p.bytes s.cfg)) s = .next (s.afterPacket p (p.cls s.cfg)) := by
  rw [runCommand_bytes hl]
  exact (exec_ofClass_eq_next hl).mpr ⟨hf, rfl, rfl⟩

theorem runCommand_pkt_wholeRow {t : State} (hc : s.cfg.wf) (hlen : bytes.length = s.cfg.p)
    (h : runCommand (.pkt bytes) s = .next t) :
    t.fb = (s.wholeRow bytes).fb ∧ t.stale = (s.wholeRow bytes).stale := by
  obtain ⟨-, p, hl, rfl, rfl⟩ := runCommand_pkt_of_length hc hlen h
  exact afterPacket_wholeRow hc hl

end WholeRow

/-- The byte that a packet gives to address `a`, if `a` lies in its in-range row (R164, R165). -/
def newByte (c : Config) (bytes : List Byte) (a : Nat) : Option Byte :=
  match classify c bytes with
  | .discard => none
  | .valid r payload =>
    if r.toNat < c.rows ∧ rowBase c r.toNat ≤ a ∧ a < rowBase c r.toNat + c.rowBytes then
      some (payload.getD (a - rowBase c r.toNat) 0)
    else none

/-- An address that a packet writes lies in the row it writes. -/
theorem newByte_eq_some {c : Config} {bytes : List Byte} {a : Nat} {v : Byte} (h : newByte c bytes a = some v) :
    ∃ r payload, classify c bytes = .valid r payload ∧ r.toNat < c.rows ∧ rowBase c r.toNat ≤ a ∧
      a < rowBase c r.toNat + c.rowBytes ∧ v = payload.getD (a - rowBase c r.toNat) 0 := by
  unfold newByte at h
  split at h
  next => cases h
  next r payload hcl =>
    split at h
    next hin =>
      obtain ⟨hr, hlo, hhi⟩ := hin
      cases h
      exact ⟨r, payload, hcl, hr, hlo, hhi, rfl⟩
    next => cases h

theorem State.wholeRow_fbAt {s : State} {bytes : List Byte} (hc : s.cfg.wf) (hlen : bytes.length = s.cfg.p) (a : Nat) :
    (s.wholeRow bytes).fbAt a = (newByte s.cfg bytes a).getD (s.fbAt a) := by
  have hrow := rowPartlyWritten_partialRow (s := s) (List.replicate s.cfg.rowBytes true) hc hlen
  unfold newByte
  cases hcl : classify s.cfg bytes with
  | discard => exact State.fbAt_of_fb (hrow.discard hcl).1 a
  | valid r payload =>
    by_cases hin : r.toNat < s.cfg.rows ∧ rowBase s.cfg r.toNat ≤ a ∧ a < rowBase s.cfg r.toNat + s.cfg.rowBytes
    · obtain ⟨hr, hlo, hhi⟩ := hin
      obtain ⟨i, rfl⟩ := Nat.exists_eq_add_of_le hlo
      have hi : i < s.cfg.rowBytes := by omega
      simpa [State.wholeRow, hr, hi] using hrow.inside r payload hcl hr i hi
    · simp only [hin, if_false, Option.getD_none]
      exact hrow.outside r payload hcl a (by omega)

/-- Settles O18: the two steps differ in the FB and SEEN they start from alone, and the bytes of the row are the
packet's. -/
theorem frameBufferNeverInfluencesPackets : Obligations.FrameBufferNeverInfluencesPackets := by
  intro bytes s t fb stale hc h
  by_cases hlen : bytes.length = s.cfg.p
  · obtain ⟨hf, p, hl, rfl, rfl⟩ := runCommand_pkt_of_length hc hlen h
    refine ⟨_, runCommand_pkt_completes (s := { s with fb := fb, stale := stale }) hl hf, ?_,
      fun r a hw hr hlo hhi _ => ?_⟩
    · cases p.cls s.cfg <;> simp only [State.afterPacket, State.count_eq] <;> rfl
    · obtain ⟨i, rfl⟩ := Nat.exists_eq_add_of_le hlo
      have hi : i < s.cfg.rowBytes := by omega
      rw [afterPacket_byte hc hl hr hi, if_pos hw]
      exact (afterPacket_byte (s := { s with fb := fb, stale := stale }) hc hl hr hi).trans (if_pos hw)
  · rw [runCommand_pkt_of_length_ne hlen] at h
    cases h
    exact ⟨_, runCommand_pkt_of_length_ne (s := { s with fb := fb, stale := stale }) hlen, rfl,
      fun _ _ _ _ _ _ h => absurd h hlen⟩

/-! ### Packets of different rows -/

/-- An answered packet gives an address its new byte, if it has one for it, and adds it to SEEN. -/
theorem runCommand_pkt_newByte {s t : State} {bytes : List Byte} (hc : s.cfg.wf) (hlen : bytes.length = s.cfg.p)
    (h : runCommand (.pkt bytes) s = .next t) (a : Nat) :
    t.cfg = s.cfg ∧ t.fbAt a = (newByte s.cfg bytes a).getD (s.fbAt a) ∧
      ∀ v, v ∈ t.seenAt a ↔ v ∈ s.seenAt a ∨ newByte s.cfg bytes a = some v := by
  obtain ⟨hfb, hstale⟩ := runCommand_pkt_wholeRow hc hlen h
  have hbyte : t.fbAt a = (newByte s.cfg bytes a).getD (s.fbAt a) :=
    (State.fbAt_of_fb hfb a).trans (State.wholeRow_fbAt hc hlen a)
  refine ⟨(runCommand_moves (L := fun _ => True) hc h).cfg, hbyte, fun v => ?_⟩
  rw [State.seenAt_of_eq hfb hstale, State.wholeRow, State.mem_partialRow_seenAt, ← State.wholeRow,
    ← State.fbAt_of_fb hfb, hbyte]
  cases newByte s.cfg bytes a with
  | none =>
    have hcur : v = s.fbAt a → v ∈ s.seenAt a := fun h => h ▸ s.fbAt_mem_seenAt a
    simpa using hcur
  | some w => simp [eq_comm]

/-- Two packets of different rows have no address in common. -/
theorem newByte_disjoint {c : Config} {x y : List Byte} {r a : Nat} (hx : writesRow c r x = true)
    (hy : writesRow c r y = false) : newByte c x a = none ∨ newByte c y a = none := by
  cases hnx : newByte c x a with
  | none => exact .inl rfl
  | some v =>
    refine .inr (Option.eq_none_iff_forall_ne_some.mpr fun w hny => ?_)
    obtain ⟨rx, px, hcx, -, hlox, hhix, -⟩ := newByte_eq_some hnx
    obtain ⟨ry, py, hcy, -, hloy, hhiy, -⟩ := newByte_eq_some hny
    simp only [writesRow, hcx, hcy, beq_iff_eq, beq_eq_false_iff_ne] at hx hy
    have hi : a - rowBase c rx.toNat < c.rowBytes := by omega
    have := rowBase_add_outside (c := c) (r := rx.toNat) (r' := ry.toNat) (fun h => hy (h ▸ hx)) hi
    omega

/-- Settles O20: at each address at most one of the two packets has a new byte. -/
theorem differentRowsCommute : Obligations.DifferentRowsCommute := by
  intro x y s sx sxy sy syx r hc hxlen hylen hx hy h1 h2 h3 h4 a
  obtain ⟨cx, bx, vx⟩ := runCommand_pkt_newByte hc hxlen h1 a
  obtain ⟨-, bxy, vxy⟩ := runCommand_pkt_newByte (cx ▸ hc) (cx ▸ hylen) h2 a
  obtain ⟨cy, byb, vy⟩ := runCommand_pkt_newByte hc hylen h3 a
  obtain ⟨-, byx, vyx⟩ := runCommand_pkt_newByte (cy ▸ hc) (cy ▸ hxlen) h4 a
  rw [cx, bx] at bxy
  rw [cy, byb] at byx
  refine ⟨?_, fun v => ?_⟩
  · rw [bxy, byx]
    rcases newByte_disjoint (a := a) hx hy with h | h <;> rw [h] <;> rfl
  · rw [vxy, vyx, vx, vy, cx, cy]
    exact or_right_comm

end Sys2Proof.Machine
end

section
/-! PROOFS. A clock edge without reset, said once: what the packet, flush and fatal ports find (`BeforeHostPorts`) after the
diagnostic read, the row bytes and the readers of the edge; and FATAL strobes taken one after another. -/

namespace Sys2Proof.Machine

/-! ### Reads at the ports -/

/-- A Read or DiagRead event. -/
def Event.isPortRead : Event → Bool
  | .read _ _ _ => true
  | .diagRead _ _ => true
  | _ => false

/-- R224 with the events by name, and the pulses: what the reader and diagnostic ports do at an edge. -/
structure ReadsOnly (s t : State) : Prop where
  same : SameButReads s t
  rspValid : t.cyc.rspValid = s.cyc.rspValid
  flushAck : t.cyc.flushAck = s.cyc.flushAck
  events : ∃ es, t.hist = s.hist ++ es ∧ ∀ x ∈ es, x.isPortRead = true

theorem ReadsOnly.refl (s : State) : ReadsOnly s s := ⟨.refl s, rfl, rfl, [], by simp⟩

theorem ReadsOnly.trans {s t u : State} (h : ReadsOnly s t) (g : ReadsOnly t u) : ReadsOnly s u := by
  obtain ⟨es, hes, hread⟩ := h.events
  obtain ⟨fs, hfs, gread⟩ := g.events
  refine ⟨h.same.trans g.same, g.rspValid.trans h.rspValid, g.flushAck.trans h.flushAck, es ++ fs,
    by rw [hfs, hes, List.append_assoc], fun x hx => ?_⟩
  exact (List.mem_append.mp hx).elim (hread x) (gread x)

/-- The reader ports' own registers are no part of it. -/
theorem readsOnly_onCyc {s : State} {f : Cycle → Cycle}
    (h : ∀ y : Cycle, (f y).phase = y.phase ∧ (f y).flushPend = y.flushPend ∧ (f y).fatalPend = y.fatalPend ∧
      (f y).rspValid = y.rspValid ∧ (f y).flushAck = y.flushAck) : ReadsOnly s (s.onCyc f) := by
  obtain ⟨hp, hfl, hfa, hv, ha⟩ := h s.cyc
  exact ⟨sameButReads_onCyc hp hfl hfa, hv, ha, [], by simp⟩

theorem answers_isPortRead {m : State} {q : RdReq} {r : RdReply} {es : List Event} (h : m.answers q r es) :
    ∀ x ∈ es, x.isPortRead = true := by
  unfold State.answers at h
  split at h <;> rcases h with ⟨-, h⟩ | ⟨-, -, rfl⟩
  · obtain ⟨n, v, -, -, rfl⟩ := h
    simp [Event.isPortRead]
  · simp
  · obtain ⟨n, v, n', v', -, -, -, rfl⟩ := h
    simp [Event.isPortRead]
  · simp

theorem runCommand_rd_readsOnly {q : RdReq} {s t : State} (h : runCommand (.rd q.agent q.addr q.size) s = .next t) :
    ReadsOnly s t := by
  obtain ⟨-, hcyc, r, es, hans, -, hhist⟩ := runCommand_rd_answers h
  exact ⟨runCommand_rd h, by rw [hcyc], by rw [hcyc], es, hhist, answers_isPortRead hans⟩

theorem diagPort_readsOnly {e : Edge} {s t : State} (h : diagPort e s = .next t) : ReadsOnly s t := by
  unfold diagPort at h
  split at h
  · cases h
    exact .refl _
  · cases h
    exact ⟨execDiagrd_reads rfl, rfl, rfl, _, rfl, by simp [Event.isPortRead]⟩

theorem serveReaders_readsOnly {qs : List RdReq} {s t : State} (h : serveReaders qs s = .next t) : ReadsOnly s t := by
  induction qs generalizing s with
  | nil =>
    cases h
    exact .refl _
  | cons q qs ih =>
    obtain ⟨m, hm, ht⟩ := andThen_eq_next.mp h
    obtain ⟨n, hn, hm⟩ := andThen_eq_next.mp hm
    cases hm
    have hack : ReadsOnly n (n.onCyc fun y => { y with rdAck := y.rdAck ++ [q.agent] }) :=
      readsOnly_onCyc fun _ => ⟨rfl, rfl, rfl, rfl, rfl⟩
    exact ((runCommand_rd_readsOnly hn).trans hack).trans (ih ht)

theorem readerPorts_readsOnly {e : Edge} {s t : State} (h : readerPorts e s = .next t) : ReadsOnly s t := by
  obtain ⟨m, hm, ht⟩ := andThen_eq_next.mp h
  cases ht
  exact (serveReaders_readsOnly hm).trans (readsOnly_onCyc fun _ => ⟨rfl, rfl, rfl, rfl, rfl⟩)

/-! ### What the host's ports find -/

/-- What the packet, flush and fatal ports find at an edge without reset: the state before the edge with the row bytes of
the edge in FB and SEEN, no pulse, and the reads of the edge recorded. -/
structure BeforeHostPorts (e : Edge) (s n : State) : Prop where
  cfg : n.cfg = s.cfg
  fb : n.fb = (rowProgress e s).fb
  stale : n.stale = (rowProgress e s).stale
  fatal : n.fatal = s.fatal
  cause : n.cause = s.cause
  diag : n.diag = s.diag
  refused : n.refused = s.refused
  rsp : n.rsp = s.rsp
  phase : n.cyc.phase = s.cyc.phase
  flushPend : n.cyc.flushPend = s.cyc.flushPend
  fatalPend : n.cyc.fatalPend = s.cyc.fatalPend
  rspValid : n.cyc.rspValid = false
  flushAck : n.cyc.flushAck = false
  events : ∃ es, n.hist = s.hist ++ es ∧ ∀ x ∈ es, x.isPortRead = true

@[simp] theorem rowProgress_diag (e : Edge) (s : State) : (rowProgress e s).diag = s.diag := by
  rcases rowProgress_cases e s with h | ⟨b, m, -, h⟩ <;> simp [h]

@[simp] theorem rowProgress_refused (e : Edge) (s : State) : (rowProgress e s).refused = s.refused := by
  rcases rowProgress_cases e s with h | ⟨b, m, -, h⟩ <;> simp [h]

@[simp] theorem rowProgress_rsp (e : Edge) (s : State) : (rowProgress e s).rsp = s.rsp := by
  rcases rowProgress_cases e s with h | ⟨b, m, -, h⟩ <;> simp [h]

@[simp] theorem rowProgress_hist (e : Edge) (s : State) : (rowProgress e s).hist = s.hist := by
  rcases rowProgress_cases e s with h | ⟨b, m, -, h⟩ <;> simp [h]

/-- An edge without reset: the reads and row bytes of the edge, then the packet, flush and fatal ports. -/
theorem clockEdge_hostPorts {e : Edge} {s t : State} (hr : e.rst = false) (h : clockEdge e s = .next t) :
    ∃ n, BeforeHostPorts e s n ∧ hostPorts e n = .next t := by
  rw [clockEdge, hr] at h
  obtain ⟨m, hm, h⟩ := andThen_eq_next.mp h
  obtain ⟨n, hn, ht⟩ := andThen_eq_next.mp h
  have hsm := diagPort_readsOnly hm
  have hmn := readerPorts_readsOnly hn
  obtain ⟨-, hfb, hstale⟩ :=
    rowProgress_of_eq e (s := s) (t := m) hsm.same.cfg hsm.same.fb hsm.same.stale hsm.same.phase
  obtain ⟨es, hes, hesread⟩ := hsm.events
  obtain ⟨fs, hfs, hfsread⟩ := hmn.events
  refine ⟨n, ⟨?_, hmn.same.fb.trans hfb, hmn.same.stale.trans hstale, ?_, ?_, ?_, ?_, ?_, ?_, ?_, ?_, ?_, ?_,
    es ++ fs, ?_, fun x hx => (List.mem_append.mp hx).elim (hesread x) (hfsread x)⟩, ht⟩
  · rw [hmn.same.cfg, rowProgress_cfg, hsm.same.cfg]; rfl
  · rw [hmn.same.fatal, rowProgress_fatal, hsm.same.fatal]; rfl
  · rw [hmn.same.cause, rowProgress_cause, hsm.same.cause]; rfl
  · rw [hmn.same.diag, rowProgress_diag, hsm.same.diag]; rfl
  · rw [hmn.same.refused, rowProgress_refused, hsm.same.refused]; rfl
  · rw [hmn.same.rsp, rowProgress_rsp, hsm.same.rsp]; rfl
  · rw [hmn.same.phase, rowProgress_cyc, hsm.same.phase]; rfl
  · rw [hmn.same.flushPend, rowProgress_cyc, hsm.same.flushPend]; rfl
  · rw [hmn.same.fatalPend, rowProgress_cyc, hsm.same.fatalPend]; rfl
  · rw [hmn.rspValid, rowProgress_cyc, hsm.rspValid]; rfl
  · rw [hmn.flushAck, rowProgress_cyc, hsm.flushAck]; rfl
  · rw [hfs, rowProgress_hist, hes, List.append_assoc]; rfl

/-- What the ports find of a step in progress that the edge does not finish is left but for a strobe, which is held
(R119). -/
theorem hostPorts_unfinished {e : Edge} {s t : State} (hp : s.cyc.phase ≠ .idle) (hf : e.finish = false)
    (h : hostPorts e s = .next t) : t = holdFatal e s := by
  cases hphase : s.cyc.phase with
  | idle => exact absurd hphase hp
  | packet bytes =>
    rw [hostPorts_of_packet hphase] at h
    rcases packetEdge_eq_next h with ⟨-, ht⟩ | ⟨hf', -⟩
    · exact ht
    · simp [hf] at hf'
  | flush =>
    rw [hostPorts_of_flush hphase] at h
    rcases flushEdge_eq_next h with ⟨-, ht⟩ | ⟨hf', -⟩
    · exact ht
    · simp [hf] at hf'

/-- The registers from which the command at the end of a step runs: the step is over, a strobe of the edge is held. -/
def endOfStep (e : Edge) (y : Cycle) : Cycle :=
  { y with phase := .idle, fatalPend := y.fatalPend ++ e.fatalReq.toList }

/-! ### Fatal strobes -/

/-- Strobes taken one after another (R242, R245): the first cause of 1 to 3 is kept unless FATAL was 1, and each such
strobe is recorded. -/
theorem takeFatals_next {cs : List (BitVec 2)} {s t : State} (h : takeFatals cs s = .next t) :
    (t.fatal = true ↔ s.fatal = true ∨ ∃ c ∈ cs, c ≠ 0#2) ∧
      t.cause = (if s.fatal then s.cause else (cs.find? fun c => c ≠ 0#2).getD s.cause) ∧
      t.hist = s.hist ++ (cs.filter fun c => c ≠ 0#2).map .fatal := by
  induction cs generalizing s with
  | nil =>
    cases h
    simp
  | cons c cs ih =>
    obtain ⟨m, hm, ht⟩ := andThen_eq_next.mp h
    obtain ⟨hfatal, hcause, hhist⟩ := ih ht
    rcases runCommand_fatal hm with ⟨rfl, rfl⟩ | ⟨hc, rfl⟩
    · exact ⟨by simpa using hfatal, by simpa using hcause, by simpa using hhist⟩
    · simp [hfatal, hcause, hhist, hc]

end Sys2Proof.Machine
end

section
/-! PROOFS. R34 and R78 to R81: what a reader may be given. A step makes no value visible but a byte's new current value;
a FLUSH leaves the current value alone, so a read after it is given that value or one written since. -/

namespace Sys2Proof.Machine

/-! ### A row written in part, then whole -/

/-- R280: a byte of a row partly written is its old one or the packet's new one. -/
theorem State.partialRow_fbAt_old_or_new {s : State} {bytes : List Byte} (hc : s.cfg.wf) (hlen : bytes.length = s.cfg.p)
    (mask : List Bool) (a : Nat) :
    (s.partialRow bytes mask).fbAt a = s.fbAt a ∨
      newByte s.cfg bytes a = some ((s.partialRow bytes mask).fbAt a) := by
  have hrow := rowPartlyWritten_partialRow (s := s) mask hc hlen
  cases hcl : classify s.cfg bytes with
  | discard => exact .inl (State.fbAt_of_fb (hrow.discard hcl).1 a)
  | valid r payload =>
    by_cases hin : r.toNat < s.cfg.rows ∧ rowBase s.cfg r.toNat ≤ a ∧ a < rowBase s.cfg r.toNat + s.cfg.rowBytes
    · have hnew : newByte s.cfg bytes a = some (payload.getD (a - rowBase s.cfg r.toNat) 0) := by
        simp only [newByte, hcl, hin, and_self, if_true]
      obtain ⟨hr, hlo, hhi⟩ := hin
      obtain ⟨i, rfl⟩ := Nat.exists_eq_add_of_le hlo
      rw [hrow.inside r payload hcl hr i (by omega), hnew, Nat.add_sub_cancel_left]
      split
      · exact .inr rfl
      · exact .inl rfl
    · exact .inl (hrow.outside r payload hcl a (by omega))

/-- Two states of one configuration with the same bytes and the same SEEN sets have the same FB and the same listed pairs,
since both are kept in canonical form. -/
theorem State.CoreInv.memory_ext {s t : State} (hs : s.CoreInv) (ht : t.CoreInv) (hcfg : s.cfg = t.cfg)
    (hfb : ∀ a, s.fbAt a = t.fbAt a) (hseen : ∀ a v, v ∈ s.seenAt a ↔ v ∈ t.seenAt a) :
    s.fb = t.fb ∧ s.stale = t.stale := by
  have listed {u : State} (hu : u.CoreInv) (a : Nat) (v : Byte) :
      (a, v) ∈ u.stale ↔ v ∈ u.seenAt a ∧ v ≠ u.fbAt a := by
    have hne : (a, v) ∈ u.stale → v ≠ u.fbAt a := fun h => (hu.visible.2 _ h).2
    rw [State.mem_seenAt]
    tauto
  refine ⟨Mem.ext (hcfg ▸ hs.memory) ht.memory hfb, Stale.ext hs.visible.1 ht.visible.1 fun a v => ?_⟩
  rw [listed hs, listed ht, hseen, hfb]

/-- A row written in part and then whole is as if written whole at once: in between each byte is old or new. -/
theorem State.wholeRow_partialRow {s : State} {bytes : List Byte} (hs : s.CoreInv) (hlen : bytes.length = s.cfg.p)
    (mask : List Bool) :
    ((s.partialRow bytes mask).wholeRow bytes).fb = (s.wholeRow bytes).fb ∧
      ((s.partialRow bytes mask).wholeRow bytes).stale = (s.wholeRow bytes).stale := by
  have hpart : (s.partialRow bytes mask).CoreInv := hs.partialRow hlen mask
  have hlen' : bytes.length = (s.partialRow bytes mask).cfg.p := by simpa using hlen
  have hbyte := State.partialRow_fbAt_old_or_new hs.config hlen mask
  have hfb : ∀ a, ((s.partialRow bytes mask).wholeRow bytes).fbAt a = (s.wholeRow bytes).fbAt a := by
    intro a
    rw [State.wholeRow_fbAt hpart.config hlen', State.wholeRow_fbAt hs.config hlen, State.partialRow_cfg]
    rcases hbyte a with h | h
    · rw [h]
    · rw [h]; rfl
  refine State.CoreInv.memory_ext (hpart.partialRow hlen' _) (hs.partialRow hlen _) (by simp [State.wholeRow]) hfb
    fun a v => ?_
  rw [State.wholeRow, State.mem_partialRow_seenAt, ← State.wholeRow, hfb, State.mem_partialRow_seenAt,
    State.wholeRow, State.mem_partialRow_seenAt, ← State.wholeRow]
  have hmid : v = (s.partialRow bytes mask).fbAt a → v ∈ s.seenAt a ∨ v = (s.wholeRow bytes).fbAt a := by
    rintro rfl
    rcases hbyte a with h | h
    · exact .inl (h ▸ s.fbAt_mem_seenAt a)
    · rw [State.wholeRow_fbAt hs.config hlen, h]
      exact .inr rfl
  tauto

/-! ### No thin-air values -/

/-- A value that a reader may be given after a step it may be given before, or it is the byte's current value. -/
def SeenFrom (s t : State) : Prop := ∀ a v, v ∈ t.seenAt a → v ∈ s.seenAt a ∨ v = t.fbAt a

theorem SeenFrom.of_eq {s t : State} (hf : t.fb = s.fb) (hs : t.stale = s.stale) : SeenFrom s t :=
  fun a _ hv => .inl (State.seenAt_of_eq hf hs a ▸ hv)

/-- What `SeenFrom` says is about FB and SEEN alone. -/
theorem SeenFrom.congr {s t s' t' : State} (h : SeenFrom s t) (hf : s'.fb = s.fb) (hs : s'.stale = s.stale)
    (hf' : t'.fb = t.fb) (hs' : t'.stale = t.stale) : SeenFrom s' t' := by
  intro a v
  rw [State.seenAt_of_eq hf hs, State.seenAt_of_eq hf' hs', State.fbAt_of_fb hf']
  exact h a v

theorem seenFrom_partialRow (s : State) (bytes : List Byte) (mask : List Bool) :
    SeenFrom s (s.partialRow bytes mask) := fun _ _ => (State.mem_partialRow_seenAt mask).mp

theorem seenFrom_of_stale_nil (s : State) {t : State} (h : t.stale = []) : SeenFrom s t := by
  intro a _ hv
  rw [State.mem_seenAt, h] at hv
  exact .inr (hv.resolve_right List.not_mem_nil)

theorem exec_seenFrom {i : Instr} {s t : State} (hc : s.cfg.wf) (h : exec i s = .next t) : SeenFrom s t := by
  rcases exec_next_cases h with rfl | ⟨p, cls, -, -, hl, rfl, rfl⟩ | ⟨-, -, rfl⟩ | ⟨c, -, -, rfl⟩ | ⟨-, hr⟩
  · exact .of_eq rfl rfl
  · obtain ⟨hfb, hstale⟩ := afterPacket_wholeRow hc hl
    exact (seenFrom_partialRow s _ _).congr rfl rfl hfb hstale
  · exact seenFrom_of_stale_nil s rfl
  · exact .of_eq (by simp) (by simp)
  · exact .of_eq hr.fb hr.stale

theorem runCommand_seenFrom {c : Command} {s t : State} (hc : s.cfg.wf) (h : runCommand c s = .next t) :
    SeenFrom s t := by
  rcases runCommand_eq_next.mp h with ⟨i, -, hi⟩ | ⟨-, rfl⟩
  · exact exec_seenFrom hc hi
  · exact .of_eq rfl rfl

theorem hostMove_seenFrom {x : Transfer} {s t : State} (hc : s.cfg.wf) (h : hostMove x s = .next t) : SeenFrom s t := by
  have presented {c : Command} {f : State → HostCtl}
      (h : andThen (present c s) (fun u => .next { u with host := f u }) = .next t) : SeenFrom s t := by
    obtain ⟨u, hu, ht⟩ := andThen_eq_next.mp h
    cases ht
    exact (runCommand_seenFrom hc (present_eq_next.mp hu).2).congr rfl rfl rfl rfl
  unfold hostMove at h
  split at h
  · split at h
    · cases h
      exact .of_eq rfl rfl
    · exact presented h
  · exact presented (f := fun _ => .aborted) h
  · exact presented (f := fun _ => .awaitingRows) h
  · cases h
    exact .of_eq rfl rfl

theorem takeFatals_memory {cs : List (BitVec 2)} {s t : State} (h : takeFatals cs s = .next t) :
    t.fb = s.fb ∧ t.stale = s.stale := by
  refine takeFatals_keeps (P := fun u => u.fb = s.fb ∧ u.stale = s.stale) (fun hm hu => ?_) h ⟨rfl, rfl⟩
  rcases runCommand_fatal hm with ⟨-, rfl⟩ | ⟨-, rfl⟩
  · exact hu
  · simpa using hu

/-- With no step in progress the ports leave FB and SEEN alone. -/
theorem idleEdge_memory {e : Edge} {s t : State} (h : idleEdge e s = .next t) : t.fb = s.fb ∧ t.stale = s.stale := by
  rcases idleEdge_eq_next h with ⟨-, h⟩ | ⟨-, ⟨-, rfl⟩ | ⟨-, ⟨-, rfl⟩ | ⟨-, ⟨b, -, -, rfl⟩ | ⟨b, -, -, rfl⟩ |
    ⟨-, -, rfl⟩ | ⟨-, -, rfl⟩⟩⟩⟩
  · exact takeFatals_memory (s := s.onCyc fun y => { y with fatalPend := [] }) h
  all_goals exact ⟨rfl, rfl⟩

/-- The row bytes of an edge that finishes the packet in progress are its whole row. -/
theorem rowProgress_of_finish {e : Edge} {s : State} {bytes : List Byte} (hp : s.cyc.phase = .packet bytes)
    (hf : e.finish = true) : rowProgress e s = s.wholeRow bytes := by
  simp only [rowProgress, hp, hf, if_true, State.wholeRow]

theorem rowProgress_of_flush (e : Edge) {s : State} (hp : s.cyc.phase = .flush) : rowProgress e s = s := by
  simp only [rowProgress, hp]

/-- What a packet does to FB and SEEN depends on the configuration, FB and SEEN alone. -/
theorem State.wholeRow_memory_congr {s t : State} (hc : t.cfg = s.cfg) (hf : t.fb = s.fb) (hs : t.stale = s.stale)
    (bytes : List Byte) :
    (t.wholeRow bytes).fb = (s.wholeRow bytes).fb ∧ (t.wholeRow bytes).stale = (s.wholeRow bytes).stale := by
  unfold State.wholeRow State.partialRow
  rw [hc]
  cases classify s.cfg bytes with
  | discard => exact ⟨hf, hs⟩
  | valid r payload => cases hr : inRange s.cfg r <;> simp [hr, hf, hs]

/-- At the edge that finishes a packet its step writes what the row bytes of the edge wrote already. -/
theorem finishPacket_memory {e : Edge} {s n u : State} {bytes : List Byte} (hs : s.CoreInv)
    (hp : s.cyc.phase = .packet bytes) (hlen : bytes.length = s.cfg.p) (hf : e.finish = true)
    (hn : BeforeHostPorts e s n) {f : Cycle → Cycle} (hu : runCommand (.pkt bytes) (n.onCyc f) = .next u) :
    u.fb = (s.wholeRow bytes).fb ∧ u.stale = (s.wholeRow bytes).stale := by
  have hcfg : (n.onCyc f).cfg = s.cfg := hn.cfg
  have hnfb := hn.fb
  have hnstale := hn.stale
  rw [rowProgress_of_finish hp hf] at hnfb hnstale
  obtain ⟨hufb, hustale⟩ := runCommand_pkt_wholeRow (hcfg ▸ hs.config) (hcfg ▸ hlen) hu
  obtain ⟨hcfb, hcstale⟩ := State.wholeRow_memory_congr (s := s.wholeRow bytes) (t := n.onCyc f)
    (by simpa [State.wholeRow] using hn.cfg) hnfb hnstale bytes
  obtain ⟨htwicefb, htwicestale⟩ := State.wholeRow_partialRow hs hlen (List.replicate s.cfg.rowBytes true)
  exact ⟨hufb.trans (hcfb.trans htwicefb), hustale.trans (hcstale.trans htwicestale)⟩

theorem clockEdge_seenFrom {e : Edge} {s t : State} (hs : s.Inv) (h : clockEdge e s = .next t) : SeenFrom s t := by
  cases hr : e.rst with
  | true =>
    rw [clockEdge, if_pos hr] at h
    cases h
    rcases resetEdge_cases e s with ⟨-, he⟩ | ⟨bytes, -, he⟩
    · exact .of_eq (by simp [he]) (by simp [he])
    · exact (seenFrom_partialRow s bytes e.mask).congr rfl rfl (by simp [he]) (by simp [he])
  | false =>
    obtain ⟨n, hn, ht⟩ := clockEdge_hostPorts hr h
    have hsn : SeenFrom s n := by
      rcases rowProgress_cases e s with he | ⟨bytes, mask, -, he⟩
      · exact .of_eq (by rw [hn.fb, he]) (by rw [hn.stale, he])
      · exact (seenFrom_partialRow s bytes mask).congr rfl rfl (by rw [hn.fb, he]) (by rw [hn.stale, he])
    cases hp : s.cyc.phase with
    | idle =>
      rw [hostPorts_of_idle (hn.phase.trans hp)] at ht
      obtain ⟨hfb, hstale⟩ := idleEdge_memory ht
      exact hsn.congr rfl rfl hfb hstale
    | packet bytes =>
      rw [hostPorts_of_packet (hn.phase.trans hp)] at ht
      rcases packetEdge_eq_next ht with ⟨-, rfl⟩ | ⟨hf, u, hu, rfl⟩
      · exact hsn.congr rfl rfl rfl rfl
      · obtain ⟨hfb, hstale⟩ :=
          finishPacket_memory (f := endOfStep e) hs.core hp (hs.length_of_packet hp) hf hn hu
        exact (seenFrom_partialRow s bytes _).congr rfl rfl hfb hstale
    | flush =>
      rw [hostPorts_of_flush (hn.phase.trans hp)] at ht
      rcases flushEdge_eq_next ht with ⟨-, rfl⟩ | ⟨-, u, hu, rfl⟩
      · exact hsn.congr rfl rfl rfl rfl
      · obtain ⟨-, rfl⟩ := runCommand_flush hu
        exact seenFrom_of_stale_nil s rfl

theorem runInput_seenFrom {i : Input} {s t : State} (hs : s.Inv) (h : runInput i s = .next t) : SeenFrom s t := by
  cases i with
  | cmd c => exact runCommand_seenFrom hs.config (present_eq_next.mp h).2
  | reset =>
    cases h
    exact .of_eq rfl rfl
  | resetDuringPkt bytes mask =>
    rcases resetDuringPkt_eq_next h with ⟨-, ⟨-, rfl⟩ | ⟨-, -, rfl⟩⟩
    · exact .of_eq rfl rfl
    · exact (seenFrom_partialRow s bytes mask).congr rfl rfl rfl rfl
  | host x => exact hostMove_seenFrom hs.config h
  | hostSetup f =>
    obtain ⟨-, u, hu, rfl⟩ := hostSetupFailure_eq_next.mp h
    exact (runCommand_seenFrom hs.config (present_eq_next.mp hu).2).congr rfl rfl rfl rfl
  | pause =>
    cases h
    exact .of_eq rfl rfl
  | together x =>
    cases h
    exact .of_eq rfl rfl
  | clk e => exact clockEdge_seenFrom hs h

theorem step_seenFrom {s t : State} (hs : s.Inv) (h : step s = .next t) : SeenFrom s t := by
  rw [step, advance, if_pos hs.config] at h
  split at h
  next =>
    cases h
    exact .of_eq rfl rfl
  next i rest _ =>
    have hu : (State.enterLoop i { s with inputs := rest }).Inv :=
      ⟨hs.config, hs.memory, hs.visible, hs.fatalCause, hs.rowsSeen, hs.noDiag, hs.counters, hs.readers, hs.cycle⟩
    exact (runInput_seenFrom hu h).congr rfl rfl rfl rfl

/-- Settles O36: `step_seenFrom`. -/
theorem seenGrowsOnlyByWrites : Obligations.SeenGrowsOnlyByWrites :=
  fun s a => ⟨s.fbAt_mem_seenAt a, fun _ v hs h => step_seenFrom hs h a v⟩

/-! ### Reads after a FLUSH -/

/-- Settles O34: after a FLUSH the byte drawn is the only one in its SEEN set. -/
theorem readAfterFlushIsCurrent : Obligations.ReadAfterFlushIsCurrent := by
  intro j addr s t hs h hj
  obtain ⟨-, rfl⟩ := execFlush_eq_next.mp h
  have hlt : j < (s.clearSeen.emit .flushDone).rdOut.length := hs.readers ▸ hj
  have hdraw (a : Nat) : (s.clearSeen.emit .flushDone).drawAt a = s.fbAt a := State.drawAt_of_seenAt rfl
  have hdraw' (a b : Nat) (v : Byte) : ((s.clearSeen.emit .flushDone).recordRead j b v).drawAt a = s.fbAt a :=
    State.drawAt_of_seenAt rfl
  refine ⟨fun ha => ⟨_, execRd8_eq_next.mpr ⟨hj, .inl ⟨ha, rfl⟩⟩, ?_⟩,
    fun heven ha => ⟨_, execRd16_eq_next.mpr ⟨hj, .inl ⟨⟨heven, ha⟩, rfl⟩⟩, ?_⟩⟩
  · rw [hdraw]
    exact List.getElem?_set_self hlt
  · rw [hdraw, hdraw']
    exact List.getElem?_set_self hlt

/-- After any number of steps a visible value was visible before them, or the byte had it after one of them. -/
theorem run_seenFrom {n : Nat} {s u : State} (hs : s.Inv) (h : core.run n s = .next u) {a : Nat} {v : Byte}
    (hv : v ∈ u.seenAt a) : v ∈ s.seenAt a ∨ ∃ m w, m ≤ n ∧ core.run m s = .next w ∧ v = w.fbAt a := by
  induction n generalizing s with
  | zero =>
    cases h
    exact .inl hv
  | succ n ih =>
    obtain ⟨t, hst, htu⟩ : ∃ t, step s = .next t ∧ core.run n t = .next u := by
      simp only [Host.Core.run] at h
      split at h
      next t hst => exact ⟨t, hst, h⟩
      all_goals cases h
    rcases ih (everyStepKeepsInvariant s t hs hst) htu with ht | ⟨m, w, hm, hw, hvw⟩
    · rcases step_seenFrom hs hst a v ht with hs' | hvt
      · exact .inl hs'
      · exact .inr ⟨1, t, by omega, (run_succ hst 0).trans rfl, hvt⟩
    · exact .inr ⟨m + 1, w, by omega, (run_succ hst m).trans hw, hvw⟩

/-- Settles O35: a FLUSH leaves only the current value visible and keeps the invariant, and then `run_seenFrom`. -/
theorem flushOrdersReads : Obligations.FlushOrdersReads := by
  intro s t u n a v hs h hu hv
  obtain ⟨-, rfl⟩ := execFlush_eq_next.mp h
  have ht : (s.clearSeen.emit .flushDone).Inv := (hs.core.clearSeen.emit _).inv hs.cycle
  exact (run_seenFrom ht hu hv).imp_left List.mem_singleton.mp

end Sys2Proof.Machine
end

section
/-! PROOFS. R206, R242, R248 and R256: a command as a step, the inputs no port can carry, FATAL, the host's moves and its
setup, and host-side events that coincide. -/

namespace Sys2Proof.Machine

/-! ### FATAL -/

theorem State.raiseFatal_eq (s : State) (c : BitVec 2) :
    s.raiseFatal c =
      { s with fatal := true, cause := if s.fatal then s.cause else c, hist := s.hist ++ [.fatal c] } := by
  obtain ⟨_, _, _, fatal, _⟩ := s
  cases fatal <;> rfl

/-- Settles O40: both arms of the command. -/
theorem fatalCompletes : Obligations.FatalCompletes := by
  refine fun c s => ⟨fun hc => ?_, fun hc => execFatal_eq_next.mpr (.inl ⟨hc, rfl⟩)⟩
  rw [← State.raiseFatal_eq]
  exact execFatal_eq_next.mpr (.inr ⟨hc, rfl⟩)

/-! ### Commands as steps -/

/-- A presented command runs unless it waits for a step in progress. -/
theorem present_of_free {c : Command} {s : State} (h : waitsForIdle c = false ∨ s.cyc.quiet = true) :
    present c s = runCommand c s := by
  unfold present
  rcases h with h | h <;> simp [h]

/-- Settles O48: the command is taken from the inputs, and its instruction runs at its free port. -/
theorem stepRunsDecodedInstruction : Obligations.StepRunsDecodedInstruction := by
  intro s cmd rest i hc hin hdec hfree
  have hrun : step s = present cmd (State.enterLoop (.cmd cmd) { s with inputs := rest }) := step_input hc hin
  refine (hrun.trans (present_of_free hfree)).trans ?_
  cases cmd <;> simp only [runCommand, State.enterLoop, hdec, Input.entersLoop, presentsPkt]

/-- Settles O33: each guard, and the port that is held by a step in progress. -/
theorem unpresentableInputsStopByName : Obligations.UnpresentableInputsStopByName := by
  refine fun s => ⟨fun j addr hj => ?_, fun j addr sz hj ha => ?_, fun p k hl hf hk => ?_,
    fun c rest hc hin hw hq => ?_⟩
  · simp only [exec, execRd8, execRd16, onReader, if_neg (Nat.not_lt.mpr hj), and_self]
  · simp only [runCommand, decode, decodeRead, if_neg (Nat.not_le.mpr hj), if_pos ha]
  · have hwrong (f : State → State) : onPacket k p s f = .refused .wrongClass := by simp [onPacket, hl, hf, hk]
    cases k <;> simp only [Instr.ofClass, exec, execPktDiscard, execPktOor, execPktLast, execPktRow, hwrong]
  · have hrun : step s = present c (State.enterLoop (.cmd c) { s with inputs := rest }) := step_input hc hin
    rw [hrun]
    simp only [present, hw, State.enterLoop, hq, Bool.not_false, Bool.and_self, if_true]

/-! ### The host's loop -/

/-- R203: in FRAME_COMPLETE the host presents FLUSH, whatever a transfer would yield. -/
theorem hostMove_flush {x : Transfer} {s u : State} (hrun : exec .flush s = .next u) (hq : s.cyc.quiet = true)
    (hh : s.host = .frameComplete) : hostMove x s = .next { u with host := .awaitingRows } := by
  have hpres : present .flush s = .next u := (present_of_free (.inr hq)).trans hrun
  simp only [hostMove, hh, hpres, andThen_next]

/-- R205: in ABORTED the host presents nothing. -/
theorem hostMove_aborted {x : Transfer} {s : State} (hh : s.host = .aborted) : hostMove x s = .next s := by
  simp only [hostMove, hh]

/-- Settles O53: the move presents FLUSH at idle ports, or nothing. -/
theorem hostFlushesThenAwaits : Obligations.HostFlushesThenAwaits := by
  intro s rest x hc hq hin
  rw [step_host hc hin]
  refine ⟨fun hh hf => ?_, fun hh => hostMove_aborted hh⟩
  have hrun : exec .flush { s with inputs := rest, hostUp := true } = .next _ := execFlush_eq_next.mpr ⟨hf, rfl⟩
  exact ⟨_, hrun, hostMove_flush hrun hq hh⟩

/-- A step that takes a setup failure from the inputs. -/
theorem step_hostSetup {s : State} {f : SetupFailure} {rest : List Input} (hc : s.cfg.wf)
    (hin : s.inputs = .hostSetup f :: rest) : step s = hostSetupFailure f { s with inputs := rest } := by
  rw [step_input hc hin]
  simp only [runInput, State.enterLoop, Input.entersLoop, Bool.or_false]

theorem hostSetupFailure_of_hostUp {f : SetupFailure} {s : State} (h : s.hostUp = true) :
    hostSetupFailure f s = .fault .setupOver := by
  simp only [hostSetupFailure, h, if_true]

/-- R206: before the setup is over, at idle ports. -/
theorem hostSetupFailure_raises {f : SetupFailure} {s : State} (hup : s.hostUp = false) (hq : s.cyc.quiet = true) :
    hostSetupFailure f s = .next { s.raiseFatal (setupCause f) with host := .aborted, hostUp := true } := by
  have hcause : setupCause f ≠ 0#2 := by cases f <;> decide
  have hrun : runCommand (.fatal (setupCause f)) s = .next (s.raiseFatal (setupCause f)) := by
    simp [runCommand, decode, hcause, exec, execFatal]
  exact hostSetupFailure_eq_next.mpr ⟨hup, _, (present_of_free (.inr hq)).trans hrun, rfl⟩

/-- A command of the host's ports refuses, takes a packet's step, flushes or raises FATAL. -/
theorem runCommand_hostPort_cases {c : Command} {s t : State} (hw : waitsForIdle c = true)
    (h : runCommand c s = .next t) :
    t = s.refuse ∨ (∃ p cls, t = s.afterPacket p cls) ∨ t = s.clearSeen.emit .flushDone ∨
      ∃ cause, t = s.raiseFatal cause := by
  rcases runCommand_eq_next.mp h with ⟨i, hdec, hi⟩ | ⟨-, ht⟩
  · rcases exec_next_cases hi with ht | ⟨p, cls, -, -, -, -, ht⟩ | ⟨-, -, ht⟩ | ⟨cause, -, -, ht⟩ | ⟨hread, -⟩
    · exact .inl ht
    · exact .inr (.inl ⟨p, cls, ht⟩)
    · exact .inr (.inr (.inl ht))
    · exact .inr (.inr (.inr ⟨cause, ht⟩))
    · exact absurd hread (decode_not_read hw hdec)
  · exact .inl ht

section HostPorts

variable {P : State → Prop} (hcmd : ∀ {c u v}, waitsForIdle c = true → runCommand c u = .next v → P u → P v)
  (hcyc : ∀ f u, P u → P (State.onCyc f u))
include hcmd hcyc

/-- What the commands of the host's ports keep, and the cycle-level registers have no part in, an edge keeps there. -/
theorem hostPorts_keeps {e : Edge} {s t : State} (h : hostPorts e s = .next t) (hs : P s) : P t := by
  have hrefuse : P s.refuse := hcmd (c := .fatal 0#2) (u := s) rfl rfl hs
  cases hp : s.cyc.phase with
  | idle =>
    rw [hostPorts_of_idle hp] at h
    rcases idleEdge_eq_next h with ⟨-, h⟩ | ⟨-, ⟨-, rfl⟩ | ⟨-, ⟨-, rfl⟩ | ⟨-, ⟨b, -, -, rfl⟩ | ⟨b, -, -, rfl⟩ |
      ⟨-, -, rfl⟩ | ⟨-, -, rfl⟩⟩⟩⟩
    · exact takeFatals_keeps (hcmd rfl) h (hcyc _ s hs)
    · exact hs
    · exact hcyc _ s hs
    · exact hcyc _ s hs
    · exact hrefuse
    · exact hcyc _ s hs
    · exact hs
  | packet bytes =>
    rw [hostPorts_of_packet hp] at h
    rcases packetEdge_eq_next h with ⟨-, rfl⟩ | ⟨-, u, hu, rfl⟩
    · exact hcyc _ s hs
    · exact hcyc _ u (hcmd rfl hu (hcyc _ _ (hcyc _ s hs)))
  | flush =>
    rw [hostPorts_of_flush hp] at h
    rcases flushEdge_eq_next h with ⟨-, rfl⟩ | ⟨-, u, hu, rfl⟩
    · exact hcyc _ s hs
    · exact hcyc _ u (hcmd rfl hu (hcyc _ _ (hcyc _ s hs)))

end HostPorts

/-! ### The host's setup -/

theorem runCommand_hostUp {c : Command} {s t : State} (h : runCommand c s = .next t) : t.hostUp = s.hostUp := by
  rcases runCommand_eq_next.mp h with ⟨i, -, hi⟩ | ⟨-, rfl⟩
  · rcases exec_next_cases hi with rfl | ⟨p, cls, -, -, -, -, rfl⟩ | ⟨-, -, rfl⟩ | ⟨c, -, -, rfl⟩ | ⟨-, hr⟩
    · rfl
    · simp
    · rfl
    · simp
    · exact hr.hostUp
  · rfl

theorem rowProgress_hostUp (e : Edge) (s : State) : (rowProgress e s).hostUp = s.hostUp := by
  rcases rowProgress_cases e s with h | ⟨b, m, -, h⟩ <;> simp [h]

theorem clockEdge_hostUp {e : Edge} {s t : State} (h : clockEdge e s = .next t) : t.hostUp = s.hostUp := by
  rcases clockEdge_eq_next h with ⟨-, rfl⟩ | ⟨-, m, n, hm, hn, ht⟩
  · rcases resetEdge_cases e s with ⟨-, he⟩ | ⟨bytes, -, he⟩ <;> simp [he]
  · refine (hostPorts_keeps (P := fun u => u.hostUp = n.hostUp) (fun _ hr hu => (runCommand_hostUp hr).trans hu)
      (fun _ _ hu => hu) ht rfl).trans ?_
    rw [hn.hostUp, rowProgress_hostUp, hm.hostUp]

theorem hostMove_hostUp {x : Transfer} {s t : State} (h : hostMove x s = .next t) : t.hostUp = s.hostUp := by
  have presented {c : Command} {f : State → HostCtl}
      (h : andThen (present c s) (fun u => .next { u with host := f u }) = .next t) : t.hostUp = s.hostUp := by
    obtain ⟨u, hu, ht⟩ := andThen_eq_next.mp h
    cases ht
    have hup : u.hostUp = s.hostUp := runCommand_hostUp (present_eq_next.mp hu).2
    exact hup
  unfold hostMove at h
  split at h
  · split at h
    · cases h
      rfl
    · exact presented h
  · exact presented (f := fun _ => .aborted) h
  · exact presented (f := fun _ => .awaitingRows) h
  · cases h
    rfl

/-- Only a setup failure changes whether the setup is over, and it says that it is. -/
theorem runInput_hostUp {i : Input} {s t : State} (h : runInput i s = .next t) :
    t.hostUp = s.hostUp ∨ t.hostUp = true := by
  cases i with
  | cmd c => exact .inl (runCommand_hostUp (present_eq_next.mp h).2)
  | reset =>
    cases h
    exact .inl rfl
  | resetDuringPkt bytes mask =>
    rcases resetDuringPkt_eq_next h with ⟨-, ⟨-, rfl⟩ | ⟨-, -, rfl⟩⟩
    · exact .inl rfl
    · exact .inl (by simp)
  | host x => exact .inl (hostMove_hostUp h)
  | hostSetup f =>
    obtain ⟨-, u, -, rfl⟩ := hostSetupFailure_eq_next.mp h
    exact .inr rfl
  | pause =>
    cases h
    exact .inl rfl
  | together x =>
    cases h
    exact .inl rfl
  | clk e => exact .inl (clockEdge_hostUp h)

/-- The setup is over for good once it is, and from the inputs on that enter the loop. -/
theorem step_hostUp {s t : State} {i : Input} {rest : List Input} (hc : s.cfg.wf) (hin : s.inputs = i :: rest)
    (h : step s = .next t) (hup : s.hostUp = true ∨ i.entersLoop = true) : t.hostUp = true := by
  rw [step_input hc hin] at h
  rcases runInput_hostUp h with ht | ht
  · rw [ht, State.enterLoop_hostUp]
    rcases hup with hup | hup <;> simp [hup]
  · exact ht

/-- Settles O54: the failure raises FATAL before the setup is over and says that it is; from then on the host's loop is in
ABORTED and a setup failure stops. -/
theorem hostSetupFailureIsFatal : Obligations.HostSetupFailureIsFatal := by
  refine ⟨fun s rest f hc hin => ⟨fun hup hq hf => ?_, fun hup => ?_⟩, fun s t i rest hc hin h => ⟨?_, ?_⟩⟩
  · have hstep := (step_hostSetup hc hin).trans (hostSetupFailure_raises hup hq)
    refine ⟨_, hstep, ?_, fun x l hl => ?_, fun g l hl => ?_⟩
    · rw [State.raiseFatal_eq]
      cases f <;> simp [hf, setupCause]
    · exact step_host (by simpa using hc) (by simpa using hl)
    · exact (step_hostSetup (by simpa using hc) (by simpa using hl)).trans (hostSetupFailure_of_hostUp rfl)
  · rw [step_hostSetup hc hin]
    exact hostSetupFailure_of_hostUp hup
  · exact fun hup => step_hostUp hc hin h (.inl hup)
  · rintro (⟨b, rfl⟩ | ⟨b, m, rfl⟩ | ⟨x, rfl⟩ | ⟨f, rfl⟩ | ⟨x, rfl, hx⟩ | ⟨e, rfl, he⟩)
    · exact step_hostUp hc hin h (.inr rfl)
    · exact step_hostUp hc hin h (.inr rfl)
    · exact step_hostUp hc hin h (.inr rfl)
    · rw [step_hostSetup hc hin] at h
      obtain ⟨-, u, -, rfl⟩ := hostSetupFailure_eq_next.mp h
      rfl
    · exact step_hostUp hc hin h (.inr (Option.isSome_iff_ne_none.mpr hx))
    · exact step_hostUp hc hin h (.inr (Option.isSome_iff_ne_none.mpr he))

/-! ### Events that coincide -/

/-- Settles O55: the order is computed clause by clause. -/
theorem coincidingEventsHavePriority : Obligations.CoincidingEventsHavePriority := by
  intro s rest x hc hin
  refine ⟨x.order, step_input hc hin, fun hr => ?_, fun hr c hf => ?_, fun hr hf b hp hfl => ?_,
    fun hr hf b hp hfl => ?_, fun hr hf hp hfl => ?_, fun hr hf hp hfl => ?_⟩ <;> simp [Together.order, *]

end Sys2Proof.Machine
end

section
/-! PROOFS. R114 to R119, R246 and R248: the diagnostic port, the acceptance of packets and FLUSH, fatal strobes and reset
at a clock edge. -/

namespace Sys2Proof.Machine

/-! ### The diagnostic port -/

theorem runCommand_rd_diagIdx {j a : Nat} {sz : Bool} {s t : State} (h : runCommand (.rd j a sz) s = .next t) :
    t.diagIdx = s.diagIdx := by
  rcases runCommand_eq_next.mp h with ⟨i, hdec, hi⟩ | ⟨-, rfl⟩
  · obtain ⟨-, -, rfl⟩ := decodeRead_eq_ok.mp hdec
    cases sz with
    | false => rcases execRd8_eq_next.mp hi with ⟨-, ⟨-, rfl⟩ | ⟨-, rfl⟩⟩ <;> rfl
    | true => rcases execRd16_eq_next.mp hi with ⟨-, ⟨-, rfl⟩ | ⟨-, rfl⟩⟩ <;> rfl
  · rfl

section ReaderPorts

variable {P : State → Prop} (hrd : ∀ {q : RdReq} {u v}, runCommand (.rd q.agent q.addr q.size) u = .next v → P u → P v)
  (hcyc : ∀ f u, P u → P (State.onCyc f u))
include hrd hcyc

theorem serveReaders_keeps {qs : List RdReq} {s t : State} (h : serveReaders qs s = .next t) (hs : P s) : P t := by
  induction qs generalizing s with
  | nil =>
    cases h
    exact hs
  | cons q qs ih =>
    obtain ⟨m, hm, ht⟩ := andThen_eq_next.mp h
    obtain ⟨n, hn, hm⟩ := andThen_eq_next.mp hm
    cases hm
    exact ih ht (hcyc _ n (hrd hn hs))

/-- What reads keep, and the cycle-level registers have no part in, an edge keeps at the reader ports. -/
theorem readerPorts_keeps {e : Edge} {s t : State} (h : readerPorts e s = .next t) (hs : P s) : P t := by
  obtain ⟨m, hm, ht⟩ := andThen_eq_next.mp h
  cases ht
  exact hcyc _ m (serveReaders_keeps hrd hcyc hm hs)

end ReaderPorts

/-- An index is on the port and its answer is recorded. -/
def DiagShown (k : BitVec 3) (v : Word32) (s : State) : Prop := s.diagIdx = k ∧ Event.diagRead k v ∈ s.hist

/-- R119: an index presented at an edge is answered from the registers before the edge, and nothing else at the edge
touches the port or takes the answer out of HIST. -/
theorem clockEdge_diagShown {e : Edge} {s t : State} {k : BitVec 3} (hr : e.rst = false) (hd : e.diag = some k)
    (h : clockEdge e s = .next t) : DiagShown k (s.diagReg k) t := by
  rw [clockEdge, hr] at h
  obtain ⟨m, hm, h⟩ := andThen_eq_next.mp h
  obtain ⟨n, hn, ht⟩ := andThen_eq_next.mp h
  have hms : DiagShown k (s.diagReg k) m := by
    rw [diagPort, hd] at hm
    cases hm
    exact ⟨rfl, List.mem_append_right _ (List.mem_singleton.mpr rfl)⟩
  have hrow : DiagShown k (s.diagReg k) (rowProgress e m) := by
    rcases rowProgress_cases e m with he | ⟨b, mask, -, he⟩ <;> simpa [DiagShown, he] using hms
  have hread : DiagShown k (s.diagReg k) n := by
    refine readerPorts_keeps (fun {q u v} hq hu => ?_) (fun _ _ hu => hu) hn hrow
    obtain ⟨-, -, r, es, -, -, hhist⟩ := runCommand_rd_answers hq
    exact ⟨(runCommand_rd_diagIdx hq).trans hu.1, by rw [hhist]; exact List.mem_append_left _ hu.2⟩
  refine hostPorts_keeps (fun {c u v} hw hc hu => ?_) (fun _ _ hu => hu) ht hread
  rcases runCommand_hostPort_cases hw hc with rfl | ⟨p, cls, rfl⟩ | rfl | ⟨cause, rfl⟩
  · exact hu
  · exact ⟨by simpa using hu.1, by rw [State.afterPacket_hist]; exact List.mem_append_left _ hu.2⟩
  · exact ⟨hu.1, List.mem_append_left _ hu.2⟩
  · exact ⟨by simpa using hu.1, by rw [State.raiseFatal_hist]; exact List.mem_append_left _ hu.2⟩

/-- R50: with HAS_DIAG every index but STATUS reads 0 after a reset. -/
theorem State.stepReset_diagReg {s : State} {k : BitVec 3} (hk : k ≠ 7#3) (hd : s.cfg.hasDiag = true) :
    s.stepReset.diagReg k = 0 := by
  have hpop : (Diag.zero s.cfg.rows).rowsSeenPop = 0 := Diag.rowsSeenPop_of_clear rfl
  simp only [State.diagReg, hk, if_false, State.stepReset_cfg, State.stepReset_diag, hd, if_true, hpop]
  split_ifs <;> rfl

theorem State.stepReset_status (s : State) : s.stepReset.status = if s.cfg.hasDiag then 8 else 0 := by
  rw [State.status, State.stepReset_cause, State.stepReset_fatal, State.stepReset_cfg]
  cases s.cfg.hasDiag <;> rfl

/-- Settles O38: the edge by `clockEdge_diagShown`; after a FATAL and a reset the register is read off the state. -/
theorem diagPortShowsCurrentCycle : Obligations.DiagPortShowsCurrentCycle := by
  refine ⟨fun s t e k hr hd h => ?_, fun s c hidx hc hf => ?_, fun s hidx hd => ?_, fun s hidx => ?_⟩
  · obtain ⟨hidx, hhist⟩ := clockEdge_diagShown hr hd h
    exact ⟨hidx, by rw [State.diagRdata, hidx], hhist⟩
  · have hshow : (s.raiseFatal c).diagRdata = (s.raiseFatal c).status := by
      rw [State.diagRdata, State.raiseFatal_diagIdx, hidx, State.diagReg_status]
    refine ⟨_, execFatal_eq_next.mpr (.inr ⟨hc, rfl⟩), ?_, ?_⟩
    · rw [hshow, State.status_getLsbD_fatal, State.raiseFatal_fatal]
    · rw [hshow, State.status_extractLsb'_cause, State.raiseFatal_cause, hf]
      rfl
  · exact State.stepReset_diagReg hidx hd
  · rw [State.diagRdata, State.stepReset_diagIdx, hidx, State.diagReg_status]
    exact s.stepReset_status

/-! ### Acceptance -/

/-- R115: `pkt_ready` with no step in progress. -/
theorem State.pktReady_of_idle {s : State} (hp : s.cyc.phase = .idle) :
    s.pktReady false = true ↔ s.fatal = false ∧ s.cyc.flushPend = false ∧ s.cyc.fatalPend = [] := by
  simp [State.pktReady, Cycle.quiet, hp]
  tauto

/-- Settles O56: what the ports find at the edge has the registers before it, and each case of `idleEdge_eq_next` says what
is accepted. -/
theorem edgeAcceptsByPriority : Obligations.EdgeAcceptsByPriority := by
  intro s t e hp hr h
  obtain ⟨n, hn, ht⟩ := clockEdge_hostPorts hr h
  have hpn := hn.phase.trans hp
  rw [hostPorts_of_idle hpn] at ht
  rw [State.pktReady_of_idle hp, ← hn.fatal, ← hn.flushPend, ← hn.fatalPend, ← hn.cfg]
  rcases idleEdge_eq_next ht with ⟨hs, ht⟩ | ⟨hs, hcase⟩
  · have hphase : t.cyc.phase = .idle := by rw [takeFatals_cyc ht]; exact hpn
    have hstrobe : n.cyc.fatalPend = [] → e.fatalReq ≠ none := fun h1 h2 => hs (by simp [h1, h2])
    refine ⟨fun b => ⟨fun h => ?_, fun ⟨⟨_, _, h1⟩, h2, _⟩ => absurd h2 (hstrobe h1)⟩, fun b h => ?_,
      ⟨fun h => ?_, fun ⟨_, h1, h2, _⟩ => absurd h2 (hstrobe h1)⟩⟩
    all_goals
      rw [hphase] at h
      cases h
  · obtain ⟨hpend, hreq⟩ : n.cyc.fatalPend = [] ∧ e.fatalReq = none := by simpa using hs
    rcases hcase with ⟨hf, rfl⟩ | ⟨hf, ⟨hfl, rfl⟩ | ⟨hfl, ⟨b, hb, hlen, rfl⟩ | ⟨b, hb, hlen, rfl⟩ | ⟨hb, hq, rfl⟩ |
      ⟨hb, hq, rfl⟩⟩⟩
    · simp [hpn, hf]
    · simp [hf, hfl, hpend, hreq]
    · simpa [hf, hfl, hpend, hreq, hb] using hlen
    · simpa [hpn, hf, hfl, hpend, hreq, hb] using hlen
    · simp [hf, hfl, hpend, hreq, hb, hq]
    · simp [hpn, hf, hfl, hpend, hreq, hb, hq]

/-! ### Fatal strobes -/

theorem Event.isFatal_of_isPortRead {x : Event} (h : x.isPortRead = true) : x.isFatal = false := by
  cases x <;> simp [Event.isPortRead, Event.isFatal] at h ⊢

/-- What an edge with a step in progress does to FATAL, to the held strobes and to HIST. -/
structure StrobeHeld (e : Edge) (s t : State) : Prop where
  fatal : t.fatal = s.fatal
  cause : t.cause = s.cause
  fatalPend : t.cyc.fatalPend = s.cyc.fatalPend ++ e.fatalReq.toList
  hist : ∃ es, t.hist = s.hist ++ es ∧ ∀ x ∈ es, x.isFatal = false

/-- R119, R246: with a step in progress a strobe is held, at the edge that ends the step too. -/
theorem hostPorts_strobeHeld {e : Edge} {s t : State} (hp : s.cyc.phase ≠ .idle) (h : hostPorts e s = .next t) :
    StrobeHeld e s t := by
  have hhold : StrobeHeld e s (holdFatal e s) := ⟨rfl, rfl, rfl, [], by simp [holdFatal]⟩
  have ends {u : State} (hfatal : u.fatal = s.fatal) (hcause : u.cause = s.cause)
      (hcyc : u.cyc = ((holdFatal e s).onCyc fun y => { y with phase := .idle }).cyc)
      (hhist : ∃ es, u.hist = s.hist ++ es ∧ ∀ x ∈ es, x.isFatal = false) : StrobeHeld e s u :=
    ⟨hfatal, hcause, by rw [hcyc]; rfl, hhist⟩
  cases hphase : s.cyc.phase with
  | idle => exact absurd hphase hp
  | packet bytes =>
    rw [hostPorts_of_packet hphase] at h
    rcases packetEdge_eq_next h with ⟨-, rfl⟩ | ⟨-, u, hu, rfl⟩
    · exact hhold
    · have hheld : StrobeHeld e s u := by
        refine ends ?_ ?_ (runCommand_cyc hu) ?_ <;> rcases runCommand_pkt_cases hu with rfl | ⟨-, p, cls, rfl⟩
        · rfl
        · simp [holdFatal]
        · rfl
        · simp [holdFatal]
        · exact ⟨[], by simp [holdFatal]⟩
        · exact ⟨_, State.afterPacket_hist .., by simp [Event.isFatal]⟩
      exact ⟨hheld.fatal, hheld.cause, hheld.fatalPend, hheld.hist⟩
  | flush =>
    rw [hostPorts_of_flush hphase] at h
    rcases flushEdge_eq_next h with ⟨-, rfl⟩ | ⟨-, u, hu, rfl⟩
    · exact hhold
    · obtain ⟨-, rfl⟩ := runCommand_flush hu
      exact ⟨rfl, rfl, rfl, _, rfl, by simp [Event.isFatal]⟩

/-- R242, R245, R248: with no step in progress all held and new strobes are taken. -/
theorem idleEdge_strobes {e : Edge} {s t : State} (h : idleEdge e s = .next t) :
    t.cyc.fatalPend = [] ∧
      (t.fatal = true ↔ s.fatal = true ∨ ∃ c ∈ s.cyc.fatalPend ++ e.fatalReq.toList, c ≠ 0#2) ∧
      t.cause = (if s.fatal then s.cause
        else ((s.cyc.fatalPend ++ e.fatalReq.toList).find? fun c => c ≠ 0#2).getD s.cause) ∧
      t.hist = s.hist ++ ((s.cyc.fatalPend ++ e.fatalReq.toList).filter fun c => c ≠ 0#2).map .fatal := by
  rcases idleEdge_eq_next h with ⟨-, h⟩ | ⟨hs, hcase⟩
  · exact ⟨by rw [takeFatals_cyc h]; rfl, takeFatals_next (s := s.onCyc fun y => { y with fatalPend := [] }) h⟩
  · have hpend : s.cyc.fatalPend = [] := (List.append_eq_nil_iff.mp hs).1
    rw [hs]
    rcases hcase with ⟨-, rfl⟩ | ⟨-, ⟨-, rfl⟩ | ⟨-, ⟨b, -, -, rfl⟩ | ⟨b, -, -, rfl⟩ | ⟨-, -, rfl⟩ | ⟨-, -, rfl⟩⟩⟩ <;>
      simp [hpend]

/-- Settles O57: the edge's reads are no Fatal events, and the host's ports hold or take the strobes. -/
theorem fatalStrobeIsHeld : Obligations.FatalStrobeIsHeld := by
  intro s t e hr h
  obtain ⟨n, hn, ht⟩ := clockEdge_hostPorts hr h
  obtain ⟨es, hes, hread⟩ := hn.events
  have hnone : ∀ x ∈ es, x.isFatal = false := fun x hx => Event.isFatal_of_isPortRead (hread x hx)
  refine ⟨fun hp => ?_, fun hp => ?_⟩
  · obtain ⟨hfatal, hcause, hpend, fs, hfs, hfsnone⟩ := hostPorts_strobeHeld (by rwa [hn.phase]) ht
    refine ⟨hfatal.trans hn.fatal, hcause.trans hn.cause, by rw [hpend, hn.fatalPend], es ++ fs,
      by rw [hfs, hes, List.append_assoc], fun x hx => (List.mem_append.mp hx).elim (hnone x) (hfsnone x)⟩
  · rw [hostPorts_of_idle (hn.phase.trans hp)] at ht
    obtain ⟨hpend, hfatal, hcause, hhist⟩ := idleEdge_strobes ht
    rw [hn.fatalPend, hn.fatal] at hfatal hcause
    rw [hn.fatalPend, hes] at hhist
    exact ⟨hpend, hfatal, by rw [hcause, hn.cause], es, hnone, hhist⟩

/-! ### Reset at an edge -/

/-- R248, R270: an edge with `rst = 1`. -/
theorem step_resetEdge {s : State} {e : Edge} {rest : List Input} (hc : s.cfg.wf) (hr : e.rst = true)
    (hin : s.inputs = .clk e :: rest) :
    step s = .next (resetEdge e { s with inputs := rest, hostUp := s.hostUp || e.pkt.isSome }) := by
  rw [step_input hc hin]
  exact if_pos hr

/-- Settles O58: without a packet in progress the edge is a reset, and with one it first leaves its row partly written. -/
theorem resetEdgeIgnoresAllElse : Obligations.ResetEdgeIgnoresAllElse := by
  intro s e rest hc hr hin
  refine ⟨_, step_resetEdge hc hr hin, ?_⟩
  rcases resetEdge_cases e { s with inputs := rest, hostUp := s.hostUp || e.pkt.isSome } with ⟨hp, he⟩ | ⟨bytes, hp, he⟩
  · rw [he]
    exact ⟨rfl, fun _ => ⟨rfl, rfl⟩, fun bytes hb => absurd hb (hp bytes)⟩
  · rw [he]
    refine ⟨?_, fun hn => absurd hp (hn bytes), fun b hb hlen => ?_⟩
    · rw [State.partialRow_eq]
      rfl
    · obtain rfl : bytes = b := Phase.packet.inj (hp.symm.trans hb)
      have hrow := rowPartlyWritten_partialRow (s := { s with inputs := rest, hostUp := s.hostUp || e.pkt.isSome })
        e.mask hc hlen
      exact ⟨hrow.seen, fun hcl => (hrow.discard hcl).1,
        fun r payload hcl => ⟨hrow.inside r payload hcl, hrow.outside r payload hcl⟩⟩

end Sys2Proof.Machine
end

section
/-! PROOFS. R7, R51 and R246: the clock edges of a packet step or a FLUSH refine the one command. Unfinished edges leave the
step in progress as it was but for row bytes, reads and held strobes (`InProgress`); the finishing edge is then the command. -/

namespace Sys2Proof.Machine

/-! ### Unfinished edges -/

theorem clockEdge_inv {e : Edge} {s t : State} (hs : s.Inv) (h : clockEdge e s = .next t) : t.Inv := by
  have hm : Moves (fun b => b.length = s.cfg.p) s t := clockEdge_moves hs.config (fun b => hs.length_of_packet) h
  exact (hm.keeps (P := fun u => u.cfg = s.cfg ∧ u.CoreInv) Move.coreInv ⟨rfl, hs.core⟩).2.inv
    (clockEdge_cycleOk hs.cycle h)

theorem clockEdge_unfinished {e : Edge} {s t : State} (hp : s.cyc.phase ≠ .idle) (hr : e.rst = false)
    (hf : e.finish = false) (h : clockEdge e s = .next t) : ∃ n, BeforeHostPorts e s n ∧ t = holdFatal e n := by
  obtain ⟨n, hn, ht⟩ := clockEdge_hostPorts hr h
  exact ⟨n, hn, hostPorts_unfinished (by rwa [hn.phase]) hf ht⟩

/-- What unfinished edges leave of a step in progress: all that the command at its end depends on. Of a packet's row some
bytes may be new, which its whole row makes no difference of. -/
structure InProgress (s m : State) : Prop where
  inv : m.Inv
  cfg : m.cfg = s.cfg
  fatal : m.fatal = s.fatal
  cause : m.cause = s.cause
  diag : m.diag = s.diag
  refused : m.refused = s.refused
  rsp : m.rsp = s.rsp
  phase : m.cyc.phase = s.cyc.phase
  flushPend : m.cyc.flushPend = s.cyc.flushPend
  row : ∀ bytes, s.cyc.phase = .packet bytes →
    (m.wholeRow bytes).fb = (s.wholeRow bytes).fb ∧ (m.wholeRow bytes).stale = (s.wholeRow bytes).stale
  flush : s.cyc.phase = .flush → m.fb = s.fb ∧ m.stale = s.stale
  hist : ∃ l, m.hist = s.hist ++ l

theorem InProgress.refl {s : State} (hs : s.Inv) : InProgress s s :=
  ⟨hs, rfl, rfl, rfl, rfl, rfl, rfl, rfl, rfl, fun _ _ => ⟨rfl, rfl⟩, fun _ => ⟨rfl, rfl⟩, [], by simp⟩

theorem InProgress.trans {s m t : State} (h : InProgress s m) (g : InProgress m t) : InProgress s t where
  inv := g.inv
  cfg := g.cfg.trans h.cfg
  fatal := g.fatal.trans h.fatal
  cause := g.cause.trans h.cause
  diag := g.diag.trans h.diag
  refused := g.refused.trans h.refused
  rsp := g.rsp.trans h.rsp
  phase := g.phase.trans h.phase
  flushPend := g.flushPend.trans h.flushPend
  row bytes hp := by
    obtain ⟨hfb, hstale⟩ := h.row bytes hp
    obtain ⟨gfb, gstale⟩ := g.row bytes (h.phase.trans hp)
    exact ⟨gfb.trans hfb, gstale.trans hstale⟩
  flush hp := by
    obtain ⟨hfb, hstale⟩ := h.flush hp
    obtain ⟨gfb, gstale⟩ := g.flush (h.phase.trans hp)
    exact ⟨gfb.trans hfb, gstale.trans hstale⟩
  hist := by
    obtain ⟨l, hl⟩ := h.hist
    obtain ⟨l', hl'⟩ := g.hist
    exact ⟨l ++ l', by rw [hl', hl, List.append_assoc]⟩

theorem inProgress_of_clockEdge {e : Edge} {s t : State} (hs : s.Inv) (hp : s.cyc.phase ≠ .idle) (hr : e.rst = false)
    (hf : e.finish = false) (h : clockEdge e s = .next t) : InProgress s t := by
  have hinv := clockEdge_inv hs h
  obtain ⟨n, hn, rfl⟩ := clockEdge_unfinished hp hr hf h
  obtain ⟨es, hes, -⟩ := hn.events
  refine ⟨hinv, hn.cfg, hn.fatal, hn.cause, hn.diag, hn.refused, hn.rsp, hn.phase, hn.flushPend, fun bytes hb => ?_,
    fun hb => ?_, es, hes⟩
  · have hfb := hn.fb
    have hstale := hn.stale
    have hrow : rowProgress e s = s.partialRow bytes e.mask := by
      simp only [rowProgress, hb, hf, Bool.false_eq_true, if_false]
    rw [hrow] at hfb hstale
    obtain ⟨cfb, cstale⟩ := State.wholeRow_memory_congr (s := s.partialRow bytes e.mask) (t := holdFatal e n)
      (by simpa [holdFatal] using hn.cfg) hfb hstale bytes
    obtain ⟨wfb, wstale⟩ := State.wholeRow_partialRow hs.core (hs.length_of_packet hb) e.mask
    exact ⟨cfb.trans wfb, cstale.trans wstale⟩
  · have hfb := hn.fb
    have hstale := hn.stale
    rw [rowProgress_of_flush e hb] at hfb hstale
    exact ⟨hfb, hstale⟩

/-- Edges of which the last one alone finishes the step in progress. -/
theorem runEdges_inProgress {es : List Edge} {e : Edge} {s t : State} (hs : s.Inv) (hp : s.cyc.phase ≠ .idle)
    (hes : ∀ x ∈ es, x.rst = false ∧ x.finish = false) (h : runEdges (es ++ [e]) s = .next t) :
    ∃ m, InProgress s m ∧ clockEdge e m = .next t := by
  induction es generalizing s with
  | nil =>
    obtain ⟨m, hm, ht⟩ := andThen_eq_next.mp h
    cases ht
    exact ⟨s, .refl hs, hm⟩
  | cons x es ih =>
    obtain ⟨u, hu, ht⟩ := andThen_eq_next.mp h
    obtain ⟨hr, hf⟩ := hes x (List.mem_cons_self ..)
    have hsu := inProgress_of_clockEdge hs hp hr hf hu
    obtain ⟨m, hum, hmt⟩ := ih hsu.inv (by rwa [hsu.phase]) (fun y hy => hes y (List.mem_cons_of_mem _ hy)) ht
    exact ⟨m, hsu.trans hum, hmt⟩

/-! ### The finishing edge -/

/-- What the commands at the ends of the two levels start from: the same but for FB, SEEN, HIST and the ports. -/
structure SameCommandState (s k : State) : Prop where
  cfg : k.cfg = s.cfg
  fatal : k.fatal = s.fatal
  cause : k.cause = s.cause
  diag : k.diag = s.diag
  refused : k.refused = s.refused
  rsp : k.rsp = s.rsp
  hist : ∃ l, k.hist = s.hist ++ l

theorem InProgress.atHostPorts {e : Edge} {s m n : State} (h : InProgress s m) (hn : BeforeHostPorts e m n)
    (f : Cycle → Cycle) : SameCommandState s (n.onCyc f) := by
  obtain ⟨l, hl⟩ := h.hist
  obtain ⟨es, hes, -⟩ := hn.events
  exact ⟨hn.cfg.trans h.cfg, hn.fatal.trans h.fatal, hn.cause.trans h.cause, hn.diag.trans h.diag,
    hn.refused.trans h.refused, hn.rsp.trans h.rsp, l ++ es, by rw [State.onCyc_hist, hes, hl, List.append_assoc]⟩

/-- A packet command from two such states has the same outcome but for FB, SEEN and the earlier events. -/
theorem SameCommandState.runCommand_pkt {s k u v : State} {bytes : List Byte} (h : SameCommandState s k)
    (hc : s.cfg.wf) (hlen : bytes.length = s.cfg.p) (hu : runCommand (.pkt bytes) s = .next u)
    (hv : runCommand (.pkt bytes) k = .next v) :
    v.diag = u.diag ∧ v.fatal = u.fatal ∧ v.cause = u.cause ∧ v.refused = u.refused ∧ v.rsp = u.rsp ∧
      ∃ l, v.hist = s.hist ++ l ++ [.resp u.rsp] := by
  obtain ⟨-, p, hl, hb, rfl⟩ := runCommand_pkt_of_length hc hlen hu
  have hlk : p.lengthOk k.cfg = true := by rw [h.cfg]; exact hl
  have hbk : p.bytes k.cfg = bytes := by rw [h.cfg]; exact hb
  rw [← hbk, runCommand_bytes hlk, exec_ofClass_eq_next hlk] at hv
  obtain ⟨-, -, rfl⟩ := hv
  have hrsp : (k.afterPacket p (p.cls k.cfg)).rsp = (s.afterPacket p (p.cls s.cfg)).rsp := by
    simp only [afterPacket_rsp, State.allRows, h.cfg, h.diag]
  obtain ⟨l, hl⟩ := h.hist
  refine ⟨?_, ?_, ?_, ?_, hrsp, l, ?_⟩
  · rw [State.afterPacket_diag, State.afterPacket_diag, h.cfg, h.diag]
  · rw [State.afterPacket_fatal, State.afterPacket_fatal, h.fatal]
  · rw [State.afterPacket_cause, State.afterPacket_cause, h.cause]
  · rw [State.afterPacket_refused, State.afterPacket_refused, h.refused]
  · rw [State.afterPacket_hist, hrsp, hl]

theorem clockEdge_finishPacket {e : Edge} {m t : State} {bytes : List Byte} (hp : m.cyc.phase = .packet bytes)
    (hr : e.rst = false) (hf : e.finish = true) (h : clockEdge e m = .next t) :
    ∃ n v, BeforeHostPorts e m n ∧ runCommand (.pkt bytes) (n.onCyc (endOfStep e)) = .next v ∧
      t = v.onCyc fun y =>
        { y with rspValid := true, phase := if y.flushPend && y.fatalPend.isEmpty then .flush else y.phase,
                 flushPend := y.flushPend && !y.fatalPend.isEmpty } := by
  obtain ⟨n, hn, ht⟩ := clockEdge_hostPorts hr h
  rw [hostPorts_of_packet (hn.phase.trans hp)] at ht
  rcases packetEdge_eq_next ht with ⟨hf', -⟩ | ⟨-, v, hv, rfl⟩
  · simp [hf] at hf'
  · exact ⟨n, v, hn, hv, rfl⟩

theorem clockEdge_finishFlush {e : Edge} {m t : State} (hp : m.cyc.phase = .flush) (hr : e.rst = false)
    (hf : e.finish = true) (h : clockEdge e m = .next t) :
    ∃ n, BeforeHostPorts e m n ∧
      t = ((n.onCyc (endOfStep e)).clearSeen.emit .flushDone).onCyc fun y => { y with flushAck := true } := by
  obtain ⟨n, hn, ht⟩ := clockEdge_hostPorts hr h
  rw [hostPorts_of_flush (hn.phase.trans hp)] at ht
  rcases flushEdge_eq_next ht with ⟨hf', -⟩ | ⟨-, v, hv, rfl⟩
  · simp [hf] at hf'
  · obtain ⟨-, rfl⟩ := runCommand_flush hv
    exact ⟨n, hn, rfl⟩

/-- Settles O59: `runEdges_inProgress`, and then the finishing edge runs the command from a state that differs in nothing
the command depends on. -/
theorem clockEdgesRefinePacketStep : Obligations.ClockEdgesRefinePacketStep := by
  refine ⟨fun s t u bytes es e hs hp hes hr hf h hu => ?_, fun s t u es e hs hp hes hr hf h hu => ?_,
    fun s t e hp hr hf h => ?_⟩
  · have hlen := hs.length_of_packet hp
    obtain ⟨m, hm, he⟩ := runEdges_inProgress hs (by simp [hp]) hes h
    obtain ⟨n, v, hn, hv, rfl⟩ := clockEdge_finishPacket (hm.phase.trans hp) hr hf he
    obtain ⟨hfb, hstale⟩ := finishPacket_memory hm.inv.core (hm.phase.trans hp) (hm.cfg ▸ hlen) hf hn hv
    obtain ⟨hrowfb, hrowstale⟩ := hm.row bytes hp
    obtain ⟨hufb, hustale⟩ := runCommand_pkt_wholeRow hs.config hlen hu
    obtain ⟨hdiag, hfatal, hcause, hrefused, hrsp, l, hhist⟩ :=
      (hm.atHostPorts hn (endOfStep e)).runCommand_pkt hs.config hlen hu hv
    have hcyc : v.cyc = endOfStep e n.cyc := runCommand_cyc hv
    have hpend : v.cyc.flushPend = s.cyc.flushPend := by rw [hcyc]; exact hn.flushPend.trans hm.flushPend
    have hidle : v.cyc.phase = .idle := by rw [hcyc]; rfl
    refine ⟨hfb.trans (hrowfb.trans hufb.symm), hstale.trans (hrowstale.trans hustale.symm), hdiag, hfatal, hcause,
      hrefused, hrsp, rfl, by rw [State.onCyc_cyc, hcyc]; exact hn.flushAck, ?_, l, hhist⟩
    simp [hpend, hidle]
  · obtain ⟨m, hm, he⟩ := runEdges_inProgress hs (by simp [hp]) hes h
    obtain ⟨n, hn, rfl⟩ := clockEdge_finishFlush (hm.phase.trans hp) hr hf he
    obtain ⟨-, rfl⟩ := runCommand_flush hu
    have hk := hm.atHostPorts hn (endOfStep e)
    have hfb : n.fb = s.fb := by
      rw [hn.fb, rowProgress_of_flush e (hm.phase.trans hp)]
      exact (hm.flush hp).1
    obtain ⟨l, hl⟩ := hk.hist
    exact ⟨hfb, fun a => congrArg (fun v => [v]) (State.fbAt_of_fb hfb a), rfl, hk.diag, hk.fatal, hk.cause, hk.refused,
      hk.rsp, rfl, hn.rspValid, rfl, l, congrArg (· ++ [Event.flushDone]) hl⟩
  · obtain ⟨n, hn, rfl⟩ := clockEdge_unfinished (by simp [hp]) hr hf h
    have hfb := hn.fb
    have hstale := hn.stale
    rw [rowProgress_of_flush e hp] at hfb hstale
    obtain ⟨es, hes, hread⟩ := hn.events
    refine ⟨hfb, hstale, hn.flushAck, hn.rspValid, hn.phase.trans hp, fun hmem => ?_⟩
    have hevent : (holdFatal e n).hist.drop s.hist.length = es := by
      rw [holdFatal, State.onCyc_hist, hes, List.drop_left]
    exact absurd (hread _ (hevent ▸ hmem)) (by decide)

end Sys2Proof.Machine
end

section
/-! PROOFS. R118, R273, R280 and R282: the row bytes of an unfinished edge, and the reader ports at an edge. -/

namespace Sys2Proof.Machine

/-! ### Row bytes -/

/-- The row bytes of an edge of a packet in progress: its whole row where the packet finishes, else what the mask marks. -/
theorem rowProgress_of_packet {e : Edge} {s : State} {bytes : List Byte} (hp : s.cyc.phase = .packet bytes) :
    rowProgress e s = s.partialRow bytes (if e.finish then List.replicate s.cfg.rowBytes true else e.mask) := by
  simp only [rowProgress, hp]

/-- R280: what an unfinished edge changes in FB is a byte of the packet's in-range row, and it gets its new value. -/
theorem unfinishedEdge_changes {e : Edge} {s t : State} {bytes : List Byte} {a : Nat} (hs : s.Inv)
    (hp : s.cyc.phase = .packet bytes) (ht : t.fb = (rowProgress e s).fb) (hne : t.fbAt a ≠ s.fbAt a) :
    ∃ r payload, classify s.cfg bytes = .valid r payload ∧ r.toNat < s.cfg.rows ∧ rowBase s.cfg r.toNat ≤ a ∧
      a < rowBase s.cfg r.toNat + s.cfg.rowBytes ∧ t.fbAt a = payload.getD (a - rowBase s.cfg r.toNat) 0 := by
  rw [rowProgress_of_packet hp] at ht
  rw [State.fbAt_of_fb ht] at hne ⊢
  have hnew := (State.partialRow_fbAt_old_or_new hs.config (hs.length_of_packet hp) _ a).resolve_left hne
  exact newByte_eq_some hnew

/-- At an edge at which a byte of the row is written, a reader may be given its old value or its new one (R280). -/
theorem rowProgress_old_and_new {e : Edge} {s : State} {bytes payload : List Byte} {r : Byte} {i : Nat} (hc : s.cfg.wf)
    (hp : s.cyc.phase = .packet bytes) (hlen : bytes.length = s.cfg.p) (hcl : classify s.cfg bytes = .valid r payload)
    (hr : r.toNat < s.cfg.rows) (hi : i < s.cfg.rowBytes) (hw : e.finish = true ∨ e.mask.getD i false = true) :
    s.fbAt (rowBase s.cfg r.toNat + i) ∈ (rowProgress e s).seenAt (rowBase s.cfg r.toNat + i) ∧
      payload.getD i 0 ∈ (rowProgress e s).seenAt (rowBase s.cfg r.toNat + i) := by
  have hmask : (if e.finish then List.replicate s.cfg.rowBytes true else e.mask).getD i false = true := by
    cases hf : e.finish with
    | true => simp [hi]
    | false => simpa [hf] using hw
  rw [rowProgress_of_packet hp]
  have hrow := rowPartlyWritten_partialRow (s := s)
    (if e.finish then List.replicate s.cfg.rowBytes true else e.mask) hc hlen
  refine ⟨(hrow.seen _ _).mpr (.inl (s.fbAt_mem_seenAt _)), (hrow.seen _ _).mpr (.inr ?_)⟩
  rw [hrow.inside r payload hcl hr i hi, hmask, if_pos rfl]

/-! ### The reader ports -/

section Readers

variable {e : Edge} {s t : State} {q : RdReq} (hr : e.rst = false) (h : clockEdge e s = .next t)
include hr h

/-- A reader is acknowledged where the edge names it and it has a request pending. -/
theorem mem_rdAck_iff : q.agent ∈ t.cyc.rdAck ↔
    q.agent ∈ e.serve ∧ (s.cyc.rdPend.find? fun p => p.agent == q.agent).isSome = true := by
  rw [(clockEdge_readers hr h).1, List.mem_map]
  constructor
  · rintro ⟨p, hp, hpq⟩
    obtain ⟨hserve, hfind⟩ := mem_servedNow.mp hp
    rw [← hpq, hfind]
    exact ⟨hserve, rfl⟩
  · rintro ⟨hserve, hsome⟩
    obtain ⟨p, hp⟩ := Option.isSome_iff_exists.mp hsome
    have hpq : p.agent = q.agent := by simpa using List.find?_some hp
    exact ⟨p, mem_servedNow.mpr ⟨hpq ▸ hserve, hpq ▸ hp⟩, hpq⟩

theorem rdOut_of_not_acked (hn : q.agent ∉ t.cyc.rdAck) : t.rdOut[q.agent]? = s.rdOut[q.agent]? := by
  obtain ⟨-, -, hout, -⟩ := clockEdge_readers hr h
  exact hout _ hn

/-- A request that the edge serves is no longer pending, and no new one of its reader is latched at the edge. -/
theorem not_pending_of_served (hq : (s.cyc.rdPend.find? fun p => p.agent == q.agent) = some q)
    (hserve : q.agent ∈ e.serve) :
    ∀ p ∈ t.cyc.rdPend, p.agent ≠ q.agent := by
  intro p hp hpq
  rw [(clockEdge_readers hr h).2.1] at hp
  rcases mem_of_mem_latchReaders hp with hp | hp
  · simp [hpq, hserve] at hp
  · have hmem := List.mem_of_find?_eq_some hq
    have hnone := (List.mem_filter.mp hp).2
    rw [hpq] at hnone
    simp at hnone
    exact hnone q hmem rfl

/-- A pending request that the edge does not serve stays. -/
theorem pending_of_not_served (hq : q ∈ s.cyc.rdPend) (hserve : q.agent ∉ e.serve) : q ∈ t.cyc.rdPend := by
  rw [(clockEdge_readers hr h).2.1]
  exact mem_latchReaders_of_mem (List.mem_filter.mpr ⟨hq, by simpa using hserve⟩)

/-- R118: the first request on the ports of a reader with none pending is latched. -/
theorem latched_of_requested (hnone : ∀ p ∈ s.cyc.rdPend, p.agent ≠ q.agent)
    (hq : (e.rd.find? fun p => p.agent == q.agent) = some q) : q ∈ t.cyc.rdPend := by
  rw [(clockEdge_readers hr h).2.1]
  refine mem_latchReaders_of_find (fun p hp => hnone p (List.mem_filter.mp hp).1) ?_
  rw [List.find?_filter, ← hq]
  refine congrArg (e.rd.find? ·) (funext fun p => ?_)
  by_cases hpq : p.agent = q.agent
  · simpa [hpq] using hnone
  · simp [hpq]

end Readers

/-- Settles O60: the row bytes of the edge, and the three things that can happen to a request at it. -/
theorem unfinishedEdgeWritesOnlyNewBytes : Obligations.UnfinishedEdgeWritesOnlyNewBytes := by
  refine ⟨fun s t bytes e a hs hp hr hf h => ?_, fun s t e q hs hr h hq => ⟨fun hserve => ?_, fun hserve => ?_⟩,
    fun s t e q hr h hnone hq => ?_, fun s e bytes payload r i => rowProgress_old_and_new⟩
  · obtain ⟨n, hn, rfl⟩ := clockEdge_unfinished (by simp [hp]) hr hf h
    exact ⟨hn.rsp, hn.rspValid, hn.phase.trans hp, hn.diag, unfinishedEdge_changes hs hp hn.fb⟩
  · obtain ⟨-, -, -, hanswer⟩ := clockEdge_readers hr h
    obtain ⟨r, es, pre, post, hans, hout, hhist, hother⟩ := hanswer q (mem_servedNow.mpr ⟨hserve, hq⟩)
    exact ⟨(mem_rdAck_iff hr h).mpr ⟨hserve, by rw [hq]; rfl⟩, not_pending_of_served hr h hq hserve, r, es, pre, post,
      hans, hout hs.readers, hhist, hother⟩
  · have hack : q.agent ∉ t.cyc.rdAck := fun hack => hserve ((mem_rdAck_iff hr h).mp hack).1
    exact ⟨hack, pending_of_not_served hr h (List.mem_of_find?_eq_some hq) hserve, rdOut_of_not_acked hr h hack⟩
  · have hack : q.agent ∉ t.cyc.rdAck := by
      intro hack
      obtain ⟨p, hp⟩ := Option.isSome_iff_exists.mp ((mem_rdAck_iff hr h).mp hack).2
      exact hnone p (List.mem_of_find?_eq_some hp) (by simpa using List.find?_some hp)
    exact ⟨hack, latched_of_requested hr h hnone hq, rdOut_of_not_acked hr h hack⟩

end Sys2Proof.Machine
end
